-- ==== Sys2Proof/Word.lean ====
section
/-! DEFINITION. The word types of the block: bytes, the 16-bit and 32-bit operands, one binary64 datum as its bits, and the
two composite units the spec moves as one: a pixel (R25) and a quantized pixel (R26). -/

namespace Sys2Proof

/-- A byte: the unit of every stream, descriptor and response (00_scope section 5.1). -/
abbrev Byte := BitVec 8

/-- The 16-bit operands `W` and `H` (R22, R23). -/
abbrev Half := BitVec 16

/-- The 32-bit output selector `PATHTOK` (R24) and the image index (R61). -/
abbrev Word := BitVec 32

/-- One `FPFMT` datum, held as its binary64 bit pattern (R25: "can hold any bit pattern of the format"). -/
abbrev F64 := BitVec 64

/-- The unit of the image space: "all three from the same pixel" (R60, R62). -/
structure Pixel where
  red : F64
  green : F64
  blue : F64
  deriving DecidableEq, Repr, Inhabited

/-- A quantized pixel: the four unsigned bytes R, G, B, E (R26, R114). -/
structure Quad where
  r : Byte
  g : Byte
  b : Byte
  e : Byte
  deriving DecidableEq, Repr, Inhabited

end Sys2Proof
end

