-- ==== Sys2Proof/Config.lean ====
section
/-! DEFINITION. What is fixed for the block (the parameter table R8) and the free values the spec leaves open. -/

namespace Sys2Proof.Config

/-- Width of an `FPFMT` datum in bytes: binary64 (R8, D1). DESIGN CHOICE: log entry 1. -/
abbrev fpBytes : Nat := 8

/-- The underflow floor `FLOOR`, the binary64 datum nearest to 10^-32 (R8, R131, D2). -/
abbrev floorBits : F64 := 0x3949F623D5A8A733#64

/-- `SCALE`, the mantissa scale (R8, R134). -/
abbrev scale : Nat := 256

/-- `BIAS`, the exponent bias (R8, R137). -/
abbrev bias : Int := 128

/-- `CHUNKMAX`, the largest literal chunk length (R8, R163). -/
abbrev chunkMax : Nat := 127

/-- `SLBCAP`, the capacity of the scanline buffer in entries (R8, R28). -/
abbrev slbCap : Nat := 65535

/-- `WCONV`, the range of widths of the format convention, "not enforced" (R8, R119, R172): no rule of the block reads it. -/
abbrev wConv (w : Half) : Bool := 8 ≤ w.toNat && w.toNat ≤ 32767

/-- The opcode bytes of the three commands (R93). -/
abbrev opQuant : Byte := 0x01#8
abbrev opEncsl : Byte := 0x02#8
abbrev opWrite : Byte := 0x03#8

/-- The line terminator `LF` (R105). -/
abbrev lf : Byte := 0x0A#8

/-- Header line 1, `#?RADIANCE` and its `LF` (R101). -/
def headerLine1 : List Byte :=
  [0x23#8, 0x3F#8, 0x52#8, 0x41#8, 0x44#8, 0x49#8, 0x41#8, 0x4E#8, 0x43#8, 0x45#8, lf]

/-- `COMMENT`, "# Made with 100% pure HDR Shop" (R8, R102, D10). DESIGN CHOICE: log entry 2. -/
def comment : List Byte :=
  [0x23#8, 0x20#8, 0x4D#8, 0x61#8, 0x64#8, 0x65#8, 0x20#8, 0x77#8, 0x69#8, 0x74#8, 0x68#8, 0x20#8, 0x31#8, 0x30#8, 0x30#8, 0x25#8,
   0x20#8, 0x70#8, 0x75#8, 0x72#8, 0x65#8, 0x20#8, 0x48#8, 0x44#8, 0x52#8, 0x20#8, 0x53#8, 0x68#8, 0x6F#8, 0x70#8]

/-- Header line 2: the comment and its `LF` (R102). -/
def headerLine2 : List Byte := comment ++ [lf]

/-- Header line 3, `FORMAT=32-bit_rle_rgbe` and its `LF` (R103). -/
def headerLine3 : List Byte :=
  [0x46#8, 0x4F#8, 0x52#8, 0x4D#8, 0x41#8, 0x54#8, 0x3D#8, 0x33#8, 0x32#8, 0x2D#8, 0x62#8, 0x69#8, 0x74#8, 0x5F#8, 0x72#8, 0x6C#8,
   0x65#8, 0x5F#8, 0x72#8, 0x67#8, 0x62#8, 0x65#8, lf]

/-- Header line 4, `EXPOSURE=`, ten spaces, `1.0000000000000`, its `LF` and the `LF` of the blank line (R103, R105, C7). -/
def headerLine4 : List Byte :=
  [0x45#8, 0x58#8, 0x50#8, 0x4F#8, 0x53#8, 0x55#8, 0x52#8, 0x45#8, 0x3D#8] ++ List.replicate 10 0x20#8
    ++ [0x31#8, 0x2E#8] ++ List.replicate 13 0x30#8 ++ [lf, lf]

/-- `HDRROM`, the fixed header block (R42, R104). -/
def hdrRom : List Byte := headerLine1 ++ headerLine2 ++ headerLine3 ++ headerLine4

/-- FREE VALUE (R141, U1, U1b): the four bytes drawn for an invalid pixel, one fresh quadruple per draw. No body: nothing
can be proved of it. Log entry 5. -/
opaque drawnQuad : Nat → Quad

/-- FREE VALUE (R26, U10): what `Q` holds after a command. Log entry 4. -/
opaque leftQuad : Nat → Quad

/-- FREE VALUE (R26, U10): what `PIX` holds after a command. Log entry 4. -/
opaque leftPixel : Nat → Pixel

end Sys2Proof.Config
end

