-- ==== Sys2Proof/Syntax.lean ====
section
/-! DEFINITION. The instructions: one constructor for each row of spec/opcode_table.json. Three are commands a host sends,
one is the space of all other descriptors, eight are the records of the output stream, one is the response. -/

namespace Sys2Proof

/-- The status of a command: `OK` and the four exceptions (R37, R240). Codes 5 to 7 are never taken. -/
inductive Status where
  | ok
  | pathUnwritable
  | writeFailure
  | degenerateInput
  | illegalCommand
  deriving DecidableEq, Repr, Inhabited

/-- The instructions of the block. -/
inductive Instr where
  /-- QUANT (R93, R94, R130): quantize one pixel. -/
  | quant (red green blue : F64)
  /-- ENCSL (R93, R95, R160): encode one scanline of `w` quantized pixels. -/
  | encsl (w : Half) (row : List Quad)
  /-- WRITE (R93, R96, R190): write one image to the sink selected by `pathtok`. -/
  | write (w h : Half) (pathtok : Word)
  /-- Every other descriptor, with its bytes (R99, R244). -/
  | reservedCommand (descriptor : List Byte)
  /-- HDRLINE1 (R101). -/
  | hdrline1
  /-- HDRLINE2 (R102). -/
  | hdrline2
  /-- HDRLINE3 (R103). -/
  | hdrline3
  /-- HDRLINE4 and the blank line after it (R103, R105). -/
  | hdrline4
  /-- RESLINE (R107): height first, then width. -/
  | resline (h w : Half)
  /-- MARK (R109, R161): the scanline marker for width `w`. -/
  | mark (w : Half)
  /-- LIT (R110, R164): a literal chunk; its length byte is the number of data bytes. -/
  | lit (data : List Byte)
  /-- RUN (R112): the reserved repeat-run record, never emitted. -/
  | run (n : BitVec 7) (v : Byte)
  /-- RSP (R97): the response that ends a command. -/
  | rsp (status : Status) (payload : List Byte)
  deriving DecidableEq, Repr

end Sys2Proof
end

