-- ==== Sys2Proof/WellFormed.lean ====
section
/-! DEFINITION. Which `Instr` terms are instructions: the checks the spec's encodings put on operands. -/

namespace Sys2Proof

/-- The width field of a format E descriptor: bytes 1 and 2, most significant first (R95, R98). -/
def widthField (c : List Byte) : Nat :=
  256 * (c.getD 1 0).toNat + (c.getD 2 0).toNat

/-- R98's condition for QUANT: opcode 0x01 and 25 bytes. -/
def isQuant (c : List Byte) : Bool :=
  c.head? == some Config.opQuant && c.length == 1 + 3 * Config.fpBytes

/-- R98's condition for ENCSL: opcode 0x02, at least 3 bytes, and the length the width field gives. -/
def isEncsl (c : List Byte) : Bool :=
  c.head? == some Config.opEncsl && decide (3 ≤ c.length) && c.length == 3 + 4 * widthField c

/-- R98's condition for WRITE: opcode 0x03 and 9 bytes. -/
def isWrite (c : List Byte) : Bool :=
  c.head? == some Config.opWrite && c.length == 9

/-- The checks on the operands of each instruction. -/
def Instr.wellFormed : Instr → Bool
  | .quant _ _ _ => true
  | .encsl w row => row.length == w.toNat
  | .write _ _ _ => true
  | .reservedCommand c => !isQuant c && !isEncsl c && !isWrite c
  | .hdrline1 => true
  | .hdrline2 => true
  | .hdrline3 => true
  | .hdrline4 => true
  | .resline _ _ => true
  | .mark _ => true
  | .lit data => decide (1 ≤ data.length) && decide (data.length ≤ Config.chunkMax)
  | .run _ _ => true
  | .rsp status payload => status == .ok || payload.isEmpty

end Sys2Proof
end

