-- ==== Sys2Proof/Decode.lean ====
section
/-! DEFINITION. The encodings: the total decoder of command descriptors (R98), the decoder of output records and responses
(R97, R101-R112), the encoder of both, and the reading of one opcode-table word. -/

namespace Sys2Proof

/-! ### Bytes and multi-byte fields, most significant byte first (R71 item 4) -/

/-- The number a byte sequence spells, most significant byte first. -/
def beNat (c : List Byte) : Nat :=
  c.foldl (fun n b => 256 * n + b.toNat) 0

/-- The big-endian field of `n` bytes at offset `at_` of a descriptor (R94-R96). -/
def fieldAt (c : List Byte) (at_ n : Nat) : Nat :=
  beNat ((c.drop at_).take n)

/-- The two bytes of a 16-bit operand: `v[15:8]`, `v[7:0]` (R71, R109). -/
def halfBytes (v : Half) : List Byte :=
  [v.extractLsb' 8 8, v.extractLsb' 0 8]

/-- The four bytes of a 32-bit operand, most significant first (R96). -/
def wordBytes (v : Word) : List Byte :=
  [v.extractLsb' 24 8, v.extractLsb' 16 8, v.extractLsb' 8 8, v.extractLsb' 0 8]

/-- The eight bytes of a binary64 pattern, most significant first (R94). -/
def f64Bytes (v : F64) : List Byte :=
  [v.extractLsb' 56 8, v.extractLsb' 48 8, v.extractLsb' 40 8, v.extractLsb' 32 8,
   v.extractLsb' 24 8, v.extractLsb' 16 8, v.extractLsb' 8 8, v.extractLsb' 0 8]

/-- A quantized pixel as its four adjacent bytes R, G, B, E (R95, R97, R114). -/
def quadBytes (q : Quad) : List Byte :=
  [q.r, q.g, q.b, q.e]

/-- The row of a format E descriptor: consecutive quadruples R G B E, left to right (R95). -/
def quadsOf : List Byte → List Quad
  | r :: g :: b :: e :: rest => ⟨r, g, b, e⟩ :: quadsOf rest
  | _ => []

/-! ### Decimal numerals and the resolution line (R106, R107) -/

/-- How many digits `dec n` has (R106's `k`). -/
def decLength (n : Nat) : Nat :=
  if n < 10 then 1 else if n < 100 then 2 else if n < 1000 then 3 else if n < 10000 then 4 else 5

/-- Digit `j` of `n`, counted from the right, as its ASCII byte. -/
def decDigit (n j : Nat) : Byte :=
  BitVec.ofNat 8 (0x30 + n / 10 ^ j % 10)

/-- `dec n`: ASCII decimal, most significant digit first, no leading zeros (R106). -/
def dec (n : Nat) : List Byte :=
  ((List.range (decLength n)).reverse).map (decDigit n)

/-- The resolution line `-Y <height> +X <width>` and its `LF` (R107). -/
def reslineBytes (h w : Half) : List Byte :=
  [0x2D#8, 0x59#8, 0x20#8] ++ dec h.toNat ++ [0x20#8, 0x2B#8, 0x58#8, 0x20#8] ++ dec w.toNat ++ [Config.lf]

/-- The scanline marker `02 02 W[15:8] W[7:0]` (R109, R161). -/
def markerBytes (w : Half) : List Byte :=
  [0x02#8, 0x02#8] ++ halfBytes w

/-- A literal chunk: the length byte, then the data bytes (R110). -/
def chunkBytes (data : List Byte) : List Byte :=
  BitVec.ofNat 8 data.length :: data

/-- The status code: the value of `ERR` and of response byte 0 (R37, R97, R240). -/
def Status.code : Status → Byte
  | .ok => 0x00#8
  | .pathUnwritable => 0x01#8
  | .writeFailure => 0x02#8
  | .degenerateInput => 0x03#8
  | .illegalCommand => 0x04#8

/-! ### The command decoder (R98) -/

/-- R98's `decode`: total on byte sequences; what R98 calls `invalid` is the reserved command, with its bytes (R99). -/
def decode (c : List Byte) : Instr :=
  if isQuant c then
    .quant (BitVec.ofNat 64 (fieldAt c 1 8)) (BitVec.ofNat 64 (fieldAt c 9 8)) (BitVec.ofNat 64 (fieldAt c 17 8))
  else if isEncsl c then
    .encsl (BitVec.ofNat 16 (widthField c)) (quadsOf (c.drop 3))
  else if isWrite c then
    .write (BitVec.ofNat 16 (fieldAt c 1 2)) (BitVec.ofNat 16 (fieldAt c 3 2)) (BitVec.ofNat 32 (fieldAt c 5 4))
  else
    .reservedCommand c

/-! ### The encoder -/

/-- The bytes of an instruction: a command's descriptor (R94-R96, R99), a record (R101-R112), a response (R97). -/
def encode : Instr → List Byte
  | .quant red green blue => Config.opQuant :: (f64Bytes red ++ f64Bytes green ++ f64Bytes blue)
  | .encsl w row => Config.opEncsl :: (halfBytes w ++ row.flatMap quadBytes)
  | .write w h pathtok => Config.opWrite :: (halfBytes w ++ halfBytes h ++ wordBytes pathtok)
  | .reservedCommand c => c
  | .hdrline1 => Config.headerLine1
  | .hdrline2 => Config.headerLine2
  | .hdrline3 => Config.headerLine3
  | .hdrline4 => Config.headerLine4
  | .resline h w => reslineBytes h w
  | .mark w => markerBytes w
  | .lit data => chunkBytes data
  | .run n v => [BitVec.ofNat 8 (128 + n.toNat), v]
  | .rsp status payload => status.code :: payload

/-! ### The record decoder -/

/-- Why a byte sequence is no record of the block. -/
inductive RecordError where
  /-- No bytes at all. -/
  | empty
  /-- A literal chunk whose length byte does not count the bytes after it (R110). -/
  | chunkLength
  /-- A repeat-run record that is not two bytes (R112). -/
  | runLength
  deriving DecidableEq, Repr

/-- The number of a run of ASCII digits, or none where a byte is no digit. -/
def parseDec (c : List Byte) : Nat :=
  c.foldl (fun n b => 10 * n + (b.toNat - 0x30)) 0

/-- Whether a byte is an ASCII digit. -/
def isDigit (b : Byte) : Bool :=
  decide (0x30 ≤ b.toNat) && decide (b.toNat ≤ 0x39)

/-- The resolution line read back: its two numbers, accepted only where R107 spells them with exactly these bytes. -/
def parseResline (c : List Byte) : Option Instr :=
  let h := BitVec.ofNat 16 (parseDec ((c.drop 3).takeWhile isDigit))
  let w := BitVec.ofNat 16 (parseDec ((((c.drop 3).dropWhile isDigit).drop 4).takeWhile isDigit))
  if reslineBytes h w = c then some (.resline h w) else none

/-- A response that is its status byte alone (R97). -/
def bareResponse (b : Byte) (rest : List Byte) : Except RecordError Instr :=
  if rest ≠ [] then .error .chunkLength
  else if b = 0x01#8 then .ok (.rsp .pathUnwritable [])
  else if b = 0x02#8 then .ok (.rsp .writeFailure [])
  else if b = 0x03#8 then .ok (.rsp .degenerateInput [])
  else if b = 0x04#8 then .ok (.rsp .illegalCommand [])
  else .error .chunkLength

/-- A repeat-run record: `1nnnnnnn vvvvvvvv` (R112). -/
def runRecord (b : Byte) : List Byte → Except RecordError Instr
  | [v] => .ok (.run (BitVec.ofNat 7 (b.toNat - 128)) v)
  | _ => .error .runLength

/-- Records that begin with a length byte, and the responses (R97, R110, R112). -/
def decodeCounted (b : Byte) (rest : List Byte) : Except RecordError Instr :=
  if b = 0x00#8 then .ok (.rsp .ok rest)
  else if b.toNat ≤ Config.chunkMax then
    if rest.length = b.toNat then .ok (.lit rest) else bareResponse b rest
  else runRecord b rest

/-- The five fixed lines of the header (R101 to R103, R107), which need no length byte. -/
def fixedLine (c : List Byte) : Option Instr :=
  if c = Config.headerLine1 then some .hdrline1
  else if c = Config.headerLine2 then some .hdrline2
  else if c = Config.headerLine3 then some .hdrline3
  else if c = Config.headerLine4 then some .hdrline4
  else parseResline c

/-- The records that are no header line: the marker, and what a length or status byte begins. -/
def decodeFramed : List Byte → Except RecordError Instr
  | [] => .error .empty
  | [0x02#8, 0x02#8, hi, lo] => .ok (.mark (BitVec.ofNat 16 (256 * hi.toNat + lo.toNat)))
  | b :: rest => decodeCounted b rest

/-- The record or response a framed byte sequence is (R97, R101-R112). The block itself decodes none; a consumer's view. -/
def decodeRecord (c : List Byte) : Except RecordError Instr :=
  match fixedLine c with
  | some i => .ok i
  | none => decodeFramed c

/-! ### Reading an instruction back -/

/-- Whether the instruction stands on the command port (R93, R99); the others are records and responses. -/
def onCommandPort : Instr → Bool
  | .quant _ _ _ => true
  | .encsl _ _ => true
  | .write _ _ _ => true
  | .reservedCommand _ => true
  | .hdrline1 => false
  | .hdrline2 => false
  | .hdrline3 => false
  | .hdrline4 => false
  | .resline _ _ => false
  | .mark _ => false
  | .lit _ => false
  | .run _ _ => false
  | .rsp _ _ => false

/-- What a decoder of the instruction's own port makes of its bytes. -/
def readBack (i : Instr) : Option Instr :=
  if onCommandPort i then some (decode (encode i))
  else match decodeRecord (encode i) with
    | .ok j => some j
    | .error _ => none

/-! ### Opcode-table words -/

/-- The bytes of a table word: the first byte in bits 7..0; a row of one 32-bit word (MARK, match 0x02020000) is that
word most significant byte first (R71, R109). Log entry 20. -/
def tableBytes (nbits w : Nat) : List Byte :=
  if nbits = 32 then wordBytes (BitVec.ofNat 32 w)
  else (List.range (nbits / 8)).map fun i => BitVec.ofNat 8 (w >>> (8 * i))

/-- `c` with zero bytes after it, up to `n` bytes. -/
def padTo (n : Nat) (c : List Byte) : List Byte :=
  c ++ List.replicate (n - c.length) 0x00#8

/-- The whole instruction whose first bytes are given, every later byte 0. -/
def completed (c : List Byte) : List Byte :=
  match c with
  | [] => []
  | b :: _ =>
    if b = Config.opQuant then padTo 25 c
    else if b = Config.opEncsl then padTo (3 + 4 * widthField (padTo 3 c)) c
    else if b = Config.opWrite then padTo 9 c
    else if b = 0x00#8 then c
    else if b.toNat ≤ Config.chunkMax then padTo (1 + b.toNat) c
    else padTo 2 c

/-- The instruction of a table word. The table's rows belong to two encodings whose words overlap (the command port's and
the output stream's): a word is read as the command its opcode byte names, else as the stream record it spells, else as a
reserved command. Log entry 20. -/
def decodeTableWord (nbits w : Nat) : Option Instr :=
  let c := tableBytes nbits w
  match fixedLine c with
  | some i => some i
  | none =>
    match c with
    | [0x02#8, 0x02#8, hi, lo] => some (.mark (BitVec.ofNat 16 (256 * hi.toNat + lo.toNat)))
    | [] => some (decode [])
    | b :: _ =>
      if b = 0x00#8 ∨ b = Config.opQuant ∨ b = Config.opEncsl ∨ b = Config.opWrite then some (decode (completed c))
      else match decodeRecord (completed c) with
        | .ok i => some i
        | .error _ => some (decode c)

end Sys2Proof
end

