-- ==== Sys2Proof/Machine/State.lean ====
section
/-! DEFINITION. The state: every piece of block state of R20, the external state the rules refer to (R44), and the model's
own sequencing fields. Plain data. INVENTORY.md lists every field with its rule and its reset value. -/

namespace Sys2Proof.Machine

/-- Sparse contents of an address space: (address, unit) pairs in one canonical form, addresses strictly rising
(`Memory.wf`). An address without an entry holds nothing. The unit is the space's own: a pixel (R60), a scanline buffer
entry (R68), a stream (R63). Log entry 24. -/
abbrev Memory (α : Type) := List (Nat × α)

/-- `ST`, the writer's state (R31): its five named values. -/
inductive WriterState where
  | idle
  | opened
  | headerWritten
  | rowWritten
  | closed
  deriving DecidableEq, Repr, Inhabited

/-- Which action of the running command comes next: the model's own part of the sequencer position (R29). Log entry 10. -/
inductive Position where
  /-- No command runs: the block waits for a descriptor (R90). -/
  | idle
  /-- WRITE step OPEN (R192). -/
  | opening
  /-- WRITE step HEADER, part 1: the four header lines (R194). -/
  | header1
  | header2
  | header3
  | header4
  /-- WRITE step HEADER, part 2: the resolution line (R195). -/
  | resolution
  /-- WRITE row step, part 1: quantize the row, one pixel an action (R208). -/
  | quantizing
  /-- QUANT: quantize the pixel in `PIX`, and respond (R130). -/
  | converting
  /-- Encoder step MARK (R161). -/
  | marking
  /-- Encoder step LIT: the chunk that starts at `X` of plane `P` (R164). -/
  | chunking
  /-- WRITE step CLOSE (R211). -/
  | closing
  /-- The command is complete but for its response (R97). -/
  | responding
  /-- The FAIL path of R190 after a refused write: `SinkClose` (R249). -/
  | failing
  /-- An exception is taken but for `ERR` and the response (R247 steps 2 to 4). -/
  | raising (exception : Status)
  deriving DecidableEq, Repr, Inhabited

/-- The sink's answer to a `SinkOpen` or a `MemWrite` (R65, R66). A failing write also settles what the block cannot know:
whether the byte reached the stream all the same (U6). Log entries 7 and 8. -/
inductive SinkAnswer where
  | ok
  | fail (landed : Bool)
  deriving DecidableEq, Repr

/-- A port operation of the block, with its answer where it has one (R77). Log entry 17. -/
inductive PortOp where
  | memRead (idx : Word)
  | sinkOpen (pathtok : Word) (accepted : Bool)
  | memWrite (b : Byte) (accepted : Bool)
  | sinkClose
  | respond (bytes : List Byte)
  deriving DecidableEq, Repr

/-- Why the machine stops with a fault. No rule of the spec reaches either. -/
inductive Fault where
  /-- Raised by the chunk step on an `SLB` entry nothing has written: "a read (none exists in the rules) would `fault`"
  (U10). Safe: the model stops. -/
  | slbUnwritten (index : Nat)
  /-- Raised by the chunk step on an index outside 0..65534, an entry the spec says does not exist (R28, R68). Safe. -/
  | slbOutOfRange (index : Nat)
  deriving DecidableEq, Repr

/-- Why the model gives an instruction or an action no meaning. -/
inductive Refusal where
  /-- Raised by `exec` for an instruction that has no meaning in this model. Safe. -/
  | notModelled (mnemonic : String)
  /-- Raised by the WRITE row step on a pixel the image does not hold: the spec's treatment is `refuse`, a launch premise
  (U7, R282). Safe. -/
  | imageNotPopulated (index : Nat)
  /-- Raised by RUN: "This hardware has no such record" (R112). Safe. -/
  | repeatRunReserved
  /-- Raised by a record or CLOSE that would use the sink while `HANDLE` = 0: `MemWrite` is "issued only while `HANDLE` = 1"
  (R66). No step from reset reaches it. Safe. -/
  | sinkNotOpen
  /-- Raised by LIT with no data or more than 127 bytes, which is no literal chunk (R110, R113). No step from reset
  reaches it. Safe. -/
  | chunkLength
  deriving DecidableEq, Repr

structure State where
  -- The block's own state, in R20's order.
  /-- `OP` (R21). -/
  op : Byte
  /-- `W` (R22). -/
  w : Half
  /-- `H` (R23). -/
  h : Half
  /-- `PATHTOK` (R24). -/
  pathtok : Word
  /-- `PIX.red`, `PIX.green`, `PIX.blue` (R25). -/
  pix : Pixel
  /-- `Q.R`, `Q.G`, `Q.B`, `Q.E` (R26). -/
  q : Quad
  /-- `SLB` (R28); an entry not listed is unwritten. -/
  slb : Memory Quad
  /-- `ST` (R31). -/
  st : WriterState
  /-- `Y` (R32). -/
  y : Half
  /-- `X` (R33). -/
  x : Half
  /-- `P` (R34). -/
  p : BitVec 2
  /-- `REM` (R35). -/
  rem : Half
  /-- `K` (R36). -/
  k : BitVec 7
  /-- `HP` (R36). -/
  hp : BitVec 7
  /-- `ERR` (R37). -/
  err : Status
  /-- `HANDLE` (R38). -/
  handle : Bool
  -- The model's own sequencing state.
  /-- The next action of the running command (log entry 10). -/
  seq : Position
  /-- Bytes of the running marker record already accepted (log entry 10). -/
  mp : BitVec 2
  /-- Response payload formed so far (log entry 11). -/
  payload : List Byte
  /-- How many times a free value has been drawn (log entry 6). -/
  draws : Nat
  -- External state the rules refer to (R44, R70).
  /-- `CMD`: descriptors sent and not yet accepted, next first (log entry 13). -/
  cmd : List (List Byte)
  /-- `RSP`: responses given, oldest first (log entry 13). -/
  rsp : List (List Byte)
  /-- `IMG`: the pixels populated so far, by index (R60, R61; log entry 14). -/
  img : Memory Pixel
  /-- Whether the image memory answers the reads put to it (R62, R262; log entry 25). -/
  imgAnswers : Bool
  /-- `STREAM` of each selector the sink holds one for (R63; log entry 15). -/
  streams : Memory (List Byte)
  /-- The sink's answers to come, next first (R65, R66; log entry 7). -/
  sinkAnswers : List SinkAnswer
  /-- The requested reset, if any: how many more operations the block completes before it arrives (R281; log entry 16). -/
  resetReq : Option Nat
  /-- The port operations done so far, oldest first (R77; log entry 17). -/
  trace : List PortOp
  deriving DecidableEq, Repr

/-- The machine right after reset (R45, R280): operand latches and counters 0, `ST` = `IDLE`, `ERR` = 0, `HANDLE` = 0, `SLB`
unwritten. `PIX` and `Q`, which R45 leaves unspecified, are 0 (DESIGN CHOICE, log entry 3); the external state is
empty, and the image memory answers (log entries 7, 13 to 17, 25). -/
def State.reset : State where
  op := 0x00#8
  w := 0#16
  h := 0#16
  pathtok := 0#32
  pix := ⟨0#64, 0#64, 0#64⟩
  q := ⟨0#8, 0#8, 0#8, 0#8⟩
  slb := []
  st := .idle
  y := 0#16
  x := 0#16
  p := 0#2
  rem := 0#16
  k := 0#7
  hp := 0#7
  err := .ok
  handle := false
  seq := .idle
  mp := 0#2
  payload := []
  draws := 0
  cmd := []
  rsp := []
  img := []
  imgAnswers := true
  streams := []
  sinkAnswers := []
  resetReq := none
  trace := []

end Sys2Proof.Machine
end

