-- ==== Sys2Proof/Machine/Ops.lean ====
section
/-! DEFINITION. The named operations over the address spaces and the ports: sparse memories, image read, scanline buffer,
sink, response, taking an exception, reset. Every meaning is written over these. -/

namespace Sys2Proof.Machine

/-! ### The sequencer position -/

/-- The command's next action is the one at `position` (R30). -/
def goTo (position : Position) (s : State) : State :=
  { s with seq := position }

/-! ### Sparse memories -/

/-- What address `a` holds, if anything. -/
def Memory.get? {α : Type} : Memory α → Nat → Option α
  | [], _ => none
  | (b, v) :: m, a => if a = b then some v else Memory.get? m a

/-- `m` with `v` at address `a`; the canonical form is kept. -/
def Memory.set {α : Type} : Memory α → Nat → α → Memory α
  | [], a, v => [(a, v)]
  | (b, u) :: m, a, v =>
    if a < b then (a, v) :: (b, u) :: m
    else if a = b then (a, v) :: m
    else (b, u) :: Memory.set m a v

/-- Whether every address of `m` is above `a`, and the addresses rise strictly. -/
def Memory.above {α : Type} : Nat → Memory α → Bool
  | _, [] => true
  | a, (b, _) :: m => decide (a < b) && Memory.above b m

/-- The canonical form: addresses strictly rising. -/
def Memory.wf {α : Type} : Memory α → Bool
  | [] => true
  | (b, _) :: m => Memory.above b m

/-- The stream of a selector as a byte sequence; a selector the sink holds no stream for reads as the empty sequence. -/
def State.stream (s : State) (pathtok : Word) : List Byte :=
  (Memory.get? s.streams pathtok.toNat).getD []

/-! ### The image port -/

/-- `idx = y·W + x` in 32 bits (R61). -/
def pixelIndex (w y x : Half) : Word :=
  y.zeroExtend 32 * w.zeroExtend 32 + x.zeroExtend 32

/-- `PIX <- pixel`, the answer to the read of `idx` (R25, R62). -/
def latchPixel (idx : Word) (pixel : Pixel) (s : State) : State :=
  { s with pix := pixel, trace := s.trace ++ [.memRead idx] }

/-- `MemRead(IMG, idx)` (R62): the pixel goes to `PIX`. A pixel the image does not hold has no meaning (U7). -/
def memRead (idx : Word) (s : State) : Except Refusal State :=
  match Memory.get? s.img idx.toNat with
  | none => .error (.imageNotPopulated idx.toNat)
  | some pixel => .ok (latchPixel idx pixel s)

/-! ### The scanline buffer -/

/-- `SLB[i]` (R28, R68): an unwritten entry has no value, an index past the capacity no entry. -/
def slbRead (slb : Memory Quad) (i : Nat) : Except Fault Quad :=
  if i < Config.slbCap then
    match Memory.get? slb i with
    | some entry => .ok entry
    | none => .error (.slbUnwritten i)
  else .error (.slbOutOfRange i)

/-- `SLB[i] <- e_0, SLB[i+1] <- e_1, ...`: the descriptor load of ENCSL (R92, R95). -/
def slbLoad (slb : Memory Quad) : Nat → List Quad → Memory Quad
  | _, [] => slb
  | i, entry :: row => slbLoad (Memory.set slb i entry) (i + 1) row

/-! ### The sink port -/

/-- A byte the sink accepts: `STREAM <- STREAM ++ [b]` (R66). -/
def accepted (b : Byte) (later : List SinkAnswer) (s : State) : State :=
  { s with
    streams := Memory.set s.streams s.pathtok.toNat (s.stream s.pathtok ++ [b])
    sinkAnswers := later
    trace := s.trace ++ [.memWrite b true] }

/-- A byte the sink refuses: the stream holds it or not, as the answer says (R66, U6). -/
def rejected (b : Byte) (landed : Bool) (later : List SinkAnswer) (s : State) : State :=
  { s with
    streams := if landed then Memory.set s.streams s.pathtok.toNat (s.stream s.pathtok ++ [b]) else s.streams
    sinkAnswers := later
    trace := s.trace ++ [.memWrite b false] }

/-- How far an emission came. -/
inductive Emitted where
  /-- Every byte was accepted. -/
  | done (s : State)
  /-- The sink has not answered yet: `left` bytes are still to be accepted (R262). -/
  | waiting (left : Nat) (s : State)
  /-- The sink answered `fail` to the first of the last `left` bytes. -/
  | failed (left : Nat) (s : State)

/-- `Emit` (R204): `MemWrite` of each byte in order, each answered before the next, none after the first `fail`. -/
def emit : List Byte → State → Emitted
  | [], s => .done s
  | b :: bytes, s =>
    match s.sinkAnswers with
    | [] => .waiting (bytes.length + 1) s
    | .ok :: later => emit bytes (accepted b later s)
    | .fail landed :: later => .failed (bytes.length + 1) (rejected b landed later s)

/-- `SinkOpen` answered `ok` (R65, R192): the selector's stream is now empty, `HANDLE` is 1, `ST` is `OPEN`. -/
def openSink (later : List SinkAnswer) (s : State) : State :=
  { s with
    streams := Memory.set s.streams s.pathtok.toNat []
    sinkAnswers := later
    handle := true
    st := .opened
    trace := s.trace ++ [.sinkOpen s.pathtok true] }

/-- `SinkOpen` answered `fail` (R65, R193): nothing changes but that the answer is taken. -/
def openRefused (later : List SinkAnswer) (s : State) : State :=
  { s with
    sinkAnswers := later
    trace := s.trace ++ [.sinkOpen s.pathtok false] }

/-- `SinkClose()`, then `HANDLE <- 0`, `ST <- CLOSED` (R67, R211). -/
def closeSink (s : State) : State :=
  { s with
    handle := false
    st := .closed
    trace := s.trace ++ [.sinkClose] }

/-! ### The response port and the end of a command -/

/-- The data latches and `SLB` after a command that may have used them: `PIX` and `Q` hold free values (R26), every `SLB`
entry is unwritten (R28); QUANT does not touch `SLB` (R140). Log entry 4. -/
def retire (s : State) : State :=
  { s with
    pix := Config.leftPixel s.draws
    q := Config.leftQuad s.draws
    slb := if s.op = Config.opQuant then s.slb else []
    draws := s.draws + 1 }

/-- The bytes of a response: the status code, and a payload only with status `OK` (R97). -/
def responseBytes (status : Status) (payload : List Byte) : List Byte :=
  status.code :: (if status = .ok then payload else [])

/-- Whether a command that ends with this status went past its checks, so that the data latches are no longer specified.
The other three change only what R248 and R250 list. -/
def Status.ranCommand : Status → Bool
  | .ok => true
  | .writeFailure => true
  | .pathUnwritable => false
  | .degenerateInput => false
  | .illegalCommand => false

/-- `ERR` and the response, and the block waits again (R37, R97, R247 steps 2 to 4). -/
def sendResponse (status : Status) (payload : List Byte) (s : State) : State :=
  { s with
    err := status
    seq := .idle
    payload := []
    rsp := s.rsp ++ [responseBytes status payload]
    trace := s.trace ++ [.respond (responseBytes status payload)] }

/-- `Respond(status, payload)`: the response of the current command, which ends it (00_scope section 5.3, R97). -/
def respond (status : Status) (payload : List Byte) (s : State) : State :=
  sendResponse status payload (if Status.ranCommand status then retire s else s)

/-- Taking an exception (R247): the command is abandoned. First comes the clean-up its own rule names (R248 to R250: only
`WriteFailure` has one, the guaranteed close of R249), then `ERR`, the response, and the block waits for the next
descriptor. There is no handler address, no saved register and no return (R252). -/
def raise (exception : Status) (s : State) : State :=
  goTo (if exception = .writeFailure then .failing else .raising exception) s

/-! ### Emitting a record -/

/-- The bytes still to be emitted of a record, with what to do in each case: `save` keeps the position when the sink has
not answered yet or has refused (its argument is how many bytes are left), `next` follows the last accepted byte. A refused
byte takes the FAIL path of R190: `WriteFailure` (R204, R249). -/
def emitRecord (bytes : List Byte) (save : Nat → State → State) (next : State → State) (s : State) :
    Host.Outcome State Fault Refusal :=
  if s.handle then
    match emit bytes s with
    | .done t => .next (next t)
    | .waiting left t => .next (save left t)
    | .failed left t => .next (raise .writeFailure (save left t))
  else .refused .sinkNotOpen

/-- The response payload grows (R97). Log entry 11. -/
def addPayload (bytes : List Byte) (s : State) : State :=
  { s with payload := s.payload ++ bytes }

/-- A record of the encoder: ENCSL returns it in the response payload, WRITE hands it to the sink (R160, R209). `OP` tells
which command runs (R21). -/
def emitScanlineRecord (bytes : List Byte) (save : Nat → State → State) (next : State → State) (s : State) :
    Host.Outcome State Fault Refusal :=
  if s.op = Config.opEncsl then .next (next (addPayload bytes s))
  else emitRecord bytes save next s

/-! ### Reset -/

/-- Reset, at any time (R280, R281): every piece of block state takes its reset value, no response is sent, `SinkClose` is
not issued, and the external state stays as the operations completed so far left it. The request is taken. The count of
draws goes on, so that later draws are fresh (log entries 6, 16). -/
def resetBlock (s : State) : State :=
  { State.reset with
    draws := s.draws
    cmd := s.cmd
    rsp := s.rsp
    img := s.img
    imgAnswers := s.imgAnswers
    streams := s.streams
    sinkAnswers := s.sinkAnswers
    trace := s.trace }

end Sys2Proof.Machine
end

