-- ==== Sys2Proof/Machine/Encoder.lean ====
section
/-! DEFINITION. The records of the Scanline RLE Encoder (unit RLE): MARK and LIT, and the reserved RUN (R160 to R170, R112). -/

namespace Sys2Proof.Machine

/-- The start of a plane: `X <- 0`, `REM <- W` (R162). -/
def enterPlane (s : State) : State :=
  { s with x := 0#16, rem := s.w, k := 0#7, seq := .chunking }

/-- How many marker bytes have been accepted (log entry 10). -/
def setMp (v : Nat) (s : State) : State :=
  { s with mp := BitVec.ofNat 2 v }

/-- The encoder's first plane, R (R34, R162). -/
def firstPlane (s : State) : State :=
  enterPlane { s with mp := 0#2, p := 0#2 }

/-- MARK (R109, R161): the four marker bytes, `mp` of them already accepted; then plane R (R162). -/
def execMark (w : Half) (s : State) : Host.Outcome State Fault Refusal :=
  emitScanlineRecord ((markerBytes w).drop s.mp.toNat)
    (fun left t => setMp (4 - left) t) firstPlane s

/-- A WRITE row is written (R210): `ST <- ROW_WRITTEN`. -/
def rowDone (s : State) : State :=
  { s with st := .rowWritten }

/-- The next row (R210): `Y <- Y - 1`, and its first pixel. -/
def nextRow (s : State) : State :=
  { s with y := s.y - 1#16, x := 0#16, seq := .quantizing }

/-- The end of a scanline (R166): ENCSL has only its response left; a WRITE row is written, and the next row follows, or step
CLOSE after row 0 (R210). -/
def endScanline (s : State) : State :=
  if s.op = Config.opEncsl then goTo .responding s
  else if s.y = 0#16 then goTo .closing (rowDone s)
  else nextRow (rowDone s)

/-- `X <- X + n`, `REM <- REM - n` (R165); no data byte of the chunk is left (R36). -/
def passChunk (n : Nat) (s : State) : State :=
  { s with x := s.x + BitVec.ofNat 16 n, rem := s.rem - BitVec.ofNat 16 n, k := 0#7 }

/-- The next plane, from the left edge (R34, R162). -/
def nextPlane (s : State) : State :=
  enterPlane { s with p := s.p + 1#2 }

/-- What follows a complete plane (R162, R166); `P` stays 3 after plane E (log entry 12). -/
def endPlane (s : State) : State :=
  if s.p = 3#2 then endScanline s else nextPlane s

/-- After a chunk of `n` elements (R165): the plane goes on while `REM` is not 0. -/
def advance (n : Nat) (s : State) : State :=
  if (passChunk n s).rem = 0#16 then endPlane (passChunk n s) else goTo .chunking (passChunk n s)

/-- What of a literal chunk is still to be emitted: all of it while `K` is 0, else its last `K` data bytes (R36). -/
def chunkRest (data : List Byte) (k : BitVec 7) : List Byte :=
  if k = 0#7 then chunkBytes data else data.drop (data.length - k.toNat)

/-- `K` after `left` bytes of the chunk's record are still to be accepted (R36): 0 while the length byte is one of them. -/
def setK (n left : Nat) (s : State) : State :=
  { s with k := BitVec.ofNat 7 (if left ≤ n then left else 0) }

/-- LIT (R110, R164): the length byte, then the data bytes, verbatim; `K` counts the data bytes left (R36). -/
def execLit (data : List Byte) (s : State) : Host.Outcome State Fault Refusal :=
  if 1 ≤ data.length ∧ data.length ≤ Config.chunkMax then
    emitScanlineRecord (chunkRest data s.k) (setK data.length) (advance data.length) s
  else .refused .chunkLength

/-- RUN (R112): "reserved: never emitted", "This hardware has no such record". -/
def execRun (_n : BitVec 7) (_v : Byte) (_s : State) : Host.Outcome State Fault Refusal :=
  .refused .repeatRunReserved

/-! ### The chunk the encoder emits next -/

/-- `SLB[i].p` for a plane index (00_scope section 5.3, R34). -/
def planeByte (p : BitVec 2) (entry : Quad) : Byte :=
  if p = 0#2 then entry.r else if p = 1#2 then entry.g else if p = 2#2 then entry.b else entry.e

/-- `SLB[i].p, ..., SLB[i+n-1].p`. -/
def readPlane (slb : Memory Quad) (p : BitVec 2) : Nat → Nat → Except Fault (List Byte)
  | _, 0 => .ok []
  | i, n + 1 =>
    match slbRead slb i with
    | .error f => .error f
    | .ok entry =>
      match readPlane slb p (i + 1) n with
      | .error f => .error f
      | .ok rest => .ok (planeByte p entry :: rest)

/-- `w = min(127, REM)` (R163): from `REM` alone, whatever the data. -/
def chunkLength (rem : Half) : Nat :=
  min Config.chunkMax rem.toNat

/-- The data of the chunk that starts at `X` of plane `P` (R164). -/
def chunkData (s : State) : Except Fault (List Byte) :=
  readPlane s.slb s.p s.x.toNat (chunkLength s.rem)

end Sys2Proof.Machine
end

