-- ==== Sys2Proof/Machine/Header.lean ====
section
/-! DEFINITION. The records of WRITE step HEADER: the four header lines and the resolution line (R194 to R196). `HP` counts
the bytes accepted since byte 0 of the header block (R36). -/

namespace Sys2Proof.Machine

/-- `HP <- v` (R36). -/
def setHp (v : Nat) (s : State) : State :=
  { s with hp := BitVec.ofNat 7 v }

/-- One line of step HEADER, which starts at offset `start` of the stream: its bytes from `HP` on go to the sink; `next`
follows its last byte. -/
def headerRecord (line : List Byte) (start : Nat) (next : State → State) (s : State) : Host.Outcome State Fault Refusal :=
  emitRecord (line.drop (s.hp.toNat - start))
    (fun left t => setHp (start + line.length - left) t)
    (fun t => next (setHp (start + line.length) t)) s

/-- HDRLINE1 (R101): 11 bytes from offset 0. -/
def execHdrline1 (s : State) : Host.Outcome State Fault Refusal :=
  headerRecord Config.headerLine1 0 (goTo .header2) s

/-- HDRLINE2 (R102): 31 bytes from offset 11. -/
def execHdrline2 (s : State) : Host.Outcome State Fault Refusal :=
  headerRecord Config.headerLine2 11 (goTo .header3) s

/-- HDRLINE3 (R103): 23 bytes from offset 42. -/
def execHdrline3 (s : State) : Host.Outcome State Fault Refusal :=
  headerRecord Config.headerLine3 42 (goTo .header4) s

/-- HDRLINE4 (R103, R105): 36 bytes from offset 65, the blank line's `LF` with it. -/
def execHdrline4 (s : State) : Host.Outcome State Fault Refusal :=
  headerRecord Config.headerLine4 65 (goTo .resolution) s

/-- The end of step HEADER and the row loop's entry: `ST <- HEADER_WRITTEN` (R196), `Y <- H - 1` (R205), the row's first
pixel next (R208). -/
def enterRows (s : State) : State :=
  { s with st := .headerWritten, y := s.h - 1#16, x := 0#16, seq := .quantizing }

/-- RESLINE (R107, R195): 10 to 18 bytes from offset 101. -/
def execResline (h w : Half) (s : State) : Host.Outcome State Fault Refusal :=
  headerRecord (reslineBytes h w) 101 enterRows s

end Sys2Proof.Machine
end

