-- ==== Sys2Proof/Machine/Operands.lean ====
section
/-! DEFINITION. The operand forms of the quantizer: what a binary64 bit pattern denotes (00_scope section 5.2, R142, R144),
as exact integers. The unit of every value here is 2^-1074, the smallest positive binary64 value, of which every finite
datum is a whole multiple; no rounding happens anywhere (R138). -/

namespace Sys2Proof.Machine

/-- The sign bit. -/
def signBit (f : F64) : Bool :=
  f.getLsbD 63

/-- `E11`, the biased exponent field (R144). -/
def expField (f : F64) : Nat :=
  (f.extractLsb' 52 11).toNat

/-- `F52`, the fraction field (R144). -/
def fracField (f : F64) : Nat :=
  (f.extractLsb' 0 52).toNat

/-- `sig` (R144): the fraction with the hidden bit of a normal number; a subnormal or zero has none. -/
def significand (f : F64) : Nat :=
  if expField f = 0 then fracField f else 2 ^ 52 + fracField f

/-- `X` (R144): the exponent field, 1 for a subnormal or zero. -/
def scaleExp (f : F64) : Nat :=
  if expField f = 0 then 1 else expField f

/-- `|val f|` in units of 2^-1074, for a finite datum: `sig · 2^(X-1)`, a shift to the left. -/
def magnitude (f : F64) : Nat :=
  significand f <<< (scaleExp f - 1)

/-- A valid component (R130, R141, R142): finite and `val` at least 0; `-0` has the value 0 and is valid, a negative
subnormal is not. -/
def validComponent (f : F64) : Bool :=
  decide (expField f ≠ 2047) && (!signBit f || decide (magnitude f = 0))

/-- A valid pixel: three valid components (R141). -/
def validPixel (pixel : Pixel) : Bool :=
  validComponent pixel.red && validComponent pixel.green && validComponent pixel.blue

end Sys2Proof.Machine
end

