-- ==== Sys2Proof/Machine/Quantizer.lean ====
section
/-! DEFINITION. The RGBE Quantizer (unit QNT): the function of R130 in exact arithmetic, its bit-level form R144, the step
that draws the four bytes of an invalid pixel (R141), and the action of the command QUANT. -/

namespace Sys2Proof.Machine

/-- `e + 1074` where `(m, e) = frexp(d)` (R133) and `d` is given in units of 2^-1074: `d` lies in [2^(e-1), 2^e). -/
def frexpExp (d : Nat) : Nat :=
  Nat.log2 d + 1

/-- `floor(c · s)` with `s = m·256/d = 2^(8-e)` (R134, R135), `c` and `d` in units of 2^-1074: `c·256 / 2^(e+1074)`,
rounded down, a shift to the right. -/
def mantissaByte (d c : Nat) : Byte :=
  BitVec.ofNat 8 ((c * Config.scale) >>> frexpExp d)

/-- `(e + 128) mod 256`: it wraps and never saturates (R137, C1). -/
def exponentByte (d : Nat) : Byte :=
  BitVec.ofInt 8 ((frexpExp d : Int) - 1074 + Config.bias)

/-- The quantizer on a valid pixel (R130): maximum (R132), floor test (R131), decomposition, mantissa and exponent bytes. -/
def quantizeValid (pixel : Pixel) : Quad :=
  let red := magnitude pixel.red
  let green := magnitude pixel.green
  let blue := magnitude pixel.blue
  let d := max red (max green blue)
  if d ≤ magnitude Config.floorBits then ⟨0#8, 0#8, 0#8, 0#8⟩
  else ⟨mantissaByte d red, mantissaByte d green, mantissaByte d blue, exponentByte d⟩

/-- `Q <- quad` (R26). -/
def setQ (quad : Quad) (s : State) : State :=
  { s with q := quad }

/-- `Q` takes four drawn bytes (R141). Log entries 5, 6. -/
def drawQ (s : State) : State :=
  { s with q := Config.drawnQuad s.draws, draws := s.draws + 1 }

/-- One quantization: `Q` from `PIX`. An invalid pixel gives four drawn bytes and nothing else (R141). -/
def quantizeStep (s : State) : State :=
  if validPixel s.pix then setQ (quantizeValid s.pix) s else drawQ s

/-- Acceptance of QUANT (R92, R94): `OP`, `PIX`. -/
def acceptQuant (red green blue : F64) (s : State) : State :=
  { s with op := Config.opQuant, pix := ⟨red, green, blue⟩ }

/-- QUANT's response (R97, R130): `00 Q.R Q.G Q.B Q.E`. -/
def respondQ (s : State) : State :=
  respond .ok (quadBytes s.q) s

/-- QUANT accepted (R92): its quantization is next. -/
def startQuant (red green blue : F64) (s : State) : State :=
  goTo .converting (acceptQuant red green blue s)

/-- QUANT's one action (R130): quantize, respond `00 Q.R Q.G Q.B Q.E`. No exception, ever. -/
def stepConvert (s : State) : Host.Outcome State Fault Refusal :=
  .next (respondQ (quantizeStep s))

/-! ### The bit-level form (R144) -/

/-- A mantissa byte by R144: `sig(c) >> (45 + E11(dmax) - X(c))`. -/
def bitMantissaByte (dmax c : F64) : Byte :=
  BitVec.ofNat 8 (significand c >>> (45 + expField dmax - scaleExp c))

/-- The component with the largest value; for valid data the order of the values is the unsigned order of the 63 low bits
(R144). -/
def largest (pixel : Pixel) : F64 :=
  let low (f : F64) : Nat := (f.extractLsb' 0 63).toNat
  let m := if low pixel.green < low pixel.blue then pixel.blue else pixel.green
  if low pixel.red < low m then m else pixel.red

/-- R144, the integer-only statement of R130 for valid pixels. -/
def quantizeBits (pixel : Pixel) : Quad :=
  let dmax := largest pixel
  if (dmax.extractLsb' 0 63).toNat ≤ (Config.floorBits.extractLsb' 0 63).toNat then ⟨0#8, 0#8, 0#8, 0#8⟩
  else ⟨bitMantissaByte dmax pixel.red, bitMantissaByte dmax pixel.green, bitMantissaByte dmax pixel.blue,
    BitVec.ofInt 8 ((expField dmax : Int) - 894)⟩

end Sys2Proof.Machine
end

