-- ==== Sys2Proof/Machine/Response.lean ====
section
/-! DEFINITION. The response record RSP (R97) and the acceptance of a reserved descriptor (R99, R244). -/

namespace Sys2Proof.Machine

/-- RSP (R97): the response of the running command, which ends it. -/
def execRsp (status : Status) (payload : List Byte) (s : State) : Host.Outcome State Fault Refusal :=
  .next (respond status payload s)

/-- Acceptance of a reserved descriptor (R92): `OP` takes its first byte if it has one. -/
def acceptReserved (descriptor : List Byte) (s : State) : State :=
  { s with op := descriptor.head?.getD s.op }

/-- A descriptor that decodes to none of the three commands (R92, R99) raises `IllegalCommand` (R244, R248). -/
def startReserved (descriptor : List Byte) (s : State) : State :=
  raise .illegalCommand (acceptReserved descriptor s)

end Sys2Proof.Machine
end

