-- ==== Sys2Proof/Machine/Sequencer.lean ====
section
/-! DEFINITION. The sequencer: the next action of a running command (R29, R30), and running a command until it ends or
waits for an answer. -/

namespace Sys2Proof.Machine

/-- Step HEADER follows a successful OPEN, from its first byte (R192, R194). -/
def startHeader (s : State) : State :=
  { s with hp := 0#7, seq := .header1 }

/-- `SLB[X] <- Q`, `X <- X + 1` (R208, R33). -/
def storePixel (s : State) : State :=
  { s with slb := Memory.set s.slb s.x.toNat s.q, x := s.x + 1#16 }

/-- The encoder's first step, MARK, from its first byte (R161, R209). -/
def startScanline (s : State) : State :=
  { s with mp := 0#2, seq := .marking }

/-- WRITE step OPEN (R192, R193): `ok` opens the sink and the header follows from its first byte, `fail` raises
`PathUnwritable`; without an answer the block waits. -/
def stepOpen (s : State) : Host.Outcome State Fault Refusal :=
  match s.sinkAnswers with
  | [] => .next s
  | .ok :: later => .next (startHeader (openSink later s))
  | .fail _ :: later => .next (raise .pathUnwritable (openRefused later s))

/-- WRITE row step, part 1 (R208): `PIX <- MemRead(IMG, Y·W + X)`, `Q <- quantize(PIX)`, `SLB[X] <- Q` for one pixel; after
the last pixel of the row the marker follows (R206, R209). While the image memory does not answer, the block waits (U7b). -/
def stepQuantize (s : State) : Host.Outcome State Fault Refusal :=
  if s.x.toNat < s.w.toNat then
    if s.imgAnswers then
      match memRead (pixelIndex s.w s.y s.x) s with
      | .error r => .refused r
      | .ok t => .next (storePixel (quantizeStep t))
    else .next s
  else .next (startScanline s)

/-- WRITE step CLOSE (R211), which is issued only with an open sink (R67). -/
def stepClose (s : State) : Host.Outcome State Fault Refusal :=
  if s.handle then .next (goTo .responding (closeSink s)) else .refused .sinkNotOpen

/-- The FAIL path (R190, R249): the guaranteed close, then `WriteFailure`'s response. -/
def stepFail (s : State) : Host.Outcome State Fault Refusal :=
  .next (goTo (.raising .writeFailure) (closeSink s))

/-- One action of the running command. A record's action is the meaning of that record's instruction. -/
def tick (s : State) : Host.Outcome State Fault Refusal :=
  match s.seq with
  | .idle => .next s
  | .opening => stepOpen s
  | .header1 => execHdrline1 s
  | .header2 => execHdrline2 s
  | .header3 => execHdrline3 s
  | .header4 => execHdrline4 s
  | .resolution => execResline s.h s.w s
  | .quantizing => stepQuantize s
  | .converting => stepConvert s
  | .marking => execMark s.w s
  | .chunking =>
    match chunkData s with
    | .error f => .fault f
    | .ok data => execLit data s
  | .closing => stepClose s
  | .responding => execRsp .ok s.payload s
  | .failing => stepFail s
  | .raising exception => execRsp exception [] s

/-- Whether the next action can do nothing until the sink or the image memory answers (R262). -/
def blocked (s : State) : Bool :=
  match s.seq with
  | .opening => s.sinkAnswers.isEmpty
  | .header1 => s.sinkAnswers.isEmpty
  | .header2 => s.sinkAnswers.isEmpty
  | .header3 => s.sinkAnswers.isEmpty
  | .header4 => s.sinkAnswers.isEmpty
  | .resolution => s.sinkAnswers.isEmpty
  | .marking => s.op != Config.opEncsl && s.sinkAnswers.isEmpty
  | .chunking => s.op != Config.opEncsl && s.sinkAnswers.isEmpty
  | .quantizing => decide (s.x.toNat < s.w.toNat) && !s.imgAnswers
  | .idle => false
  | .converting => false
  | .closing => false
  | .responding => false
  | .failing => false
  | .raising _ => false

/-- Runs the command's actions, at most `fuel` of them, until it has responded or waits for an answer. -/
def runCommand : Nat → State → Host.Outcome State Fault Refusal
  | 0, s => .next s
  | fuel + 1, s =>
    if s.seq = .idle ∨ blocked s then .next s
    else match tick s with
      | .next t => runCommand fuel t
      | .fault f => .fault f
      | .refused r => .refused r

/-- How many actions a scanline of width `w` takes: the marker and four planes of `ceil(w/127)` chunks (R160, R165). -/
def scanlineActions (w : Nat) : Nat :=
  1 + 4 * ((w + 126) / 127)

/-- How many actions an ENCSL takes: its scanline and the response, or `DegenerateInput`'s response alone. -/
def encslActions (w : Nat) : Nat :=
  scanlineActions w + 1

/-- How many actions a WRITE takes: OPEN, five header records, `h` rows of `w` pixels, the turn to the marker and a
scanline each, CLOSE, the response (R190, R221). A command that fails takes no more: what is left of it is replaced by at most
two actions, `SinkClose` and the response (R249). -/
def writeActions (w h : Nat) : Nat :=
  6 + h * (w + 1 + scanlineActions w) + 2

end Sys2Proof.Machine
end

