-- ==== Sys2Proof/Machine/Commands.lean ====
section
/-! DEFINITION. The commands: what accepting one does (R92), and its execution, which accepts it and runs its actions (R90).
`atomicStep` does one operation of the block at a time; it is the step while a reset is on its way (R281). -/

namespace Sys2Proof.Machine

/-! ### Acceptance -/

/-- Acceptance of ENCSL (R92, R95): `OP`, `W`, `SLB[0..W-1]`; no response byte is formed yet. -/
def acceptEncsl (w : Half) (row : List Quad) (s : State) : State :=
  { s with op := Config.opEncsl, w := w, slb := slbLoad s.slb 0 row, payload := [] }

/-- Acceptance of WRITE (R92, R96): `OP`, `W`, `H`, `PATHTOK`; the response has no payload. -/
def acceptWrite (w h : Half) (pathtok : Word) (s : State) : State :=
  { s with op := Config.opWrite, w := w, h := h, pathtok := pathtok, payload := [] }

/-- ENCSL accepted: `DegenerateInput` for width 0 (R171), else MARK is next (R161). -/
def startEncsl (w : Half) (row : List Quad) (s : State) : State :=
  if w = 0#16 then raise .degenerateInput (acceptEncsl w row s) else startScanline (acceptEncsl w row s)

/-- WRITE accepted: `DegenerateInput` before any port operation for `W` = 0 or `H` = 0 (R191), else OPEN is next (R192). -/
def startWrite (w h : Half) (pathtok : Word) (s : State) : State :=
  if w = 0#16 ∨ h = 0#16 then raise .degenerateInput (acceptWrite w h pathtok s)
  else goTo .opening (acceptWrite w h pathtok s)

/-- A command accepted: its latches are written and its first action is next. Records are not accepted (R90). -/
def accept (i : Instr) (s : State) : State :=
  match i with
  | .quant red green blue => startQuant red green blue s
  | .encsl w row => startEncsl w row s
  | .write w h pathtok => startWrite w h pathtok s
  | .reservedCommand descriptor => startReserved descriptor s
  | .hdrline1 => s
  | .hdrline2 => s
  | .hdrline3 => s
  | .hdrline4 => s
  | .resline _ _ => s
  | .mark _ => s
  | .lit _ => s
  | .run _ _ => s
  | .rsp _ _ => s

/-! ### Execution -/

/-- QUANT (R92, R130): `OP` and `PIX` from the descriptor, then its one action. -/
def execQuant (red green blue : F64) (s : State) : Host.Outcome State Fault Refusal :=
  runCommand 1 (startQuant red green blue s)

/-- ENCSL (R160): MARK, the chunks of the four planes, and the response, or `DegenerateInput` (R171). -/
def execEncsl (w : Half) (row : List Quad) (s : State) : Host.Outcome State Fault Refusal :=
  runCommand (encslActions w.toNat) (startEncsl w row s)

/-- WRITE (R190): OPEN, HEADER, the rows, CLOSE and the response, as far as the sink's answers go (log entries 7, 9), or an
exception. -/
def execWrite (w h : Half) (pathtok : Word) (s : State) : Host.Outcome State Fault Refusal :=
  runCommand (writeActions w.toNat h.toNat) (startWrite w h pathtok s)

/-- A reserved descriptor: `IllegalCommand` (R99, R244, R248). -/
def execReservedCommand (descriptor : List Byte) (s : State) : Host.Outcome State Fault Refusal :=
  runCommand 1 (startReserved descriptor s)

/-! ### One operation at a time -/

/-- `s` with no more than the next answer of the sink given so far. -/
def oneAnswer (s : State) : State :=
  { s with sinkAnswers := s.sinkAnswers.take 1 }

/-- `s` with further answers of the sink to come. -/
def moreAnswers (later : List SinkAnswer) (s : State) : State :=
  { s with sinkAnswers := s.sinkAnswers ++ later }

/-- `f` of the next state, where there is one. -/
def onNext (f : State → State) : Host.Outcome State Fault Refusal → Host.Outcome State Fault Refusal
  | .next t => .next (f t)
  | .fault f => .fault f
  | .refused r => .refused r

/-- One operation of the block: accepting a descriptor, or one action of the running command with at most one operation of
the sink in it. A command's execution is these one after another (R77, R90). -/
def atomicStep (s : State) : Host.Outcome State Fault Refusal :=
  if s.seq = .idle then
    match s.cmd with
    | [] => .next s
    | descriptor :: later => .next (accept (decode descriptor) { s with cmd := later })
  else onNext (moreAnswers (s.sinkAnswers.drop 1)) (tick (oneAnswer s))

/-- The reset arrives after `n` more operations. -/
def resetIn (n : Nat) (s : State) : State :=
  { s with resetReq := some n }

end Sys2Proof.Machine
end

