-- ==== Sys2Proof/Machine/Dispatch.lean ====
section
/-! DEFINITION. One arm per instruction. -/

namespace Sys2Proof.Machine

def exec (i : Instr) (s : State) : Host.Outcome State Fault Refusal :=
  match i with
  | .quant red green blue => Sys2Proof.Machine.execQuant red green blue s
  | .encsl w row => Sys2Proof.Machine.execEncsl w row s
  | .write w h pathtok => Sys2Proof.Machine.execWrite w h pathtok s
  | .reservedCommand descriptor => Sys2Proof.Machine.execReservedCommand descriptor s
  | .hdrline1 => Sys2Proof.Machine.execHdrline1 s
  | .hdrline2 => Sys2Proof.Machine.execHdrline2 s
  | .hdrline3 => Sys2Proof.Machine.execHdrline3 s
  | .hdrline4 => Sys2Proof.Machine.execHdrline4 s
  | .resline h w => Sys2Proof.Machine.execResline h w s
  | .mark w => Sys2Proof.Machine.execMark w s
  | .lit data => Sys2Proof.Machine.execLit data s
  | .run n v => Sys2Proof.Machine.execRun n v s
  | .rsp status payload => Sys2Proof.Machine.execRsp status payload s

end Sys2Proof.Machine
end

