-- ==== Sys2Proof/Machine/Fetch.lean ====
section
/-! DEFINITION. Where an instruction stands before a step runs it: a command on the command port, a record at the
sequencer's position. `placeInstr` puts it there (log entry 20). -/

namespace Sys2Proof.Machine

/-- A descriptor sent to a block that waits for one (R90). -/
def placeCommand (descriptor : List Byte) (s : State) : State :=
  { s with resetReq := none, seq := .idle, cmd := descriptor :: s.cmd }

/-- A header record about to be emitted: WRITE with an open sink, `HP` at the record's first byte (R194). -/
def placeHeader (position : Position) (offset : BitVec 7) (s : State) : State :=
  { s with resetReq := none, op := Config.opWrite, handle := true, st := .opened, hp := offset, seq := position }

/-- An encoder record about to be emitted by ENCSL, whose bytes go to the response payload and need no sink (R160). -/
def placeScanline (position : Position) (width : Half) (s : State) : State :=
  { s with resetReq := none, op := Config.opEncsl, w := width, seq := position }

/-- `s` with `i` where the next step runs it. No position of the sequencer holds RUN (R112): there nothing is placed. -/
def placeInstr (i : Instr) (s : State) : State :=
  match i with
  | .quant _ _ _ => placeCommand (encode i) s
  | .encsl _ _ => placeCommand (encode i) s
  | .write _ _ _ => placeCommand (encode i) s
  | .reservedCommand descriptor => placeCommand descriptor s
  | .hdrline1 => placeHeader .header1 0#7 s
  | .hdrline2 => placeHeader .header2 11#7 s
  | .hdrline3 => placeHeader .header3 42#7 s
  | .hdrline4 => placeHeader .header4 65#7 s
  | .resline h w => placeHeader .resolution 101#7 { s with h := h, w := w }
  | .mark w => { placeScanline .marking w s with mp := 0#2 }
  | .lit data =>
    { placeScanline .chunking (BitVec.ofNat 16 data.length) s with
      p := 0#2
      x := 0#16
      rem := BitVec.ofNat 16 data.length
      k := 0#7
      slb := slbLoad s.slb 0 (data.map fun b => ⟨b, 0#8, 0#8, 0#8⟩) }
  | .run _ _ => s
  | .rsp _ payload => { s with resetReq := none, payload := payload, seq := .responding }

end Sys2Proof.Machine
end

