-- ==== Sys2Proof/Machine/Step.lean ====
section
/-! DEFINITION. One step of the machine, and the placing of an opcode-table word where a step fetches. -/

namespace Sys2Proof.Machine

/-- One step. Where no reset is requested, a waiting block accepts the next descriptor, decodes it and executes the command
(R90, R92), or goes on waiting where there is none (R262), and a block in the middle of a command does that command's next
action. A requested reset arrives once the operations before it are completed, wherever in a command that is (R281): until
then a step is one operation. -/
def step (s : State) : Host.Outcome State Fault Refusal :=
  match s.resetReq with
  | some 0 => .next (resetBlock s)
  | some (n + 1) => onNext (resetIn n) (atomicStep s)
  | none =>
    if s.seq = .idle then
      match s.cmd with
      | [] => .next s
      | descriptor :: later => exec (decode descriptor) { s with cmd := later }
    else tick s

/-- `s` with the instruction of an opcode-table word where the next step runs it. -/
def State.withFetchWord (s : State) (nbits w : Nat) : State :=
  match decodeTableWord nbits w with
  | some i => placeInstr i s
  | none => s

end Sys2Proof.Machine
end

