-- ==== Sys2Proof/Machine/Flags.lean ====
section
/-! DEFINITION. The status outputs. The block has no condition codes and no floating-point flags (R40); what software can
sample is the word `STATUS` (R39). -/

namespace Sys2Proof.Machine

/-- The 3-bit encoding of `ST` (R31). -/
def WriterState.code : WriterState → BitVec 3
  | .idle => 0#3
  | .opened => 1#3
  | .headerWritten => 2#3
  | .rowWritten => 3#3
  | .closed => 4#3

/-- The 3-bit encoding of `ERR` (R37). -/
def errCode : Status → BitVec 3
  | .ok => 0#3
  | .pathUnwritable => 1#3
  | .writeFailure => 2#3
  | .degenerateInput => 3#3
  | .illegalCommand => 4#3

/-- `STATUS` (R39): bits 2..0 `ST`, bits 5..3 `ERR`, bit 6 `HANDLE`, bit 7 always 0. -/
def State.statusWord (s : State) : Byte :=
  0#1 ++ BitVec.ofBool s.handle ++ errCode s.err ++ WriterState.code s.st

end Sys2Proof.Machine
end

