-- ==== Sys2Proof/Machine/Functions.lean ====
section
/-! DEFINITION. The spec's functions from inputs to byte sequences: `encodeScanline` (R160) and `bytes(W, H, IMG)` (R214), with
the order of the port operations of a WRITE (R77, R83), and what a consumer reads from a quantized pixel (R114). No meaning is written with them: claims compare the machine to them. -/

namespace Sys2Proof.Machine

/-! ### The encoder as a function (R160) -/

/-- The chunks of a plane, at most `fuel` of them: 127 elements each, the last one what remains (R163 to R165). -/
def planeChunks : Nat → List Byte → List (List Byte)
  | 0, _ => []
  | fuel + 1, plane =>
    if plane.isEmpty then []
    else plane.take Config.chunkMax :: planeChunks fuel (plane.drop Config.chunkMax)

/-- A plane record: its chunks in order, each a length byte and its data (R111, R164). -/
def planeRecord (plane : List Byte) : List Byte :=
  (planeChunks plane.length plane).flatMap chunkBytes

/-- Plane `p` of a row: one byte of every pixel, left to right (R162). -/
def planeOf (p : BitVec 2) (row : List Quad) : List Byte :=
  row.map (planeByte p)

/-- `encodeScanline(W, row)`: the marker, then the planes R, G, B, E (R108, R160). -/
def encodeScanline (w : Half) (row : List Quad) : List Byte :=
  markerBytes w ++ planeRecord (planeOf 0#2 row) ++ planeRecord (planeOf 1#2 row) ++ planeRecord (planeOf 2#2 row)
    ++ planeRecord (planeOf 3#2 row)

/-! ### The meaning of a quantized pixel (R114) -/

/-- The component a consumer reads from a mantissa byte and the exponent byte: `(byte/256)·2^(E-128)`, but 0 when `E` = 0,
whatever the mantissa byte (R114; R139: a quadruple whose exponent wrapped to 0 "reads as black"). -/
def decoded (mantissa exponent : Byte) : ℚ :=
  if exponent = 0x00#8 then 0 else (mantissa.toNat : ℚ) / 256 * 2 ^ ((exponent.toNat : ℤ) - 128)

/-- The pixel a consumer reads from a quadruple: red, green, blue; "exactly (0,0,0) when E=0" (R114). -/
def decodedPixel (quad : Quad) : ℚ × ℚ × ℚ :=
  (decoded quad.r quad.e, decoded quad.g quad.e, decoded quad.b quad.e)

/-! ### The file as a function (R214) -/

/-- The pixels of image row `y`, left to right (R61); `default` where the image holds none. -/
def imageRow (img : Memory Pixel) (w y : Nat) : List Pixel :=
  (List.range w).map fun x => (Memory.get? img (y * w + x)).getD default

/-- The quantized row `y` of an image all of whose pixels are valid. -/
def quantizedRow (img : Memory Pixel) (w : Half) (y : Nat) : List Quad :=
  (imageRow img w.toNat y).map quantizeValid

/-- The row indices in the order they are written: `h - 1` down to 0 (R207). -/
def rowOrder (h : Nat) : List Nat :=
  (List.range h).reverse

/-- The header block and the resolution line (R194, R195). -/
def headerBytes (w h : Half) : List Byte :=
  Config.hdrRom ++ reslineBytes h w

/-- The file of an image whose quantized row `y` is `rows y`: header block, resolution line, then the scanlines of rows
`h - 1` down to 0 (R100, R207). -/
def fileOf (rows : Nat → List Quad) (w h : Half) : List Byte :=
  headerBytes w h ++ (rowOrder h.toNat).flatMap fun y => encodeScanline w (rows y)

/-- `bytes(W, H, IMG)` of R214, for an image all of whose pixels are valid. -/
def fileBytes (img : Memory Pixel) (w h : Half) : List Byte :=
  fileOf (quantizedRow img w) w h

/-- Every byte of a sequence written and accepted. -/
def acceptedWrites (bytes : List Byte) : List PortOp :=
  bytes.map fun b => .memWrite b true

/-- The image reads of row `y`, left to right (R83, R208). -/
def rowReads (w : Half) (y : Nat) : List PortOp :=
  (List.range w.toNat).map fun x => .memRead (BitVec.ofNat 32 (y * w.toNat + x))

/-- The port operations of the header and of the row steps: every read of a row before its first byte, every byte of a row
before the next row's first read (R77, R83). -/
def emissionOps (rows : Nat → List Quad) (w h : Half) : List PortOp :=
  acceptedWrites (headerBytes w h)
    ++ (rowOrder h.toNat).flatMap fun y => rowReads w y ++ acceptedWrites (encodeScanline w (rows y))

/-- What of a sequence of port operations comes before its write number `n`, counted from 0: a command whose write `n` fails
has done exactly this before it (R83, R251). -/
def beforeWrite : Nat → List PortOp → List PortOp
  | _, [] => []
  | 0, .memWrite _ _ :: _ => []
  | n + 1, .memWrite b ok :: ops => .memWrite b ok :: beforeWrite n ops
  | n, op :: ops => op :: beforeWrite n ops

end Sys2Proof.Machine
end

