-- ==== Sys2Proof/Safety.lean ====
section
/-! DEFINITION. What counts as a good state and a good environment, in the terms the claims use. -/

namespace Sys2Proof.Machine

/-! ### The environment's premises (R282) -/

/-- `IMG` holds every pixel a WRITE of these dimensions reads (R60, R282 item 1). -/
def imageComplete (img : Memory Pixel) (w h : Half) : Prop :=
  ∀ i, i < w.toNat * h.toNat → (Memory.get? img i).isSome

/-- Every pixel of the image is valid (R258, R282 item 2). -/
def imageValid (img : Memory Pixel) (w h : Half) : Prop :=
  ∀ i pixel, i < w.toNat * h.toNat → Memory.get? img i = some pixel → validPixel pixel

/-! ### What an accepted emission leaves (R66, R204) -/

/-- `s` after the sink has accepted every byte of `bytes`, with the answers `later` still to come: the selected stream has
grown by exactly these bytes. -/
def wrote (bytes : List Byte) (later : List SinkAnswer) (s : State) : State :=
  { s with
    streams := if bytes.isEmpty then s.streams
      else Memory.set s.streams s.pathtok.toNat (s.stream s.pathtok ++ bytes)
    sinkAnswers := later
    trace := s.trace ++ acceptedWrites bytes }

/-- The sink's next answers are `n` times `ok`, and then `later`. -/
def answersOk (s : State) (n : Nat) (later : List SinkAnswer) : Prop :=
  s.sinkAnswers = List.replicate n .ok ++ later

/-- The sink accepts the next `n` bytes and refuses the one after them. -/
def answersFailAt (s : State) (n : Nat) (landed : Bool) (later : List SinkAnswer) : Prop :=
  s.sinkAnswers = List.replicate n .ok ++ .fail landed :: later

/-! ### The value of a datum, as exact rationals (00_scope section 5.2) -/

/-- `val f` for a valid datum. -/
def val (f : F64) : ℚ :=
  (magnitude f : ℚ) / 2 ^ 1074

/-- `d = max(red, green, blue)` (R132). -/
def pixelMax (pixel : Pixel) : ℚ :=
  max (val pixel.red) (max (val pixel.green) (val pixel.blue))

/-- Above the floor: the pixel is not quantized to black (R131). -/
def aboveFloor (pixel : Pixel) : Prop :=
  val Config.floorBits < pixelMax pixel

/-- The exponent `e` of `frexp(d)`: the integer with `d = m·2^e` and `m` in [0.5, 1) (R133). -/
def isFrexpExp (d : ℚ) (e : ℤ) : Prop :=
  (1 / 2 : ℚ) * 2 ^ e ≤ d ∧ d < 2 ^ e

/-! ### The rows of an image (R208, R214) -/

/-- `rows y` is a quantization of image row `y` for every row: as long as the row, each valid pixel quantized by R130; the
bytes of an invalid pixel are whatever was drawn (R141, R214's last sentence). -/
def quantizesImage (img : Memory Pixel) (w h : Half) (rows : Nat → List Quad) : Prop :=
  ∀ y, y < h.toNat → (rows y).length = w.toNat ∧
    ∀ x pixel, x < w.toNat → Memory.get? img (y * w.toNat + x) = some pixel → validPixel pixel = true →
      (rows y)[x]? = some (quantizeValid pixel)

/-! ### Records at the sink -/

/-- The bytes a record that goes to the sink has still to emit in state `s`: from `HP` on for a header line (R36), all but
the `mp` accepted ones of a marker, what `K` says of a literal chunk (R36). Other instructions emit no record. -/
def recordRest (i : Instr) (s : State) : List Byte :=
  match i with
  | .hdrline1 => Config.headerLine1.drop s.hp.toNat
  | .hdrline2 => Config.headerLine2.drop (s.hp.toNat - 11)
  | .hdrline3 => Config.headerLine3.drop (s.hp.toNat - 42)
  | .hdrline4 => Config.headerLine4.drop (s.hp.toNat - 65)
  | .resline h w => (reslineBytes h w).drop (s.hp.toNat - 101)
  | .mark w => (markerBytes w).drop s.mp.toNat
  | .lit data => chunkRest data s.k
  | .quant _ _ _ => []
  | .encsl _ _ => []
  | .write _ _ _ => []
  | .reservedCommand _ => []
  | .run _ _ => []
  | .rsp _ _ => []

/-- `HP` and `K` stand inside the record (R36): at or after its first byte and before its last one is accepted. -/
def recordPlace (i : Instr) (s : State) : Prop :=
  match i with
  | .hdrline1 => s.hp.toNat < 11
  | .hdrline2 => 11 ≤ s.hp.toNat ∧ s.hp.toNat < 42
  | .hdrline3 => 42 ≤ s.hp.toNat ∧ s.hp.toNat < 65
  | .hdrline4 => 65 ≤ s.hp.toNat ∧ s.hp.toNat < 101
  | .resline h w => 101 ≤ s.hp.toNat ∧ s.hp.toNat < 101 + (reslineBytes h w).length
  | .lit data => s.k.toNat ≤ data.length
  | .mark _ => True
  | .quant _ _ _ => False
  | .encsl _ _ => False
  | .write _ _ _ => False
  | .reservedCommand _ => False
  | .run _ _ => False
  | .rsp _ _ => False

/-! ### The invariant -/

/-- Every address space is in its canonical form, and `SLB` has no entry past its capacity (R28). -/
def memoriesOk (s : State) : Prop :=
  Memory.wf s.slb ∧ Memory.wf s.img ∧ Memory.wf s.streams ∧ ∀ i, Config.slbCap ≤ i → Memory.get? s.slb i = none

/-- Entries 0 to `n - 1` of `SLB` are written. -/
def slbWritten (s : State) (n : Nat) : Prop :=
  ∀ i, i < n → (Memory.get? s.slb i).isSome

/-- No sink is open, and `ST` is what it is between commands (R31, R38). -/
def sinkClosed (s : State) : Prop :=
  s.handle = false ∧ (s.st = .idle ∨ s.st = .closed)

/-- A WRITE runs whose sink is open, with dimensions that passed VALIDATE (R191, R192). -/
def writeOpen (s : State) : Prop :=
  s.op = Config.opWrite ∧ s.w ≠ 0#16 ∧ s.h ≠ 0#16 ∧ s.handle = true

/-- Step HEADER is under way, `HP` in [`low`, `high`) (R36, R194, R195). -/
def inHeader (s : State) (low high : Nat) : Prop :=
  writeOpen s ∧ s.st = .opened ∧ low ≤ s.hp.toNat ∧ s.hp.toNat < high

/-- The row step is under way in row `Y` (R32, R205). -/
def inRow (s : State) : Prop :=
  writeOpen s ∧ (s.st = .headerWritten ∨ s.st = .rowWritten) ∧ s.y.toNat < s.h.toNat

/-- The encoder runs on a full row: for ENCSL without a sink, or in a WRITE row step (R160, R209). -/
def inScanline (s : State) : Prop :=
  s.w ≠ 0#16 ∧ slbWritten s s.w.toNat ∧ ((s.op = Config.opEncsl ∧ sinkClosed s) ∨ inRow s)

/-- What holds at each position of the sequencer (R29 to R38). -/
def positionOk (s : State) : Prop :=
  match s.seq with
  | .idle => sinkClosed s ∧ s.slb = []
  | .opening => s.op = Config.opWrite ∧ s.w ≠ 0#16 ∧ s.h ≠ 0#16 ∧ sinkClosed s ∧ s.slb = []
  | .header1 => inHeader s 0 11
  | .header2 => inHeader s 11 42
  | .header3 => inHeader s 42 65
  | .header4 => inHeader s 65 101
  | .resolution => inHeader s 101 (101 + (reslineBytes s.h s.w).length)
  | .quantizing => inRow s ∧ s.x.toNat ≤ s.w.toNat ∧ slbWritten s s.x.toNat
  | .marking => inScanline s
  | .chunking =>
    inScanline s ∧ s.rem ≠ 0#16 ∧ s.x.toNat + s.rem.toNat = s.w.toNat ∧ s.k.toNat ≤ chunkLength s.rem
  | .closing => writeOpen s ∧ s.st = .rowWritten
  | .converting => s.op = Config.opQuant ∧ sinkClosed s ∧ s.slb = []
  | .responding => (s.op = Config.opEncsl ∨ s.op = Config.opWrite) ∧ sinkClosed s
  | .failing => writeOpen s ∧ (s.st = .opened ∨ s.st = .headerWritten ∨ s.st = .rowWritten)
  | .raising exception =>
    exception ≠ .ok ∧ sinkClosed s ∧ (if exception = .writeFailure then s.op = Config.opWrite else s.slb = [])

/-- The invariant of the machine. -/
def Inv (s : State) : Prop :=
  memoriesOk s ∧ positionOk s

/-! ### Several steps -/

/-- `n` steps of one kind, one after another; a stop ends them. -/
def times (act : State → Host.Outcome State Fault Refusal) : Nat → State → Host.Outcome State Fault Refusal
  | 0, s => .next s
  | n + 1, s =>
    match act s with
    | .next t => times act n t
    | .fault f => .fault f
    | .refused r => .refused r

/-! ### Frames -/

/-- The external state that belongs to neither the running command's sink nor its response is as before (R44). -/
def keepsOutside (s t : State) : Prop :=
  t.img = s.img ∧ t.imgAnswers = s.imgAnswers ∧ t.cmd = s.cmd ∧ t.resetReq = s.resetReq

/-- A command that uses no port but `RSP` leaves the writer, the sink and the counters of the writer alone
(R64, R140, R213). -/
def keepsWriter (s t : State) : Prop :=
  t.st = s.st ∧ t.handle = s.handle ∧ t.h = s.h ∧ t.pathtok = s.pathtok ∧ t.y = s.y ∧ t.hp = s.hp
    ∧ t.streams = s.streams ∧ t.sinkAnswers = s.sinkAnswers ∧ keepsOutside s t

/-- Every selector's stream but the one written is as before. -/
def keepsOtherStreams (pathtok : Word) (s t : State) : Prop :=
  ∀ other : Word, other ≠ pathtok → State.stream t other = State.stream s other

end Sys2Proof.Machine
end

