-- ==== Sys2Proof/Certificates/Slice0/Obligations.lean ====
section
/-! DEFINITION. The statements for the provers. Each docstring names the rules of spec/ it formalises. Where a statement names the
fields `seq`, `mp` (log entry 10), `payload` (11), `draws` (6), `trace` (17), `cmd`, `rsp` (13), `sinkAnswers` (7), `imgAnswers` (25)
or `resetReq` (16), that clause is the model's own way to hold what the rules say, and no rule is cited for it. -/

open Sys2Proof Sys2Proof.Machine

/-! ### Encodings -/

/-- Every well-formed instruction reads back from its own bytes: commands by the decoder of R98, records and responses by
their formats (R94 to R97, R101 to R112). -/
def Obligations.DecodeEncodeAgree : Prop :=
  ∀ i : Instr, i.wellFormed = true → readBack i = some i

/-- Every byte sequence is exactly one descriptor: what the decoder makes of it stands on the command port, is well
formed, and spells the same bytes (R98: decode is total; R99). -/
def Obligations.DescriptorsHaveOneMeaning : Prop :=
  ∀ c : List Byte, encode (decode c) = c ∧ (decode c).wellFormed = true ∧ onCommandPort (decode c) = true

/-- R98, case by case: which byte sequences are which command, with their operands, and that all others are reserved. -/
def Obligations.DecodeFollowsOpcodeAndLength : Prop :=
  ∀ c : List Byte,
    (∀ red green blue : F64, decode c = .quant red green blue ↔
      c = 0x01#8 :: (f64Bytes red ++ f64Bytes green ++ f64Bytes blue))
    ∧ (∀ (w : Half) (row : List Quad), decode c = .encsl w row ↔
      row.length = w.toNat ∧ c = 0x02#8 :: (halfBytes w ++ row.flatMap quadBytes))
    ∧ (∀ (w h : Half) (pathtok : Word), decode c = .write w h pathtok ↔
      c = 0x03#8 :: (halfBytes w ++ halfBytes h ++ wordBytes pathtok))
    ∧ (decode c = .reservedCommand c ↔
      ¬ (c.head? = some 0x01#8 ∧ c.length = 25)
      ∧ ¬ (∃ hi lo rest, c = 0x02#8 :: hi :: lo :: rest ∧ c.length = 3 + 4 * (256 * hi.toNat + lo.toNat))
      ∧ ¬ (c.head? = some 0x03#8 ∧ c.length = 9))

/-- A few descriptors and records, written out from the spec's encodings (R94 to R96, R109, R110, vectors X7, X14, X15). -/
def Obligations.WordsDecodeAsWritten : Prop :=
  decode [0x02#8, 0x00#8, 0x01#8, 0x80#8, 0x40#8, 0x00#8, 0x81#8] = .encsl 1#16 [⟨0x80#8, 0x40#8, 0x00#8, 0x81#8⟩]
  ∧ decode [0x03#8, 0x01#8, 0x2C#8, 0x00#8, 0x0A#8, 0x00#8, 0x00#8, 0x00#8, 0x2A#8] = .write 300#16 10#16 42#32
  ∧ decode [0x02#8, 0x00#8] = .reservedCommand [0x02#8, 0x00#8]
  ∧ decodeRecord [0x02#8, 0x02#8, 0x01#8, 0x2C#8] = .ok (.mark 300#16)
  ∧ decodeRecord [0x03#8, 0x80#8, 0xC0#8, 0x33#8] = .ok (.lit [0x80#8, 0xC0#8, 0x33#8])

/-! ### The step -/

/-- A waiting block that has a descriptor, and no reset request, accepts it: the step is the decoded command's execution,
with the descriptor consumed (R90, R92). That one step runs the command as far as it goes is log entry 9. -/
def Obligations.StepRunsDecodedCommand : Prop :=
  ∀ (s : State) (c : List Byte) (later : List (List Byte)),
    s.resetReq = none → s.seq = .idle → s.cmd = c :: later → step s = exec (decode c) { s with cmd := later }

/-- In the middle of a command, with no reset request, the step at a record's position is that record's execution; the
record's operands come from the latches `H` and `W`, from `SLB`, and from the response formed so far. -/
def Obligations.StepRunsRecordAtPosition : Prop :=
  ∀ s : State, s.resetReq = none →
    (s.seq = .header1 → step s = exec .hdrline1 s)
    ∧ (s.seq = .header2 → step s = exec .hdrline2 s)
    ∧ (s.seq = .header3 → step s = exec .hdrline3 s)
    ∧ (s.seq = .header4 → step s = exec .hdrline4 s)
    ∧ (s.seq = .resolution → step s = exec (.resline s.h s.w) s)
    ∧ (s.seq = .marking → step s = exec (.mark s.w) s)
    ∧ (∀ data, s.seq = .chunking → chunkData s = .ok data → step s = exec (.lit data) s)
    ∧ (s.seq = .responding → step s = exec (.rsp .ok s.payload) s)
    ∧ (∀ exception, s.seq = .raising exception → step s = exec (.rsp exception []) s)

/-- A block that waits, for a descriptor, for the sink's answer or for the image memory's, makes no progress: the step
changes nothing (R262). In mid-command this is stated for states that satisfy the invariant. -/
def Obligations.WaitingChangesNothing : Prop :=
  ∀ s : State, s.resetReq = none →
    (s.seq = .idle → s.cmd = [] → step s = .next s) ∧ (Inv s → blocked s = true → step s = .next s)

/-! ### The quantizer -/

/-- QUANT of a valid pixel responds `00` and the four bytes of its quantization, records `ERR` = 0, and touches neither the
image, `SLB`, the sink, `ST` nor the counters (R130, R97, R140). -/
def Obligations.QuantRespondsQuantizedPixel : Prop :=
  ∀ (red green blue : F64) (s : State), validPixel ⟨red, green, blue⟩ = true →
    ∃ t, exec (.quant red green blue) s = .next t
      ∧ t.rsp = s.rsp ++ [0x00#8 :: quadBytes (quantizeValid ⟨red, green, blue⟩)]
      ∧ t.trace = s.trace ++ [.respond (0x00#8 :: quadBytes (quantizeValid ⟨red, green, blue⟩))]
      ∧ t.op = 0x01#8 ∧ t.err = .ok ∧ t.seq = .idle
      ∧ t.w = s.w ∧ t.slb = s.slb ∧ t.x = s.x ∧ t.p = s.p ∧ t.rem = s.rem ∧ t.k = s.k ∧ keepsWriter s t

/-- QUANT of an invalid pixel raises nothing and responds `00` and four bytes, of which nothing is said (R141). -/
def Obligations.QuantOfInvalidPixelResponds : Prop :=
  ∀ (red green blue : F64) (s : State), validPixel ⟨red, green, blue⟩ = false →
    ∃ (t : State) (drawn : Quad), exec (.quant red green blue) s = .next t
      ∧ t.rsp = s.rsp ++ [0x00#8 :: quadBytes drawn]
      ∧ t.trace = s.trace ++ [.respond (0x00#8 :: quadBytes drawn)]
      ∧ t.op = 0x01#8 ∧ t.err = .ok ∧ t.seq = .idle
      ∧ t.w = s.w ∧ t.slb = s.slb ∧ t.x = s.x ∧ t.p = s.p ∧ t.rem = s.rem ∧ t.k = s.k ∧ keepsWriter s t

/-- Which pixels are valid: no component is infinite or NaN (exponent field 2047), and none is negative; `-0` is valid, a
negative subnormal is not (R141, R142). -/
def Obligations.ValidPixelsAreFiniteAndNotNegative : Prop :=
  ∀ pixel : Pixel, validPixel pixel = true ↔
    ∀ f ∈ [pixel.red, pixel.green, pixel.blue],
      (f.extractLsb' 52 11) ≠ 2047#11 ∧ (f.getLsbD 63 = true → f = 0x8000000000000000#64)

/-- R130 with R133 to R135 and R137, in exact rational arithmetic: with `d` the maximum and `e` its frexp exponent, each
mantissa byte is `floor(c · 2^(8-e))` and the exponent byte is `(e + 128) mod 256`. -/
def Obligations.QuantizeIsExactFormula : Prop :=
  ∀ (pixel : Pixel) (e : ℤ), validPixel pixel = true → aboveFloor pixel → isFrexpExp (pixelMax pixel) e →
    ((quantizeValid pixel).r.toNat : ℤ) = ⌊val pixel.red * 2 ^ (8 - e)⌋
    ∧ ((quantizeValid pixel).g.toNat : ℤ) = ⌊val pixel.green * 2 ^ (8 - e)⌋
    ∧ ((quantizeValid pixel).b.toNat : ℤ) = ⌊val pixel.blue * 2 ^ (8 - e)⌋
    ∧ ((quantizeValid pixel).e.toNat : ℤ) = (e + 128) % 256

/-- R131 and R115: at or below the floor, equality included, all four bytes are 0; above it they are not. -/
def Obligations.FloorTestGivesBlack : Prop :=
  ∀ pixel : Pixel, validPixel pixel = true →
    (quantizeValid pixel = ⟨0x00#8, 0x00#8, 0x00#8, 0x00#8⟩ ↔ ¬ aboveFloor pixel)

/-- R133 and R139: above the floor the frexp exponent exists, is unique, and lies in -106..1024. -/
def Obligations.FrexpExponentIsUniqueAndBounded : Prop :=
  ∀ pixel : Pixel, validPixel pixel = true → aboveFloor pixel →
    ∃ e : ℤ, isFrexpExp (pixelMax pixel) e ∧ -106 ≤ e ∧ e ≤ 1024 ∧ ∀ e', isFrexpExp (pixelMax pixel) e' → e' = e

/-- R136: in every non-black output at least one of the mantissa bytes is at least 128. -/
def Obligations.NonBlackHasLeadingMantissa : Prop :=
  ∀ pixel : Pixel, validPixel pixel = true → aboveFloor pixel →
    128 ≤ (quantizeValid pixel).r.toNat ∨ 128 ≤ (quantizeValid pixel).g.toNat ∨ 128 ≤ (quantizeValid pixel).b.toNat

/-- R144: the bit-level form gives the same four bytes as the exact formula for every valid pixel. -/
def Obligations.BitLevelFormAgrees : Prop :=
  ∀ pixel : Pixel, validPixel pixel = true → quantizeBits pixel = quantizeValid pixel

/-- R145: multiplying every component by `2^n` leaves the mantissa bytes and adds `n` to the exponent byte modulo 256, as long
as both pixels are above the floor. -/
def Obligations.ScalingByPowersOfTwo : Prop :=
  ∀ (a b : Pixel) (n : ℤ), validPixel a = true → validPixel b = true → aboveFloor a → aboveFloor b →
    val b.red = val a.red * 2 ^ n → val b.green = val a.green * 2 ^ n → val b.blue = val a.blue * 2 ^ n →
    (quantizeValid b).r = (quantizeValid a).r ∧ (quantizeValid b).g = (quantizeValid a).g
      ∧ (quantizeValid b).b = (quantizeValid a).b
      ∧ ((quantizeValid b).e.toNat : ℤ) = ((quantizeValid a).e.toNat + n) % 256

/-- R143 (with R114): below 2^127, where the exponent byte does not wrap, each decoded component is at most the original,
and falls short of it by less than `2^(e-8)` (`e` is `E - 128`), which is at most `d/128`. -/
def Obligations.ReconstructionErrorIsBounded : Prop :=
  ∀ pixel : Pixel, validPixel pixel = true → aboveFloor pixel → pixelMax pixel < 2 ^ 127 →
    ∀ c ∈ [(val pixel.red, (quantizeValid pixel).r), (val pixel.green, (quantizeValid pixel).g),
        (val pixel.blue, (quantizeValid pixel).b)],
      0 ≤ c.1 - decoded c.2 (quantizeValid pixel).e
      ∧ c.1 - decoded c.2 (quantizeValid pixel).e < 2 ^ (((quantizeValid pixel).e.toNat : ℤ) - 136)
      ∧ c.1 - decoded c.2 (quantizeValid pixel).e < pixelMax pixel / 128

/-- R139 with R114: for `d` in [2^127, 2^128) the exponent byte wraps to 0 beside a mantissa byte of at least 128, and a
consumer reads the quadruple as black; an exponent byte of 0 comes from nothing but a wrap or the floor test. -/
def Obligations.WrappedExponentReadsAsBlack : Prop :=
  ∀ pixel : Pixel, validPixel pixel = true →
    (2 ^ 127 ≤ pixelMax pixel → pixelMax pixel < 2 ^ 128 →
      (quantizeValid pixel).e = 0x00#8
      ∧ (128 ≤ (quantizeValid pixel).r.toNat ∨ 128 ≤ (quantizeValid pixel).g.toNat ∨ 128 ≤ (quantizeValid pixel).b.toNat)
      ∧ decodedPixel (quantizeValid pixel) = (0, 0, 0))
    ∧ (¬ aboveFloor pixel → decodedPixel (quantizeValid pixel) = (0, 0, 0))
    ∧ ((quantizeValid pixel).e = 0x00#8 → ¬ aboveFloor pixel ∨ 2 ^ 127 ≤ pixelMax pixel)

/-! ### The encoder -/

/-- ENCSL of a row of `w` pixels, `w` at least 1, responds `00` and the encoded scanline, and touches neither the image, the
sink, `ST` nor the writer's counters (R160, R97). -/
def Obligations.EncslReturnsEncodedScanline : Prop :=
  ∀ (w : Half) (row : List Quad) (s : State), row.length = w.toNat → w ≠ 0#16 →
    ∃ t, exec (.encsl w row) s = .next t
      ∧ t.rsp = s.rsp ++ [0x00#8 :: encodeScanline w row]
      ∧ t.trace = s.trace ++ [.respond (0x00#8 :: encodeScanline w row)]
      ∧ t.op = 0x02#8 ∧ t.w = w ∧ t.err = .ok ∧ t.seq = .idle ∧ keepsWriter s t

/-- R171, R248: ENCSL with width 0 raises `DegenerateInput` and returns no bytes; only `OP`, `W` and `ERR` change. -/
def Obligations.EncslOfWidthZeroIsDegenerate : Prop :=
  ∀ s : State, exec (.encsl 0#16 []) s = .next
    { s with
      op := 0x02#8, w := 0#16, err := .degenerateInput, seq := .idle, payload := []
      rsp := s.rsp ++ [[0x03#8]], trace := s.trace ++ [.respond [0x03#8]] }

/-- R111, R113, R169: a plane record is literal chunks only, each of 1 to 127 bytes and all but the last of 127, whose data in
order is the plane; there are `ceil(n/127)` of them. -/
def Obligations.PlaneRecordIsLiteralChunks : Prop :=
  ∀ plane : List Byte, ∃ chunks : List (List Byte),
    planeRecord plane = chunks.flatMap (fun data => BitVec.ofNat 8 data.length :: data)
    ∧ chunks.flatten = plane
    ∧ chunks.length = (plane.length + 126) / 127
    ∧ (∀ data ∈ chunks, 1 ≤ data.length ∧ data.length ≤ 127)
    ∧ (∀ data ∈ chunks.dropLast, data.length = 127)

/-- R168, R117, R97: the response to an ENCSL of `w` pixels, `w` at least 1, is one status byte and exactly
`4 + 4·(ceil(w/127) + w)` payload bytes. -/
def Obligations.EncslResponseLengthIsExact : Prop :=
  ∀ (w : Half) (row : List Quad) (s : State), row.length = w.toNat → w ≠ 0#16 →
    ∃ (t : State) (response : List Byte), exec (.encsl w row) s = .next t ∧ t.rsp = s.rsp ++ [response]
      ∧ response.length = 1 + (4 + 4 * ((w.toNat + 126) / 127 + w.toNat))

/-- MARK (R109, R161, R162; how far a marker has come is log entry 10): what of `02 02 W[15:8] W[7:0]` is not yet accepted goes out, to the response payload for ENCSL and
to the sink for WRITE, and plane R starts at the left edge. -/
def Obligations.MarkEmitsMarker : Prop :=
  ∀ (w : Half) (s : State) (later : List SinkAnswer),
    (s.op = 0x02#8 → exec (.mark w) s = .next
      { s with
        payload := s.payload
          ++ [0x02#8, 0x02#8, BitVec.ofNat 8 (w.toNat / 256), BitVec.ofNat 8 (w.toNat % 256)].drop s.mp.toNat
        mp := 0#2, p := 0#2, x := 0#16, rem := s.w, k := 0#7, seq := .chunking })
    ∧ (s.op ≠ 0x02#8 → s.handle = true → answersOk s (4 - s.mp.toNat) later → exec (.mark w) s = .next
      { wrote ([0x02#8, 0x02#8, BitVec.ofNat 8 (w.toNat / 256), BitVec.ofNat 8 (w.toNat % 256)].drop s.mp.toNat) later s with
        mp := 0#2, p := 0#2, x := 0#16, rem := s.w, k := 0#7, seq := .chunking })

/-- LIT for ENCSL (R110, R164, R165): the length byte and the data, or its last `K` bytes when `K` is not 0, join the
response payload; a chunk that ends before the plane does moves `X` and `REM` past it, the last chunk of a plane starts
the next one at the left edge, and the last of plane E ends the scanline, `P` staying 3 (the model's reading: log entries 12
and 33 for `X`, `REM`). -/
def Obligations.LitExtendsPayload : Prop :=
  ∀ (data : List Byte) (s : State), 1 ≤ data.length → data.length ≤ 127 → data.length ≤ s.rem.toNat → s.op = 0x02#8 →
    (data.length < s.rem.toNat → exec (.lit data) s = .next
      { s with
        payload := s.payload ++ recordRest (.lit data) s, k := 0#7
        x := s.x + BitVec.ofNat 16 data.length, rem := s.rem - BitVec.ofNat 16 data.length, seq := .chunking })
    ∧ (data.length = s.rem.toNat → s.p ≠ 3#2 → exec (.lit data) s = .next
      { s with
        payload := s.payload ++ recordRest (.lit data) s, k := 0#7
        x := 0#16, rem := s.w, p := s.p + 1#2, seq := .chunking })
    ∧ (data.length = s.rem.toNat → s.p = 3#2 → exec (.lit data) s = .next
      { s with
        payload := s.payload ++ recordRest (.lit data) s, k := 0#7
        x := s.x + BitVec.ofNat 16 data.length, rem := 0#16, seq := .responding })

/-- LIT for WRITE (R110, R164, R165, R210): the same bytes go to the sink; after the last chunk of plane E the row is
written: `ST` is `ROW_WRITTEN`, and row `Y - 1` follows, or CLOSE after row 0 (`P`, `X`, `REM`: log entries 12, 33). -/
def Obligations.LitWritesChunk : Prop :=
  ∀ (data : List Byte) (s : State) (later : List SinkAnswer), 1 ≤ data.length → data.length ≤ 127 →
    data.length ≤ s.rem.toNat → s.op ≠ 0x02#8 → s.handle = true →
    answersOk s (recordRest (.lit data) s).length later →
    (data.length < s.rem.toNat → exec (.lit data) s = .next
      { wrote (recordRest (.lit data) s) later s with
        k := 0#7, x := s.x + BitVec.ofNat 16 data.length, rem := s.rem - BitVec.ofNat 16 data.length, seq := .chunking })
    ∧ (data.length = s.rem.toNat → s.p ≠ 3#2 → exec (.lit data) s = .next
      { wrote (recordRest (.lit data) s) later s with
        k := 0#7, x := 0#16, rem := s.w, p := s.p + 1#2, seq := .chunking })
    ∧ (data.length = s.rem.toNat → s.p = 3#2 → s.y = 0#16 → exec (.lit data) s = .next
      { wrote (recordRest (.lit data) s) later s with
        k := 0#7, x := s.x + BitVec.ofNat 16 data.length, rem := 0#16, st := .rowWritten, seq := .closing })
    ∧ (data.length = s.rem.toNat → s.p = 3#2 → s.y ≠ 0#16 → exec (.lit data) s = .next
      { wrote (recordRest (.lit data) s) later s with
        k := 0#7, x := 0#16, rem := 0#16, st := .rowWritten, y := s.y - 1#16, seq := .quantizing })

/-- R112, "This hardware has no such record": the repeat-run record stops, by a name that is the model's (log entry 19), whatever
the state and the operands. -/
def Obligations.RunIsRefused : Prop :=
  ∀ (n : BitVec 7) (v : Byte) (s : State), exec (.run n v) s = .refused .repeatRunReserved

/-! ### The header -/

/-- R104: the 101 bytes of the header block, and its exactly five `LF`, at these offsets; no carriage return (R105). -/
def Obligations.HeaderBlockLayout : Prop :=
  Config.hdrRom =
    [0x23#8, 0x3F#8, 0x52#8, 0x41#8, 0x44#8, 0x49#8, 0x41#8, 0x4E#8, 0x43#8, 0x45#8, 0x0A#8, 0x23#8, 0x20#8, 0x4D#8, 0x61#8, 0x64#8]
    ++ [0x65#8, 0x20#8, 0x77#8, 0x69#8, 0x74#8, 0x68#8, 0x20#8, 0x31#8, 0x30#8, 0x30#8, 0x25#8, 0x20#8, 0x70#8, 0x75#8, 0x72#8, 0x65#8]
    ++ [0x20#8, 0x48#8, 0x44#8, 0x52#8, 0x20#8, 0x53#8, 0x68#8, 0x6F#8, 0x70#8, 0x0A#8, 0x46#8, 0x4F#8, 0x52#8, 0x4D#8, 0x41#8, 0x54#8]
    ++ [0x3D#8, 0x33#8, 0x32#8, 0x2D#8, 0x62#8, 0x69#8, 0x74#8, 0x5F#8, 0x72#8, 0x6C#8, 0x65#8, 0x5F#8, 0x72#8, 0x67#8, 0x62#8, 0x65#8]
    ++ [0x0A#8, 0x45#8, 0x58#8, 0x50#8, 0x4F#8, 0x53#8, 0x55#8, 0x52#8, 0x45#8, 0x3D#8, 0x20#8, 0x20#8, 0x20#8, 0x20#8, 0x20#8, 0x20#8]
    ++ [0x20#8, 0x20#8, 0x20#8, 0x20#8, 0x31#8, 0x2E#8, 0x30#8, 0x30#8, 0x30#8, 0x30#8, 0x30#8, 0x30#8, 0x30#8, 0x30#8, 0x30#8, 0x30#8]
    ++ [0x30#8, 0x30#8, 0x30#8, 0x0A#8, 0x0A#8]
  ∧ Config.hdrRom.length = 11 + 31 + 23 + 36
  ∧ (∀ i, i < 101 → (Config.hdrRom[i]? = some 0x0A#8 ↔ i = 0x0A ∨ i = 0x29 ∨ i = 0x40 ∨ i = 0x63 ∨ i = 0x64))
  ∧ 0x0D#8 ∉ Config.hdrRom

/-- R106: `dec n` is 1 to 5 ASCII digits that spell `n`, most significant first, and begins with `0` only for 0,
whose numeral is the one digit `0`. -/
def Obligations.DecimalNumeralsAreExact : Prop :=
  ∀ n : Nat, n < 65536 →
    1 ≤ (dec n).length ∧ (dec n).length ≤ 5
    ∧ (∀ b ∈ dec n, 0x30 ≤ b.toNat ∧ b.toNat ≤ 0x39)
    ∧ (dec n).foldl (fun v b => 10 * v + (b.toNat - 0x30)) 0 = n
    ∧ ((dec n).head? = some 0x30#8 → n = 0 ∧ dec n = [0x30#8])

/-- HDRLINE1 to HDRLINE4 (R194, R101 to R103): from `HP` inside the line, the rest of the line's bytes of `HDRROM` go to the
sink, `HP` stands after the line, and the next line follows. -/
def Obligations.HeaderLinesComplete : Prop :=
  ∀ (s : State) (later : List SinkAnswer), s.handle = true →
    (s.hp.toNat < 11 → answersOk s (11 - s.hp.toNat) later → exec .hdrline1 s = .next
      { wrote ((Config.hdrRom.take 11).drop s.hp.toNat) later s with hp := 11#7, seq := .header2 })
    ∧ (11 ≤ s.hp.toNat → s.hp.toNat < 42 → answersOk s (42 - s.hp.toNat) later → exec .hdrline2 s = .next
      { wrote ((Config.hdrRom.take 42).drop s.hp.toNat) later s with hp := 42#7, seq := .header3 })
    ∧ (42 ≤ s.hp.toNat → s.hp.toNat < 65 → answersOk s (65 - s.hp.toNat) later → exec .hdrline3 s = .next
      { wrote ((Config.hdrRom.take 65).drop s.hp.toNat) later s with hp := 65#7, seq := .header4 })
    ∧ (65 ≤ s.hp.toNat → s.hp.toNat < 101 → answersOk s (101 - s.hp.toNat) later → exec .hdrline4 s = .next
      { wrote ((Config.hdrRom.take 101).drop s.hp.toNat) later s with hp := 101#7, seq := .resolution })

/-- RESLINE (R107, R195, R196, R205): the rest of `-Y <height> +X <width>` and its `LF` go to the sink; then `ST` is
`HEADER_WRITTEN`, `Y` is `H - 1`, and the row's first pixel is next. -/
def Obligations.ReslineCompletes : Prop :=
  ∀ (h w : Half) (s : State) (later : List SinkAnswer), s.handle = true → 101 ≤ s.hp.toNat →
    s.hp.toNat < 109 + (dec h.toNat).length + (dec w.toNat).length →
    answersOk s (109 + (dec h.toNat).length + (dec w.toNat).length - s.hp.toNat) later →
    exec (.resline h w) s = .next
      { wrote (([0x2D#8, 0x59#8, 0x20#8] ++ dec h.toNat ++ [0x20#8, 0x2B#8, 0x58#8, 0x20#8] ++ dec w.toNat
          ++ [0x0A#8]).drop (s.hp.toNat - 101)) later s with
        hp := BitVec.ofNat 7 (109 + (dec h.toNat).length + (dec w.toNat).length)
        st := .headerWritten, y := s.h - 1#16, x := 0#16, seq := .quantizing }

/-- The counters `HP`, `K` and the marker position keep a record's place (R36, R204): a record of a WRITE whose answers come
in two portions leaves exactly the state it leaves when they come at once, whether the later answers accept, refuse or
run out again. -/
def Obligations.ResumedRecordIsSameRecord : Prop :=
  ∀ (i : Instr) (s t : State) (n : Nat) (later : List SinkAnswer),
    i.wellFormed = true → s.op = 0x03#8 → s.handle = true → recordPlace i s → n < (recordRest i s).length →
    answersOk s n [] → exec i s = .next t →
    exec i { t with sinkAnswers := later } = exec i { s with sinkAnswers := s.sinkAnswers ++ later }

/-- R204, R242, R249, R251: when the sink refuses a byte of a record, the accepted bytes stay, the refused one may or may not
be in the stream (the answer says which: log entry 8), nothing after it is written; the next action closes the sink, and the
one after it gives the response `02`. -/
def Obligations.RefusedByteClosesSink : Prop :=
  ∀ (i : Instr) (s : State) (n : Nat) (hn : n < (recordRest i s).length) (landed : Bool) (later : List SinkAnswer),
    i.wellFormed = true → s.op = 0x03#8 → s.handle = true → answersFailAt s n landed later →
    ∃ u v t, exec i s = .next u ∧ tick u = .next v ∧ tick v = .next t
      ∧ u.trace = s.trace ++ acceptedWrites ((recordRest i s).take n) ++ [.memWrite (recordRest i s)[n] false]
      ∧ u.handle = true ∧ u.st = s.st ∧ u.rsp = s.rsp ∧ u.err = s.err
      ∧ v.trace = u.trace ++ [.sinkClose] ∧ v.handle = false ∧ v.st = .closed ∧ v.rsp = s.rsp ∧ v.err = s.err
      ∧ t.trace = v.trace ++ [.respond [0x02#8]]
      ∧ State.stream t s.pathtok
        = State.stream s s.pathtok ++ (recordRest i s).take n ++ (if landed then [(recordRest i s)[n]] else [])
      ∧ keepsOtherStreams s.pathtok s t
      ∧ t.rsp = s.rsp ++ [[0x02#8]] ∧ t.err = .writeFailure ∧ t.st = .closed ∧ t.handle = false ∧ t.seq = .idle
      ∧ t.sinkAnswers = later ∧ t.op = s.op ∧ t.w = s.w ∧ t.h = s.h ∧ t.pathtok = s.pathtok ∧ keepsOutside s t

/-! ### The writer -/

/-- R191, R243, R248, R253: WRITE with `W` = 0 or `H` = 0 raises `DegenerateInput` whatever the sink would answer: only `OP`, the
operand latches and `ERR` change, and no port but `RSP` is used. -/
def Obligations.WriteOfNoPixelsIsDegenerate : Prop :=
  ∀ (w h : Half) (pathtok : Word) (s : State), w = 0#16 ∨ h = 0#16 → exec (.write w h pathtok) s = .next
    { s with
      op := 0x03#8, w := w, h := h, pathtok := pathtok, err := .degenerateInput, seq := .idle, payload := []
      rsp := s.rsp ++ [[0x03#8]], trace := s.trace ++ [.respond [0x03#8]] }

/-- R193, R241, R250: when the sink refuses the open, `PathUnwritable` is raised: no stream, no image read, `ST` and `HANDLE`
as they were. -/
def Obligations.RefusedOpenIsPathUnwritable : Prop :=
  ∀ (w h : Half) (pathtok : Word) (s : State) (landed : Bool) (later : List SinkAnswer), w ≠ 0#16 → h ≠ 0#16 →
    s.sinkAnswers = .fail landed :: later → exec (.write w h pathtok) s = .next
      { s with
        op := 0x03#8, w := w, h := h, pathtok := pathtok, err := .pathUnwritable, seq := .idle, payload := []
        sinkAnswers := later
        rsp := s.rsp ++ [[0x01#8]], trace := s.trace ++ [.sinkOpen pathtok false, .respond [0x01#8]] }

/-- R190, R214 item 4 and its last sentence: a WRITE of a complete image, to a sink that accepts everything, leaves in the
selected stream the file of some quantization of the image (each valid pixel by R130, an invalid one with four drawn
bytes), in the order of operations of R77 and R83, and responds `00` with the sink closed. -/
def Obligations.WriteProducesFile : Prop :=
  ∀ (w h : Half) (pathtok : Word) (s : State) (later : List SinkAnswer), w ≠ 0#16 → h ≠ 0#16 →
    imageComplete s.img w h → s.imgAnswers = true →
    answersOk s (1 + (101 + 8 + (dec h.toNat).length + (dec w.toNat).length
      + h.toNat * (4 + 4 * ((w.toNat + 126) / 127 + w.toNat)))) later →
    ∃ (t : State) (rows : Nat → List Quad), quantizesImage s.img w h rows
      ∧ exec (.write w h pathtok) s = .next t
      ∧ State.stream t pathtok = fileOf rows w h
      ∧ keepsOtherStreams pathtok s t
      ∧ t.trace = s.trace ++ [.sinkOpen pathtok true] ++ emissionOps rows w h ++ [.sinkClose, .respond [0x00#8]]
      ∧ t.rsp = s.rsp ++ [[0x00#8]] ∧ t.err = .ok ∧ t.st = .closed ∧ t.handle = false ∧ t.seq = .idle
      ∧ t.op = 0x03#8 ∧ t.w = w ∧ t.h = h ∧ t.pathtok = pathtok ∧ t.y = 0#16 ∧ t.sinkAnswers = later ∧ keepsOutside s t

/-- R214 item 4, R216: where every pixel of the image is valid, the stream is `bytes(W, H, IMG)`, a function of the
dimensions and the image alone. -/
def Obligations.WriteOfValidImageIsItsFile : Prop :=
  ∀ (w h : Half) (pathtok : Word) (s : State) (later : List SinkAnswer), w ≠ 0#16 → h ≠ 0#16 →
    imageComplete s.img w h → imageValid s.img w h → s.imgAnswers = true → answersOk s (1 + (fileBytes s.img w h).length) later →
    ∃ t, exec (.write w h pathtok) s = .next t ∧ State.stream t pathtok = fileBytes s.img w h
      ∧ t.rsp = s.rsp ++ [[0x00#8]] ∧ t.err = .ok ∧ t.st = .closed ∧ t.handle = false ∧ t.seq = .idle

/-- R214 item 3 and its last sentence, with R83 and R251: when write number `n` fails, the stream is the first `n` bytes of the
file of some quantization of the image, possibly with byte `n` (the answer says which: log entry 8), the image rows read
are those R83 says, the sink is closed, and the response is `02`. Where every pixel is valid that file is `bytes(W, H, IMG)`. -/
def Obligations.FailedWriteKeepsPrefix : Prop :=
  ∀ (w h : Half) (pathtok : Word) (s : State) (n : Nat) (landed : Bool) (later : List SinkAnswer),
    w ≠ 0#16 → h ≠ 0#16 → imageComplete s.img w h → s.imgAnswers = true →
    s.sinkAnswers = .ok :: (List.replicate n .ok ++ .fail landed :: later) →
    n < 101 + 8 + (dec h.toNat).length + (dec w.toNat).length
      + h.toNat * (4 + 4 * ((w.toNat + 126) / 127 + w.toNat)) →
    ∃ (t : State) (rows : Nat → List Quad) (refused : Byte), quantizesImage s.img w h rows
      ∧ (imageValid s.img w h → fileOf rows w h = fileBytes s.img w h)
      ∧ (fileOf rows w h)[n]? = some refused
      ∧ exec (.write w h pathtok) s = .next t
      ∧ State.stream t pathtok = (fileOf rows w h).take n ++ (if landed then [refused] else [])
      ∧ keepsOtherStreams pathtok s t
      ∧ t.trace = s.trace ++ [.sinkOpen pathtok true] ++ beforeWrite n (emissionOps rows w h)
          ++ [.memWrite refused false, .sinkClose, .respond [0x02#8]]
      ∧ t.rsp = s.rsp ++ [[0x02#8]] ∧ t.err = .writeFailure ∧ t.st = .closed ∧ t.handle = false ∧ t.seq = .idle
      ∧ t.op = 0x03#8 ∧ t.w = w ∧ t.h = h ∧ t.pathtok = pathtok ∧ t.sinkAnswers = later ∧ keepsOutside s t

/-- R118: the length of the file of any quantization of the image. -/
def Obligations.FileLengthIsExact : Prop :=
  ∀ (w h : Half) (img : Memory Pixel) (rows : Nat → List Quad), quantizesImage img w h rows →
    (fileOf rows w h).length = 101 + 8 + (dec h.toNat).length + (dec w.toNat).length
      + h.toNat * (4 + 4 * ((w.toNat + 126) / 127 + w.toNat))

/-- The row step's load (R208, R61, R62): for a pixel the image holds, `PIX` is the pixel at `Y·W + X`, `SLB[X]` its
quantization where it is valid, `X` is one more, and nothing else changes but `Q`, the trace and the count of draws. -/
def Obligations.RowStepQuantizesPixel : Prop :=
  ∀ (s : State) (pixel : Pixel), s.resetReq = none → s.seq = .quantizing → s.x.toNat < s.w.toNat → s.imgAnswers = true →
    Memory.get? s.img (pixelIndex s.w s.y s.x).toNat = some pixel →
    (pixelIndex s.w s.y s.x).toNat = s.y.toNat * s.w.toNat + s.x.toNat
    ∧ ∃ (quad : Quad) (draws : Nat), step s = .next
        { s with
          pix := pixel, q := quad, draws := draws, slb := Memory.set s.slb s.x.toNat quad, x := s.x + 1#16
          trace := s.trace ++ [.memRead (pixelIndex s.w s.y s.x)] }
      ∧ (validPixel pixel = true → quad = quantizeValid pixel ∧ draws = s.draws)

/-! ### Exceptions and responses -/

/-- R92, R99, R244, R248: a descriptor that is none of the commands takes `IllegalCommand`: `OP` takes its first byte if it has
one, `ERR` is 4, the response is `04`, and every other latch keeps its value. -/
def Obligations.ReservedCommandTakesIllegalCommand : Prop :=
  ∀ (c : List Byte) (s : State), exec (.reservedCommand c) s = .next
    { s with
      op := (match c with | [] => s.op | b :: _ => b)
      err := .illegalCommand, seq := .idle, payload := []
      rsp := s.rsp ++ [[0x04#8]], trace := s.trace ++ [.respond [0x04#8]] }

/-- RSP (R97, R37): one response whose byte 0 is the status code, a payload only with status 0; `ERR` takes the same value, and
the block waits for the next descriptor. The writer, the sink and the latches `OP`, `W` stay. -/
def Obligations.ResponseEndsCommand : Prop :=
  ∀ (status : Status) (payload : List Byte) (s : State), ∃ t, exec (.rsp status payload) s = .next t
    ∧ t.rsp = s.rsp ++ [status.code :: (if status = .ok then payload else [])]
    ∧ t.trace = s.trace ++ [.respond (status.code :: (if status = .ok then payload else []))]
    ∧ t.err = status ∧ t.seq = .idle ∧ t.op = s.op ∧ t.w = s.w ∧ t.x = s.x ∧ t.p = s.p ∧ t.rem = s.rem ∧ t.k = s.k
    ∧ keepsWriter s t

/-- R39, with the codes of R31 and R37 spelt out: the fields of the status word, and that it is 0 after reset (R45). -/
def Obligations.StatusWordFields : Prop :=
  (∀ s : State,
    (s.statusWord).extractLsb' 0 3
      = (match s.st with
        | .idle => 0#3
        | .opened => 1#3
        | .headerWritten => 2#3
        | .rowWritten => 3#3
        | .closed => 4#3)
    ∧ (s.statusWord).extractLsb' 3 3
      = (match s.err with
        | .ok => 0#3
        | .pathUnwritable => 1#3
        | .writeFailure => 2#3
        | .degenerateInput => 3#3
        | .illegalCommand => 4#3)
    ∧ (s.statusWord).getLsbD 6 = s.handle
    ∧ (s.statusWord).getLsbD 7 = false)
  ∧ State.reset.statusWord = 0x00#8

/-! ### Reset -/

/-- R45: the reset values the spec gives. -/
def Obligations.ResetValues : Prop :=
  State.reset.op = 0x00#8 ∧ State.reset.w = 0#16 ∧ State.reset.h = 0#16 ∧ State.reset.pathtok = 0#32
  ∧ State.reset.st = .idle ∧ State.reset.y = 0#16 ∧ State.reset.x = 0#16 ∧ State.reset.rem = 0#16
  ∧ State.reset.p = 0#2 ∧ State.reset.k = 0#7 ∧ State.reset.hp = 0#7 ∧ State.reset.err = .ok
  ∧ State.reset.handle = false ∧ (∀ i, Memory.get? State.reset.slb i = none)

/-- R281, R280: a reset that arrives, at any position of any command, puts the block in its reset state, sends no response, does
not close the sink, and leaves the external state as it was. -/
def Obligations.ResetAbandonsCommand : Prop :=
  ∀ s : State, s.resetReq = some 0 → ∃ t, step s = .next t
    ∧ t.op = 0x00#8 ∧ t.w = 0#16 ∧ t.h = 0#16 ∧ t.pathtok = 0#32 ∧ t.st = .idle ∧ t.y = 0#16 ∧ t.x = 0#16
    ∧ t.rem = 0#16 ∧ t.p = 0#2 ∧ t.k = 0#7 ∧ t.hp = 0#7 ∧ t.err = .ok ∧ t.handle = false ∧ t.slb = [] ∧ t.seq = .idle
    ∧ t.resetReq = none ∧ t.rsp = s.rsp ∧ t.trace = s.trace ∧ t.streams = s.streams ∧ t.img = s.img
    ∧ t.imgAnswers = s.imgAnswers
    ∧ t.cmd = s.cmd ∧ t.sinkAnswers = s.sinkAnswers

/-- While a reset is on its way the step is one operation of the block, and the reset comes one operation nearer (that a
step is otherwise as much of a command as has its answers is log entry 9; the count is log entry 16). -/
def Obligations.StepBeforeReset : Prop :=
  ∀ (s : State) (n : Nat), s.resetReq = some (n + 1) →
    step s = match atomicStep s with
      | .next t => .next { t with resetReq := some n }
      | .fault f => .fault f
      | .refused r => .refused r

/-- R281: every descriptor can be abandoned by a reset between its acceptance and its response: the descriptor is gone, nothing
has been answered, no port has been used, and the block is in its reset state. -/
def Obligations.ResetFallsBetweenAcceptanceAndResponse : Prop :=
  ∀ (s : State) (c : List Byte) (later : List (List Byte)), s.seq = .idle → s.cmd = c :: later → s.resetReq = some 1 →
    ∃ u t, step s = .next u ∧ u.seq ≠ .idle ∧ u.cmd = later ∧ step u = .next t
      ∧ t = { State.reset with
          draws := s.draws, cmd := later, rsp := s.rsp, img := s.img, imgAnswers := s.imgAnswers, streams := s.streams
          sinkAnswers := s.sinkAnswers, trace := s.trace }

/-- R281: a reset falls after any number of operations: it finds the block where they have brought it, and leaves the external
state as they left it. -/
def Obligations.ResetFallsAfterAnyOperation : Prop :=
  ∀ (s t : State) (n : Nat), times atomicStep n s = .next t →
    times step (n + 1) { s with resetReq := some n } = .next
      { State.reset with
        draws := t.draws, cmd := t.cmd, rsp := t.rsp, img := t.img, imgAnswers := t.imgAnswers, streams := t.streams
        sinkAnswers := t.sinkAnswers, trace := t.trace }

/-- R77, R90: the execution of a command is its acceptance and its operations one after another, each with at most one
answer of the sink (so that with the statement before, a reset can fall between any two of them). -/
def Obligations.CommandIsItsOperations : Prop :=
  ∀ (s t : State) (c : List Byte) (later : List (List Byte)), Inv s → s.seq = .idle → s.cmd = c :: later →
    exec (decode c) { s with cmd := later } = .next t → ∃ n, times atomicStep (n + 1) s = .next t

/-- An operation uses at most one answer of the sink and does at most one port operation (R77), so that a reset can fall between
any two port operations. -/
def Obligations.OperationsAreSingle : Prop :=
  ∀ s t : State, atomicStep s = .next t →
    (s.sinkAnswers = t.sinkAnswers ∨ ∃ answer, s.sinkAnswers = answer :: t.sinkAnswers)
    ∧ ∃ ops : List PortOp, t.trace = s.trace ++ ops ∧ ops.length ≤ 1

/-! ### Whole-machine rules -/

/-- The invariant holds after reset. -/
def Obligations.ResetSatisfiesInvariant : Prop :=
  Inv State.reset

/-- Every step keeps the invariant: memories canonical, `HANDLE` is 1 exactly while a WRITE has its sink open, `ST` is `IDLE` or
`CLOSED` between commands, and every counter within its range (R28, R30 to R38). -/
def Obligations.StepKeepsInvariant : Prop :=
  ∀ s t : State, Inv s → step s = .next t → Inv t

/-- From a state that satisfies the invariant no step faults, and the only refusal is a WRITE that reads a pixel its image does
not hold (U7, U10, R287): no unwritten `SLB` entry is read, no sink operation is issued while no sink is open, and no
other chunk than one of 1 to 127 bytes is formed. -/
def Obligations.InvariantStepsDoNotStop : Prop :=
  ∀ s : State, Inv s → (∃ t, step s = .next t)
    ∨ (∃ i, step s = .refused (.imageNotPopulated i) ∧ Memory.get? s.img i = none)

/-- Every step keeps the canonical form of the memories, from whatever position. -/
def Obligations.StepKeepsMemoriesCanonical : Prop :=
  ∀ s t : State, memoriesOk s → step s = .next t → memoriesOk t

/-- R63, R82: the stream is never revisited. An action other than OPEN only appends to the selected stream, and no action
touches the stream of another selector. -/
def Obligations.ActionsOnlyAppendToStream : Prop :=
  ∀ s t : State, tick s = .next t →
    (∀ other : Word, other ≠ s.pathtok → State.stream t other = State.stream s other)
    ∧ (s.seq ≠ .opening → State.stream s s.pathtok <+: State.stream t s.pathtok)

/-- R77, R91: port operations and responses only accumulate, in order: no step takes one back. -/
def Obligations.StepOnlyAppendsToTrace : Prop :=
  ∀ s t : State, step s = .next t → s.trace <+: t.trace ∧ s.rsp <+: t.rsp

/-- R21 to R24, R44, R284: while a command runs, no action writes an operand latch, the image, or the descriptors to come. -/
def Obligations.ActionsKeepLatches : Prop :=
  ∀ s t : State, tick s = .next t →
    t.op = s.op ∧ t.w = s.w ∧ t.h = s.h ∧ t.pathtok = s.pathtok ∧ keepsOutside s t

/-- R213: the transitions of `ST` under the actions of a running command, from a state that satisfies the invariant. -/
def Obligations.WriterStateTransitions : Prop :=
  ∀ s t : State, Inv s → tick s = .next t →
    t.st = s.st
    ∨ ((s.st = .idle ∨ s.st = .closed) ∧ s.seq = .opening ∧ t.st = .opened)
    ∨ (s.st = .opened ∧ s.seq = .resolution ∧ t.st = .headerWritten)
    ∨ ((s.st = .headerWritten ∨ s.st = .rowWritten) ∧ s.seq = .chunking ∧ t.st = .rowWritten)
    ∨ (s.st = .rowWritten ∧ s.seq = .closing ∧ t.st = .closed)
    ∨ ((s.st = .opened ∨ s.st = .headerWritten ∨ s.st = .rowWritten) ∧ s.seq = .failing ∧ t.st = .closed)
end

