-- ==== Sys2Proof/Laws/Memory.lean ====
section
/-! SUPPORT. The sparse memories: read after write, the canonical form is kept, and the descriptor load of the scanline
buffer. -/

namespace Sys2Proof.Machine

variable {α : Type}

theorem get?_of_above {m : Memory α} : ∀ {a c : Nat}, Memory.above a m = true → c ≤ a → Memory.get? m c = none := by
  induction m with
  | nil => intro a c _ _; rfl
  | cons head m ih =>
    obtain ⟨b, v⟩ := head
    intro a c h hc
    simp only [Memory.above, Bool.and_eq_true, decide_eq_true_eq] at h
    rw [Memory.get?, if_neg (by omega)]
    exact ih h.2 (by omega)

theorem above_mono {m : Memory α} {a b : Nat} (h : Memory.above b m = true) (hab : a ≤ b) : Memory.above a m = true := by
  cases m with
  | nil => rfl
  | cons head m =>
    obtain ⟨c, v⟩ := head
    simp only [Memory.above, Bool.and_eq_true, decide_eq_true_eq] at h ⊢
    exact ⟨by omega, h.2⟩

theorem above_set {m : Memory α} {v : α} : ∀ {b a : Nat}, Memory.above b m = true → b < a →
    Memory.above b (Memory.set m a v) = true := by
  induction m with
  | nil => intro b a _ hab; simp [Memory.set, Memory.above, hab]
  | cons head m ih =>
    obtain ⟨c, u⟩ := head
    intro b a h hab
    simp only [Memory.above, Bool.and_eq_true, decide_eq_true_eq] at h
    simp only [Memory.set]
    split
    · rename_i hac
      simp only [Memory.above, Bool.and_eq_true, decide_eq_true_eq]
      exact ⟨hab, hac, h.2⟩
    · split
      · rename_i hac
        subst hac
        simp only [Memory.above, Bool.and_eq_true, decide_eq_true_eq]
        exact ⟨hab, h.2⟩
      · simp only [Memory.above, Bool.and_eq_true, decide_eq_true_eq]
        exact ⟨h.1, ih h.2 (by omega)⟩

/-- A write keeps the canonical form. -/
theorem wf_set {m : Memory α} (h : Memory.wf m = true) (a : Nat) (v : α) : Memory.wf (Memory.set m a v) = true := by
  cases m with
  | nil => rfl
  | cons head m =>
    obtain ⟨b, u⟩ := head
    simp only [Memory.wf] at h
    simp only [Memory.set]
    split
    · rename_i hab; simp only [Memory.wf, Memory.above, Bool.and_eq_true, decide_eq_true_eq]; exact ⟨hab, h⟩
    · split
      · rename_i hab; subst hab; exact h
      · exact above_set h (by omega)

/-- A read after a write to the same address. -/
@[simp] theorem get?_set_same (m : Memory α) (a : Nat) (v : α) : Memory.get? (Memory.set m a v) a = some v := by
  induction m with
  | nil => simp [Memory.set, Memory.get?]
  | cons head m ih =>
    obtain ⟨b, u⟩ := head
    simp only [Memory.set]
    split
    · simp [Memory.get?]
    · split
      · simp [Memory.get?]
      · rename_i h; simp [Memory.get?, h, ih]

/-- A write leaves every other address alone. -/
theorem get?_set_other {m : Memory α} {a c : Nat} (v : α) (h : c ≠ a) :
    Memory.get? (Memory.set m a v) c = Memory.get? m c := by
  induction m with
  | nil => simp [Memory.set, Memory.get?, h]
  | cons head m ih =>
    obtain ⟨b, u⟩ := head
    simp only [Memory.set]
    split
    · simp [Memory.get?, h]
    · split
      · rename_i hab; subst hab; simp [Memory.get?, h]
      · simp only [Memory.get?, ih]

/-- Two canonical memories that read alike are the same data. -/
theorem Memory_ext {m : Memory α} : ∀ {n : Memory α}, Memory.wf m = true → Memory.wf n = true →
    (∀ a, Memory.get? m a = Memory.get? n a) → m = n := by
  induction m with
  | nil =>
    intro n _ _ h
    cases n with
    | nil => rfl
    | cons head n => obtain ⟨b, v⟩ := head; have := h b; simp [Memory.get?] at this
  | cons head m ih =>
    obtain ⟨b, v⟩ := head
    intro n hm hn h
    cases n with
    | nil => have := h b; simp [Memory.get?] at this
    | cons head' n =>
      obtain ⟨c, u⟩ := head'
      simp only [Memory.wf] at hm hn
      have hbc : b = c := by
        rcases Nat.lt_trichotomy b c with hlt | heq | hgt
        · have := h b
          rw [Memory.get?, if_pos rfl, Memory.get?, if_neg (by omega), get?_of_above hn (by omega)] at this
          cases this
        · exact heq
        · have := h c
          rw [Memory.get?, if_neg (by omega), Memory.get?, if_pos rfl, get?_of_above hm (by omega)] at this
          cases this
      subst hbc
      have hvu : v = u := by have := h b; simpa [Memory.get?] using this
      subst hvu
      have wf_of_above : ∀ {k : Memory α}, Memory.above b k = true → Memory.wf k = true := by
        intro k hk
        cases k with
        | nil => rfl
        | cons hd k =>
          obtain ⟨d, _⟩ := hd
          simp only [Memory.above, Bool.and_eq_true, decide_eq_true_eq] at hk
          exact hk.2
      rw [ih (wf_of_above hm) (wf_of_above hn)]
      intro a
      by_cases hab : a = b
      · subst hab; rw [get?_of_above hm (Nat.le_refl _), get?_of_above hn (Nat.le_refl _)]
      · have := h a
        simpa [Memory.get?, hab] using this

/-! ### The scanline buffer -/

theorem wf_slbLoad (row : List Quad) : ∀ (slb : Memory Quad) (i : Nat), Memory.wf slb = true →
    Memory.wf (slbLoad slb i row) = true := by
  induction row with
  | nil => intro slb i h; exact h
  | cons q row ih => intro slb i h; exact ih _ _ (wf_set h i q)

/-- What `SLB` holds after the descriptor load: the row's entries in their places, every other entry as before (R28, R95). -/
theorem get?_slbLoad (row : List Quad) : ∀ (slb : Memory Quad) (i a : Nat),
    Memory.get? (slbLoad slb i row) a
      = if i ≤ a ∧ a < i + row.length then row[a - i]? else Memory.get? slb a := by
  induction row with
  | nil => intro slb i a; rw [slbLoad, if_neg (by simp)]
  | cons q row ih =>
    intro slb i a
    rw [slbLoad, ih]
    by_cases h1 : i + 1 ≤ a ∧ a < i + 1 + row.length
    · rw [if_pos h1, if_pos (by simp only [List.length_cons]; omega)]
      obtain ⟨k, rfl⟩ : ∃ k, a = i + 1 + k := ⟨a - (i + 1), by omega⟩
      rw [show i + 1 + k - (i + 1) = k by omega, show i + 1 + k - i = k + 1 by omega]
      rfl
    · rw [if_neg h1]
      by_cases h2 : a = i
      · subst h2
        rw [get?_set_same, if_pos (by simp only [List.length_cons]; omega)]
        simp
      · rw [get?_set_other q h2, if_neg (by simp only [List.length_cons]; omega)]

/-- Reading a run of written entries gives their plane bytes (R162). -/
theorem readPlane_eq (slb : Memory Quad) (p : BitVec 2) (n : Nat) : ∀ (i : Nat) (row : List Quad),
    row.length = n → i + n ≤ Config.slbCap → (∀ j, j < n → Memory.get? slb (i + j) = row[j]?) →
    readPlane slb p i n = .ok (row.map (planeByte p)) := by
  induction n with
  | zero => intro i row h _ _; rw [List.eq_nil_of_length_eq_zero h]; rfl
  | succ n ih =>
    intro i row hl hc h
    match row, hl with
    | q :: row, hl =>
      simp only [List.length_cons] at hl
      have h0 : Memory.get? slb i = some q := by simpa using h 0 (by omega)
      have hr : readPlane slb p (i + 1) n = .ok (row.map (planeByte p)) := by
        apply ih (i + 1) row (by omega) (by omega)
        intro j hj
        have := h (j + 1) (by omega)
        rw [show i + (j + 1) = i + 1 + j by omega] at this
        simpa using this
      simp only [readPlane, slbRead, if_pos (show i < Config.slbCap by omega), h0, hr, List.map_cons]

/-- Reading written entries never faults. -/
theorem readPlane_of_written (slb : Memory Quad) (p : BitVec 2) (n : Nat) : ∀ i, i + n ≤ Config.slbCap →
    (∀ j, i ≤ j → j < i + n → (Memory.get? slb j).isSome) → ∃ data, readPlane slb p i n = .ok data ∧ data.length = n := by
  induction n with
  | zero => intro i _ _; exact ⟨[], rfl, rfl⟩
  | succ n ih =>
    intro i hc h
    obtain ⟨q, hq⟩ := Option.isSome_iff_exists.mp (h i (Nat.le_refl _) (by omega))
    obtain ⟨data, hd, hl⟩ := ih (i + 1) (by omega) (fun j h1 h2 => h j (by omega) (by omega))
    refine ⟨planeByte p q :: data, ?_, by simp [hl]⟩
    simp only [readPlane, slbRead, if_pos (show i < Config.slbCap by omega), hq, hd]

end Sys2Proof.Machine
end

