-- ==== Sys2Proof/Laws/State.lean ====
section
/-! SUPPORT. One lemma for each field of the state and each named update of it, so that no proof unfolds a record update. -/

namespace Sys2Proof.Machine

/-! ### accepted -/

@[simp] theorem accepted_op (b : Byte) (later : List SinkAnswer) (s : State) : (accepted b later s).op = s.op := rfl
@[simp] theorem accepted_w (b : Byte) (later : List SinkAnswer) (s : State) : (accepted b later s).w = s.w := rfl
@[simp] theorem accepted_h (b : Byte) (later : List SinkAnswer) (s : State) : (accepted b later s).h = s.h := rfl
@[simp] theorem accepted_pathtok (b : Byte) (later : List SinkAnswer) (s : State) : (accepted b later s).pathtok = s.pathtok := rfl
@[simp] theorem accepted_pix (b : Byte) (later : List SinkAnswer) (s : State) : (accepted b later s).pix = s.pix := rfl
@[simp] theorem accepted_q (b : Byte) (later : List SinkAnswer) (s : State) : (accepted b later s).q = s.q := rfl
@[simp] theorem accepted_slb (b : Byte) (later : List SinkAnswer) (s : State) : (accepted b later s).slb = s.slb := rfl
@[simp] theorem accepted_st (b : Byte) (later : List SinkAnswer) (s : State) : (accepted b later s).st = s.st := rfl
@[simp] theorem accepted_y (b : Byte) (later : List SinkAnswer) (s : State) : (accepted b later s).y = s.y := rfl
@[simp] theorem accepted_x (b : Byte) (later : List SinkAnswer) (s : State) : (accepted b later s).x = s.x := rfl
@[simp] theorem accepted_p (b : Byte) (later : List SinkAnswer) (s : State) : (accepted b later s).p = s.p := rfl
@[simp] theorem accepted_rem (b : Byte) (later : List SinkAnswer) (s : State) : (accepted b later s).rem = s.rem := rfl
@[simp] theorem accepted_k (b : Byte) (later : List SinkAnswer) (s : State) : (accepted b later s).k = s.k := rfl
@[simp] theorem accepted_hp (b : Byte) (later : List SinkAnswer) (s : State) : (accepted b later s).hp = s.hp := rfl
@[simp] theorem accepted_err (b : Byte) (later : List SinkAnswer) (s : State) : (accepted b later s).err = s.err := rfl
@[simp] theorem accepted_handle (b : Byte) (later : List SinkAnswer) (s : State) : (accepted b later s).handle = s.handle := rfl
@[simp] theorem accepted_seq (b : Byte) (later : List SinkAnswer) (s : State) : (accepted b later s).seq = s.seq := rfl
@[simp] theorem accepted_mp (b : Byte) (later : List SinkAnswer) (s : State) : (accepted b later s).mp = s.mp := rfl
@[simp] theorem accepted_payload (b : Byte) (later : List SinkAnswer) (s : State) : (accepted b later s).payload = s.payload := rfl
@[simp] theorem accepted_draws (b : Byte) (later : List SinkAnswer) (s : State) : (accepted b later s).draws = s.draws := rfl
@[simp] theorem accepted_cmd (b : Byte) (later : List SinkAnswer) (s : State) : (accepted b later s).cmd = s.cmd := rfl
@[simp] theorem accepted_rsp (b : Byte) (later : List SinkAnswer) (s : State) : (accepted b later s).rsp = s.rsp := rfl
@[simp] theorem accepted_img (b : Byte) (later : List SinkAnswer) (s : State) : (accepted b later s).img = s.img := rfl
@[simp] theorem accepted_imgAnswers (b : Byte) (later : List SinkAnswer) (s : State) : (accepted b later s).imgAnswers = s.imgAnswers := rfl
@[simp] theorem accepted_streams (b : Byte) (later : List SinkAnswer) (s : State) : (accepted b later s).streams = Memory.set s.streams s.pathtok.toNat (s.stream s.pathtok ++ [b]) := rfl
@[simp] theorem accepted_sinkAnswers (b : Byte) (later : List SinkAnswer) (s : State) : (accepted b later s).sinkAnswers = later := rfl
@[simp] theorem accepted_resetReq (b : Byte) (later : List SinkAnswer) (s : State) : (accepted b later s).resetReq = s.resetReq := rfl
@[simp] theorem accepted_trace (b : Byte) (later : List SinkAnswer) (s : State) : (accepted b later s).trace = s.trace ++ [.memWrite b true] := rfl

/-! ### rejected -/

@[simp] theorem rejected_op (b : Byte) (landed : Bool) (later : List SinkAnswer) (s : State) : (rejected b landed later s).op = s.op := rfl
@[simp] theorem rejected_w (b : Byte) (landed : Bool) (later : List SinkAnswer) (s : State) : (rejected b landed later s).w = s.w := rfl
@[simp] theorem rejected_h (b : Byte) (landed : Bool) (later : List SinkAnswer) (s : State) : (rejected b landed later s).h = s.h := rfl
@[simp] theorem rejected_pathtok (b : Byte) (landed : Bool) (later : List SinkAnswer) (s : State) : (rejected b landed later s).pathtok = s.pathtok := rfl
@[simp] theorem rejected_pix (b : Byte) (landed : Bool) (later : List SinkAnswer) (s : State) : (rejected b landed later s).pix = s.pix := rfl
@[simp] theorem rejected_q (b : Byte) (landed : Bool) (later : List SinkAnswer) (s : State) : (rejected b landed later s).q = s.q := rfl
@[simp] theorem rejected_slb (b : Byte) (landed : Bool) (later : List SinkAnswer) (s : State) : (rejected b landed later s).slb = s.slb := rfl
@[simp] theorem rejected_st (b : Byte) (landed : Bool) (later : List SinkAnswer) (s : State) : (rejected b landed later s).st = s.st := rfl
@[simp] theorem rejected_y (b : Byte) (landed : Bool) (later : List SinkAnswer) (s : State) : (rejected b landed later s).y = s.y := rfl
@[simp] theorem rejected_x (b : Byte) (landed : Bool) (later : List SinkAnswer) (s : State) : (rejected b landed later s).x = s.x := rfl
@[simp] theorem rejected_p (b : Byte) (landed : Bool) (later : List SinkAnswer) (s : State) : (rejected b landed later s).p = s.p := rfl
@[simp] theorem rejected_rem (b : Byte) (landed : Bool) (later : List SinkAnswer) (s : State) : (rejected b landed later s).rem = s.rem := rfl
@[simp] theorem rejected_k (b : Byte) (landed : Bool) (later : List SinkAnswer) (s : State) : (rejected b landed later s).k = s.k := rfl
@[simp] theorem rejected_hp (b : Byte) (landed : Bool) (later : List SinkAnswer) (s : State) : (rejected b landed later s).hp = s.hp := rfl
@[simp] theorem rejected_err (b : Byte) (landed : Bool) (later : List SinkAnswer) (s : State) : (rejected b landed later s).err = s.err := rfl
@[simp] theorem rejected_handle (b : Byte) (landed : Bool) (later : List SinkAnswer) (s : State) : (rejected b landed later s).handle = s.handle := rfl
@[simp] theorem rejected_seq (b : Byte) (landed : Bool) (later : List SinkAnswer) (s : State) : (rejected b landed later s).seq = s.seq := rfl
@[simp] theorem rejected_mp (b : Byte) (landed : Bool) (later : List SinkAnswer) (s : State) : (rejected b landed later s).mp = s.mp := rfl
@[simp] theorem rejected_payload (b : Byte) (landed : Bool) (later : List SinkAnswer) (s : State) : (rejected b landed later s).payload = s.payload := rfl
@[simp] theorem rejected_draws (b : Byte) (landed : Bool) (later : List SinkAnswer) (s : State) : (rejected b landed later s).draws = s.draws := rfl
@[simp] theorem rejected_cmd (b : Byte) (landed : Bool) (later : List SinkAnswer) (s : State) : (rejected b landed later s).cmd = s.cmd := rfl
@[simp] theorem rejected_rsp (b : Byte) (landed : Bool) (later : List SinkAnswer) (s : State) : (rejected b landed later s).rsp = s.rsp := rfl
@[simp] theorem rejected_img (b : Byte) (landed : Bool) (later : List SinkAnswer) (s : State) : (rejected b landed later s).img = s.img := rfl
@[simp] theorem rejected_imgAnswers (b : Byte) (landed : Bool) (later : List SinkAnswer) (s : State) : (rejected b landed later s).imgAnswers = s.imgAnswers := rfl
@[simp] theorem rejected_streams (b : Byte) (landed : Bool) (later : List SinkAnswer) (s : State) : (rejected b landed later s).streams = if landed then Memory.set s.streams s.pathtok.toNat (s.stream s.pathtok ++ [b]) else s.streams := rfl
@[simp] theorem rejected_sinkAnswers (b : Byte) (landed : Bool) (later : List SinkAnswer) (s : State) : (rejected b landed later s).sinkAnswers = later := rfl
@[simp] theorem rejected_resetReq (b : Byte) (landed : Bool) (later : List SinkAnswer) (s : State) : (rejected b landed later s).resetReq = s.resetReq := rfl
@[simp] theorem rejected_trace (b : Byte) (landed : Bool) (later : List SinkAnswer) (s : State) : (rejected b landed later s).trace = s.trace ++ [.memWrite b false] := rfl

/-! ### openSink -/

@[simp] theorem openSink_op (later : List SinkAnswer) (s : State) : (openSink later s).op = s.op := rfl
@[simp] theorem openSink_w (later : List SinkAnswer) (s : State) : (openSink later s).w = s.w := rfl
@[simp] theorem openSink_h (later : List SinkAnswer) (s : State) : (openSink later s).h = s.h := rfl
@[simp] theorem openSink_pathtok (later : List SinkAnswer) (s : State) : (openSink later s).pathtok = s.pathtok := rfl
@[simp] theorem openSink_pix (later : List SinkAnswer) (s : State) : (openSink later s).pix = s.pix := rfl
@[simp] theorem openSink_q (later : List SinkAnswer) (s : State) : (openSink later s).q = s.q := rfl
@[simp] theorem openSink_slb (later : List SinkAnswer) (s : State) : (openSink later s).slb = s.slb := rfl
@[simp] theorem openSink_st (later : List SinkAnswer) (s : State) : (openSink later s).st = .opened := rfl
@[simp] theorem openSink_y (later : List SinkAnswer) (s : State) : (openSink later s).y = s.y := rfl
@[simp] theorem openSink_x (later : List SinkAnswer) (s : State) : (openSink later s).x = s.x := rfl
@[simp] theorem openSink_p (later : List SinkAnswer) (s : State) : (openSink later s).p = s.p := rfl
@[simp] theorem openSink_rem (later : List SinkAnswer) (s : State) : (openSink later s).rem = s.rem := rfl
@[simp] theorem openSink_k (later : List SinkAnswer) (s : State) : (openSink later s).k = s.k := rfl
@[simp] theorem openSink_hp (later : List SinkAnswer) (s : State) : (openSink later s).hp = s.hp := rfl
@[simp] theorem openSink_err (later : List SinkAnswer) (s : State) : (openSink later s).err = s.err := rfl
@[simp] theorem openSink_handle (later : List SinkAnswer) (s : State) : (openSink later s).handle = true := rfl
@[simp] theorem openSink_seq (later : List SinkAnswer) (s : State) : (openSink later s).seq = s.seq := rfl
@[simp] theorem openSink_mp (later : List SinkAnswer) (s : State) : (openSink later s).mp = s.mp := rfl
@[simp] theorem openSink_payload (later : List SinkAnswer) (s : State) : (openSink later s).payload = s.payload := rfl
@[simp] theorem openSink_draws (later : List SinkAnswer) (s : State) : (openSink later s).draws = s.draws := rfl
@[simp] theorem openSink_cmd (later : List SinkAnswer) (s : State) : (openSink later s).cmd = s.cmd := rfl
@[simp] theorem openSink_rsp (later : List SinkAnswer) (s : State) : (openSink later s).rsp = s.rsp := rfl
@[simp] theorem openSink_img (later : List SinkAnswer) (s : State) : (openSink later s).img = s.img := rfl
@[simp] theorem openSink_imgAnswers (later : List SinkAnswer) (s : State) : (openSink later s).imgAnswers = s.imgAnswers := rfl
@[simp] theorem openSink_streams (later : List SinkAnswer) (s : State) : (openSink later s).streams = Memory.set s.streams s.pathtok.toNat [] := rfl
@[simp] theorem openSink_sinkAnswers (later : List SinkAnswer) (s : State) : (openSink later s).sinkAnswers = later := rfl
@[simp] theorem openSink_resetReq (later : List SinkAnswer) (s : State) : (openSink later s).resetReq = s.resetReq := rfl
@[simp] theorem openSink_trace (later : List SinkAnswer) (s : State) : (openSink later s).trace = s.trace ++ [.sinkOpen s.pathtok true] := rfl

/-! ### openRefused -/

@[simp] theorem openRefused_op (later : List SinkAnswer) (s : State) : (openRefused later s).op = s.op := rfl
@[simp] theorem openRefused_w (later : List SinkAnswer) (s : State) : (openRefused later s).w = s.w := rfl
@[simp] theorem openRefused_h (later : List SinkAnswer) (s : State) : (openRefused later s).h = s.h := rfl
@[simp] theorem openRefused_pathtok (later : List SinkAnswer) (s : State) : (openRefused later s).pathtok = s.pathtok := rfl
@[simp] theorem openRefused_pix (later : List SinkAnswer) (s : State) : (openRefused later s).pix = s.pix := rfl
@[simp] theorem openRefused_q (later : List SinkAnswer) (s : State) : (openRefused later s).q = s.q := rfl
@[simp] theorem openRefused_slb (later : List SinkAnswer) (s : State) : (openRefused later s).slb = s.slb := rfl
@[simp] theorem openRefused_st (later : List SinkAnswer) (s : State) : (openRefused later s).st = s.st := rfl
@[simp] theorem openRefused_y (later : List SinkAnswer) (s : State) : (openRefused later s).y = s.y := rfl
@[simp] theorem openRefused_x (later : List SinkAnswer) (s : State) : (openRefused later s).x = s.x := rfl
@[simp] theorem openRefused_p (later : List SinkAnswer) (s : State) : (openRefused later s).p = s.p := rfl
@[simp] theorem openRefused_rem (later : List SinkAnswer) (s : State) : (openRefused later s).rem = s.rem := rfl
@[simp] theorem openRefused_k (later : List SinkAnswer) (s : State) : (openRefused later s).k = s.k := rfl
@[simp] theorem openRefused_hp (later : List SinkAnswer) (s : State) : (openRefused later s).hp = s.hp := rfl
@[simp] theorem openRefused_err (later : List SinkAnswer) (s : State) : (openRefused later s).err = s.err := rfl
@[simp] theorem openRefused_handle (later : List SinkAnswer) (s : State) : (openRefused later s).handle = s.handle := rfl
@[simp] theorem openRefused_seq (later : List SinkAnswer) (s : State) : (openRefused later s).seq = s.seq := rfl
@[simp] theorem openRefused_mp (later : List SinkAnswer) (s : State) : (openRefused later s).mp = s.mp := rfl
@[simp] theorem openRefused_payload (later : List SinkAnswer) (s : State) : (openRefused later s).payload = s.payload := rfl
@[simp] theorem openRefused_draws (later : List SinkAnswer) (s : State) : (openRefused later s).draws = s.draws := rfl
@[simp] theorem openRefused_cmd (later : List SinkAnswer) (s : State) : (openRefused later s).cmd = s.cmd := rfl
@[simp] theorem openRefused_rsp (later : List SinkAnswer) (s : State) : (openRefused later s).rsp = s.rsp := rfl
@[simp] theorem openRefused_img (later : List SinkAnswer) (s : State) : (openRefused later s).img = s.img := rfl
@[simp] theorem openRefused_imgAnswers (later : List SinkAnswer) (s : State) : (openRefused later s).imgAnswers = s.imgAnswers := rfl
@[simp] theorem openRefused_streams (later : List SinkAnswer) (s : State) : (openRefused later s).streams = s.streams := rfl
@[simp] theorem openRefused_sinkAnswers (later : List SinkAnswer) (s : State) : (openRefused later s).sinkAnswers = later := rfl
@[simp] theorem openRefused_resetReq (later : List SinkAnswer) (s : State) : (openRefused later s).resetReq = s.resetReq := rfl
@[simp] theorem openRefused_trace (later : List SinkAnswer) (s : State) : (openRefused later s).trace = s.trace ++ [.sinkOpen s.pathtok false] := rfl
@[simp] theorem openRefused_stream (later : List SinkAnswer) (s : State) (tok : Word) : State.stream (openRefused later s) tok = State.stream s tok := rfl

/-! ### closeSink -/

@[simp] theorem closeSink_op (s : State) : (closeSink s).op = s.op := rfl
@[simp] theorem closeSink_w (s : State) : (closeSink s).w = s.w := rfl
@[simp] theorem closeSink_h (s : State) : (closeSink s).h = s.h := rfl
@[simp] theorem closeSink_pathtok (s : State) : (closeSink s).pathtok = s.pathtok := rfl
@[simp] theorem closeSink_pix (s : State) : (closeSink s).pix = s.pix := rfl
@[simp] theorem closeSink_q (s : State) : (closeSink s).q = s.q := rfl
@[simp] theorem closeSink_slb (s : State) : (closeSink s).slb = s.slb := rfl
@[simp] theorem closeSink_st (s : State) : (closeSink s).st = .closed := rfl
@[simp] theorem closeSink_y (s : State) : (closeSink s).y = s.y := rfl
@[simp] theorem closeSink_x (s : State) : (closeSink s).x = s.x := rfl
@[simp] theorem closeSink_p (s : State) : (closeSink s).p = s.p := rfl
@[simp] theorem closeSink_rem (s : State) : (closeSink s).rem = s.rem := rfl
@[simp] theorem closeSink_k (s : State) : (closeSink s).k = s.k := rfl
@[simp] theorem closeSink_hp (s : State) : (closeSink s).hp = s.hp := rfl
@[simp] theorem closeSink_err (s : State) : (closeSink s).err = s.err := rfl
@[simp] theorem closeSink_handle (s : State) : (closeSink s).handle = false := rfl
@[simp] theorem closeSink_seq (s : State) : (closeSink s).seq = s.seq := rfl
@[simp] theorem closeSink_mp (s : State) : (closeSink s).mp = s.mp := rfl
@[simp] theorem closeSink_payload (s : State) : (closeSink s).payload = s.payload := rfl
@[simp] theorem closeSink_draws (s : State) : (closeSink s).draws = s.draws := rfl
@[simp] theorem closeSink_cmd (s : State) : (closeSink s).cmd = s.cmd := rfl
@[simp] theorem closeSink_rsp (s : State) : (closeSink s).rsp = s.rsp := rfl
@[simp] theorem closeSink_img (s : State) : (closeSink s).img = s.img := rfl
@[simp] theorem closeSink_imgAnswers (s : State) : (closeSink s).imgAnswers = s.imgAnswers := rfl
@[simp] theorem closeSink_streams (s : State) : (closeSink s).streams = s.streams := rfl
@[simp] theorem closeSink_sinkAnswers (s : State) : (closeSink s).sinkAnswers = s.sinkAnswers := rfl
@[simp] theorem closeSink_resetReq (s : State) : (closeSink s).resetReq = s.resetReq := rfl
@[simp] theorem closeSink_trace (s : State) : (closeSink s).trace = s.trace ++ [.sinkClose] := rfl
@[simp] theorem closeSink_stream (s : State) (tok : Word) : State.stream (closeSink s) tok = State.stream s tok := rfl

/-! ### retire -/

@[simp] theorem retire_op (s : State) : (retire s).op = s.op := rfl
@[simp] theorem retire_w (s : State) : (retire s).w = s.w := rfl
@[simp] theorem retire_h (s : State) : (retire s).h = s.h := rfl
@[simp] theorem retire_pathtok (s : State) : (retire s).pathtok = s.pathtok := rfl
@[simp] theorem retire_pix (s : State) : (retire s).pix = Config.leftPixel s.draws := rfl
@[simp] theorem retire_q (s : State) : (retire s).q = Config.leftQuad s.draws := rfl
@[simp] theorem retire_slb (s : State) : (retire s).slb = if s.op = Config.opQuant then s.slb else [] := rfl
@[simp] theorem retire_st (s : State) : (retire s).st = s.st := rfl
@[simp] theorem retire_y (s : State) : (retire s).y = s.y := rfl
@[simp] theorem retire_x (s : State) : (retire s).x = s.x := rfl
@[simp] theorem retire_p (s : State) : (retire s).p = s.p := rfl
@[simp] theorem retire_rem (s : State) : (retire s).rem = s.rem := rfl
@[simp] theorem retire_k (s : State) : (retire s).k = s.k := rfl
@[simp] theorem retire_hp (s : State) : (retire s).hp = s.hp := rfl
@[simp] theorem retire_err (s : State) : (retire s).err = s.err := rfl
@[simp] theorem retire_handle (s : State) : (retire s).handle = s.handle := rfl
@[simp] theorem retire_seq (s : State) : (retire s).seq = s.seq := rfl
@[simp] theorem retire_mp (s : State) : (retire s).mp = s.mp := rfl
@[simp] theorem retire_payload (s : State) : (retire s).payload = s.payload := rfl
@[simp] theorem retire_draws (s : State) : (retire s).draws = s.draws + 1 := rfl
@[simp] theorem retire_cmd (s : State) : (retire s).cmd = s.cmd := rfl
@[simp] theorem retire_rsp (s : State) : (retire s).rsp = s.rsp := rfl
@[simp] theorem retire_img (s : State) : (retire s).img = s.img := rfl
@[simp] theorem retire_imgAnswers (s : State) : (retire s).imgAnswers = s.imgAnswers := rfl
@[simp] theorem retire_streams (s : State) : (retire s).streams = s.streams := rfl
@[simp] theorem retire_sinkAnswers (s : State) : (retire s).sinkAnswers = s.sinkAnswers := rfl
@[simp] theorem retire_resetReq (s : State) : (retire s).resetReq = s.resetReq := rfl
@[simp] theorem retire_trace (s : State) : (retire s).trace = s.trace := rfl
@[simp] theorem retire_stream (s : State) (tok : Word) : State.stream (retire s) tok = State.stream s tok := rfl

/-! ### sendResponse -/

@[simp] theorem sendResponse_op (status : Status) (payload : List Byte) (s : State) : (sendResponse status payload s).op = s.op := rfl
@[simp] theorem sendResponse_w (status : Status) (payload : List Byte) (s : State) : (sendResponse status payload s).w = s.w := rfl
@[simp] theorem sendResponse_h (status : Status) (payload : List Byte) (s : State) : (sendResponse status payload s).h = s.h := rfl
@[simp] theorem sendResponse_pathtok (status : Status) (payload : List Byte) (s : State) : (sendResponse status payload s).pathtok = s.pathtok := rfl
@[simp] theorem sendResponse_pix (status : Status) (payload : List Byte) (s : State) : (sendResponse status payload s).pix = s.pix := rfl
@[simp] theorem sendResponse_q (status : Status) (payload : List Byte) (s : State) : (sendResponse status payload s).q = s.q := rfl
@[simp] theorem sendResponse_slb (status : Status) (payload : List Byte) (s : State) : (sendResponse status payload s).slb = s.slb := rfl
@[simp] theorem sendResponse_st (status : Status) (payload : List Byte) (s : State) : (sendResponse status payload s).st = s.st := rfl
@[simp] theorem sendResponse_y (status : Status) (payload : List Byte) (s : State) : (sendResponse status payload s).y = s.y := rfl
@[simp] theorem sendResponse_x (status : Status) (payload : List Byte) (s : State) : (sendResponse status payload s).x = s.x := rfl
@[simp] theorem sendResponse_p (status : Status) (payload : List Byte) (s : State) : (sendResponse status payload s).p = s.p := rfl
@[simp] theorem sendResponse_rem (status : Status) (payload : List Byte) (s : State) : (sendResponse status payload s).rem = s.rem := rfl
@[simp] theorem sendResponse_k (status : Status) (payload : List Byte) (s : State) : (sendResponse status payload s).k = s.k := rfl
@[simp] theorem sendResponse_hp (status : Status) (payload : List Byte) (s : State) : (sendResponse status payload s).hp = s.hp := rfl
@[simp] theorem sendResponse_err (status : Status) (payload : List Byte) (s : State) : (sendResponse status payload s).err = status := rfl
@[simp] theorem sendResponse_handle (status : Status) (payload : List Byte) (s : State) : (sendResponse status payload s).handle = s.handle := rfl
@[simp] theorem sendResponse_seq (status : Status) (payload : List Byte) (s : State) : (sendResponse status payload s).seq = .idle := rfl
@[simp] theorem sendResponse_mp (status : Status) (payload : List Byte) (s : State) : (sendResponse status payload s).mp = s.mp := rfl
@[simp] theorem sendResponse_payload (status : Status) (payload : List Byte) (s : State) : (sendResponse status payload s).payload = [] := rfl
@[simp] theorem sendResponse_draws (status : Status) (payload : List Byte) (s : State) : (sendResponse status payload s).draws = s.draws := rfl
@[simp] theorem sendResponse_cmd (status : Status) (payload : List Byte) (s : State) : (sendResponse status payload s).cmd = s.cmd := rfl
@[simp] theorem sendResponse_rsp (status : Status) (payload : List Byte) (s : State) : (sendResponse status payload s).rsp = s.rsp ++ [responseBytes status payload] := rfl
@[simp] theorem sendResponse_img (status : Status) (payload : List Byte) (s : State) : (sendResponse status payload s).img = s.img := rfl
@[simp] theorem sendResponse_imgAnswers (status : Status) (payload : List Byte) (s : State) : (sendResponse status payload s).imgAnswers = s.imgAnswers := rfl
@[simp] theorem sendResponse_streams (status : Status) (payload : List Byte) (s : State) : (sendResponse status payload s).streams = s.streams := rfl
@[simp] theorem sendResponse_sinkAnswers (status : Status) (payload : List Byte) (s : State) : (sendResponse status payload s).sinkAnswers = s.sinkAnswers := rfl
@[simp] theorem sendResponse_resetReq (status : Status) (payload : List Byte) (s : State) : (sendResponse status payload s).resetReq = s.resetReq := rfl
@[simp] theorem sendResponse_trace (status : Status) (payload : List Byte) (s : State) : (sendResponse status payload s).trace = s.trace ++ [.respond (responseBytes status payload)] := rfl
@[simp] theorem sendResponse_stream (status : Status) (payload : List Byte) (s : State) (tok : Word) : State.stream (sendResponse status payload s) tok = State.stream s tok := rfl

/-! ### enterRows -/

@[simp] theorem enterRows_op (s : State) : (enterRows s).op = s.op := rfl
@[simp] theorem enterRows_w (s : State) : (enterRows s).w = s.w := rfl
@[simp] theorem enterRows_h (s : State) : (enterRows s).h = s.h := rfl
@[simp] theorem enterRows_pathtok (s : State) : (enterRows s).pathtok = s.pathtok := rfl
@[simp] theorem enterRows_pix (s : State) : (enterRows s).pix = s.pix := rfl
@[simp] theorem enterRows_q (s : State) : (enterRows s).q = s.q := rfl
@[simp] theorem enterRows_slb (s : State) : (enterRows s).slb = s.slb := rfl
@[simp] theorem enterRows_st (s : State) : (enterRows s).st = .headerWritten := rfl
@[simp] theorem enterRows_y (s : State) : (enterRows s).y = s.h - 1#16 := rfl
@[simp] theorem enterRows_x (s : State) : (enterRows s).x = 0#16 := rfl
@[simp] theorem enterRows_p (s : State) : (enterRows s).p = s.p := rfl
@[simp] theorem enterRows_rem (s : State) : (enterRows s).rem = s.rem := rfl
@[simp] theorem enterRows_k (s : State) : (enterRows s).k = s.k := rfl
@[simp] theorem enterRows_hp (s : State) : (enterRows s).hp = s.hp := rfl
@[simp] theorem enterRows_err (s : State) : (enterRows s).err = s.err := rfl
@[simp] theorem enterRows_handle (s : State) : (enterRows s).handle = s.handle := rfl
@[simp] theorem enterRows_seq (s : State) : (enterRows s).seq = .quantizing := rfl
@[simp] theorem enterRows_mp (s : State) : (enterRows s).mp = s.mp := rfl
@[simp] theorem enterRows_payload (s : State) : (enterRows s).payload = s.payload := rfl
@[simp] theorem enterRows_draws (s : State) : (enterRows s).draws = s.draws := rfl
@[simp] theorem enterRows_cmd (s : State) : (enterRows s).cmd = s.cmd := rfl
@[simp] theorem enterRows_rsp (s : State) : (enterRows s).rsp = s.rsp := rfl
@[simp] theorem enterRows_img (s : State) : (enterRows s).img = s.img := rfl
@[simp] theorem enterRows_imgAnswers (s : State) : (enterRows s).imgAnswers = s.imgAnswers := rfl
@[simp] theorem enterRows_streams (s : State) : (enterRows s).streams = s.streams := rfl
@[simp] theorem enterRows_sinkAnswers (s : State) : (enterRows s).sinkAnswers = s.sinkAnswers := rfl
@[simp] theorem enterRows_resetReq (s : State) : (enterRows s).resetReq = s.resetReq := rfl
@[simp] theorem enterRows_trace (s : State) : (enterRows s).trace = s.trace := rfl
@[simp] theorem enterRows_stream (s : State) (tok : Word) : State.stream (enterRows s) tok = State.stream s tok := rfl

/-! ### enterPlane -/

@[simp] theorem enterPlane_op (s : State) : (enterPlane s).op = s.op := rfl
@[simp] theorem enterPlane_w (s : State) : (enterPlane s).w = s.w := rfl
@[simp] theorem enterPlane_h (s : State) : (enterPlane s).h = s.h := rfl
@[simp] theorem enterPlane_pathtok (s : State) : (enterPlane s).pathtok = s.pathtok := rfl
@[simp] theorem enterPlane_pix (s : State) : (enterPlane s).pix = s.pix := rfl
@[simp] theorem enterPlane_q (s : State) : (enterPlane s).q = s.q := rfl
@[simp] theorem enterPlane_slb (s : State) : (enterPlane s).slb = s.slb := rfl
@[simp] theorem enterPlane_st (s : State) : (enterPlane s).st = s.st := rfl
@[simp] theorem enterPlane_y (s : State) : (enterPlane s).y = s.y := rfl
@[simp] theorem enterPlane_x (s : State) : (enterPlane s).x = 0#16 := rfl
@[simp] theorem enterPlane_p (s : State) : (enterPlane s).p = s.p := rfl
@[simp] theorem enterPlane_rem (s : State) : (enterPlane s).rem = s.w := rfl
@[simp] theorem enterPlane_k (s : State) : (enterPlane s).k = 0#7 := rfl
@[simp] theorem enterPlane_hp (s : State) : (enterPlane s).hp = s.hp := rfl
@[simp] theorem enterPlane_err (s : State) : (enterPlane s).err = s.err := rfl
@[simp] theorem enterPlane_handle (s : State) : (enterPlane s).handle = s.handle := rfl
@[simp] theorem enterPlane_seq (s : State) : (enterPlane s).seq = .chunking := rfl
@[simp] theorem enterPlane_mp (s : State) : (enterPlane s).mp = s.mp := rfl
@[simp] theorem enterPlane_payload (s : State) : (enterPlane s).payload = s.payload := rfl
@[simp] theorem enterPlane_draws (s : State) : (enterPlane s).draws = s.draws := rfl
@[simp] theorem enterPlane_cmd (s : State) : (enterPlane s).cmd = s.cmd := rfl
@[simp] theorem enterPlane_rsp (s : State) : (enterPlane s).rsp = s.rsp := rfl
@[simp] theorem enterPlane_img (s : State) : (enterPlane s).img = s.img := rfl
@[simp] theorem enterPlane_imgAnswers (s : State) : (enterPlane s).imgAnswers = s.imgAnswers := rfl
@[simp] theorem enterPlane_streams (s : State) : (enterPlane s).streams = s.streams := rfl
@[simp] theorem enterPlane_sinkAnswers (s : State) : (enterPlane s).sinkAnswers = s.sinkAnswers := rfl
@[simp] theorem enterPlane_resetReq (s : State) : (enterPlane s).resetReq = s.resetReq := rfl
@[simp] theorem enterPlane_trace (s : State) : (enterPlane s).trace = s.trace := rfl
@[simp] theorem enterPlane_stream (s : State) (tok : Word) : State.stream (enterPlane s) tok = State.stream s tok := rfl

/-! ### acceptEncsl -/

@[simp] theorem acceptEncsl_op (w : Half) (row : List Quad) (s : State) : (acceptEncsl w row s).op = Config.opEncsl := rfl
@[simp] theorem acceptEncsl_w (w : Half) (row : List Quad) (s : State) : (acceptEncsl w row s).w = w := rfl
@[simp] theorem acceptEncsl_h (w : Half) (row : List Quad) (s : State) : (acceptEncsl w row s).h = s.h := rfl
@[simp] theorem acceptEncsl_pathtok (w : Half) (row : List Quad) (s : State) : (acceptEncsl w row s).pathtok = s.pathtok := rfl
@[simp] theorem acceptEncsl_pix (w : Half) (row : List Quad) (s : State) : (acceptEncsl w row s).pix = s.pix := rfl
@[simp] theorem acceptEncsl_q (w : Half) (row : List Quad) (s : State) : (acceptEncsl w row s).q = s.q := rfl
@[simp] theorem acceptEncsl_slb (w : Half) (row : List Quad) (s : State) : (acceptEncsl w row s).slb = slbLoad s.slb 0 row := rfl
@[simp] theorem acceptEncsl_st (w : Half) (row : List Quad) (s : State) : (acceptEncsl w row s).st = s.st := rfl
@[simp] theorem acceptEncsl_y (w : Half) (row : List Quad) (s : State) : (acceptEncsl w row s).y = s.y := rfl
@[simp] theorem acceptEncsl_x (w : Half) (row : List Quad) (s : State) : (acceptEncsl w row s).x = s.x := rfl
@[simp] theorem acceptEncsl_p (w : Half) (row : List Quad) (s : State) : (acceptEncsl w row s).p = s.p := rfl
@[simp] theorem acceptEncsl_rem (w : Half) (row : List Quad) (s : State) : (acceptEncsl w row s).rem = s.rem := rfl
@[simp] theorem acceptEncsl_k (w : Half) (row : List Quad) (s : State) : (acceptEncsl w row s).k = s.k := rfl
@[simp] theorem acceptEncsl_hp (w : Half) (row : List Quad) (s : State) : (acceptEncsl w row s).hp = s.hp := rfl
@[simp] theorem acceptEncsl_err (w : Half) (row : List Quad) (s : State) : (acceptEncsl w row s).err = s.err := rfl
@[simp] theorem acceptEncsl_handle (w : Half) (row : List Quad) (s : State) : (acceptEncsl w row s).handle = s.handle := rfl
@[simp] theorem acceptEncsl_seq (w : Half) (row : List Quad) (s : State) : (acceptEncsl w row s).seq = s.seq := rfl
@[simp] theorem acceptEncsl_mp (w : Half) (row : List Quad) (s : State) : (acceptEncsl w row s).mp = s.mp := rfl
@[simp] theorem acceptEncsl_payload (w : Half) (row : List Quad) (s : State) : (acceptEncsl w row s).payload = [] := rfl
@[simp] theorem acceptEncsl_draws (w : Half) (row : List Quad) (s : State) : (acceptEncsl w row s).draws = s.draws := rfl
@[simp] theorem acceptEncsl_cmd (w : Half) (row : List Quad) (s : State) : (acceptEncsl w row s).cmd = s.cmd := rfl
@[simp] theorem acceptEncsl_rsp (w : Half) (row : List Quad) (s : State) : (acceptEncsl w row s).rsp = s.rsp := rfl
@[simp] theorem acceptEncsl_img (w : Half) (row : List Quad) (s : State) : (acceptEncsl w row s).img = s.img := rfl
@[simp] theorem acceptEncsl_imgAnswers (w : Half) (row : List Quad) (s : State) : (acceptEncsl w row s).imgAnswers = s.imgAnswers := rfl
@[simp] theorem acceptEncsl_streams (w : Half) (row : List Quad) (s : State) : (acceptEncsl w row s).streams = s.streams := rfl
@[simp] theorem acceptEncsl_sinkAnswers (w : Half) (row : List Quad) (s : State) : (acceptEncsl w row s).sinkAnswers = s.sinkAnswers := rfl
@[simp] theorem acceptEncsl_resetReq (w : Half) (row : List Quad) (s : State) : (acceptEncsl w row s).resetReq = s.resetReq := rfl
@[simp] theorem acceptEncsl_trace (w : Half) (row : List Quad) (s : State) : (acceptEncsl w row s).trace = s.trace := rfl
@[simp] theorem acceptEncsl_stream (w : Half) (row : List Quad) (s : State) (tok : Word) : State.stream (acceptEncsl w row s) tok = State.stream s tok := rfl

/-! ### wrote -/

@[simp] theorem wrote_op (bytes : List Byte) (later : List SinkAnswer) (s : State) : (wrote bytes later s).op = s.op := rfl
@[simp] theorem wrote_w (bytes : List Byte) (later : List SinkAnswer) (s : State) : (wrote bytes later s).w = s.w := rfl
@[simp] theorem wrote_h (bytes : List Byte) (later : List SinkAnswer) (s : State) : (wrote bytes later s).h = s.h := rfl
@[simp] theorem wrote_pathtok (bytes : List Byte) (later : List SinkAnswer) (s : State) : (wrote bytes later s).pathtok = s.pathtok := rfl
@[simp] theorem wrote_pix (bytes : List Byte) (later : List SinkAnswer) (s : State) : (wrote bytes later s).pix = s.pix := rfl
@[simp] theorem wrote_q (bytes : List Byte) (later : List SinkAnswer) (s : State) : (wrote bytes later s).q = s.q := rfl
@[simp] theorem wrote_slb (bytes : List Byte) (later : List SinkAnswer) (s : State) : (wrote bytes later s).slb = s.slb := rfl
@[simp] theorem wrote_st (bytes : List Byte) (later : List SinkAnswer) (s : State) : (wrote bytes later s).st = s.st := rfl
@[simp] theorem wrote_y (bytes : List Byte) (later : List SinkAnswer) (s : State) : (wrote bytes later s).y = s.y := rfl
@[simp] theorem wrote_x (bytes : List Byte) (later : List SinkAnswer) (s : State) : (wrote bytes later s).x = s.x := rfl
@[simp] theorem wrote_p (bytes : List Byte) (later : List SinkAnswer) (s : State) : (wrote bytes later s).p = s.p := rfl
@[simp] theorem wrote_rem (bytes : List Byte) (later : List SinkAnswer) (s : State) : (wrote bytes later s).rem = s.rem := rfl
@[simp] theorem wrote_k (bytes : List Byte) (later : List SinkAnswer) (s : State) : (wrote bytes later s).k = s.k := rfl
@[simp] theorem wrote_hp (bytes : List Byte) (later : List SinkAnswer) (s : State) : (wrote bytes later s).hp = s.hp := rfl
@[simp] theorem wrote_err (bytes : List Byte) (later : List SinkAnswer) (s : State) : (wrote bytes later s).err = s.err := rfl
@[simp] theorem wrote_handle (bytes : List Byte) (later : List SinkAnswer) (s : State) : (wrote bytes later s).handle = s.handle := rfl
@[simp] theorem wrote_seq (bytes : List Byte) (later : List SinkAnswer) (s : State) : (wrote bytes later s).seq = s.seq := rfl
@[simp] theorem wrote_mp (bytes : List Byte) (later : List SinkAnswer) (s : State) : (wrote bytes later s).mp = s.mp := rfl
@[simp] theorem wrote_payload (bytes : List Byte) (later : List SinkAnswer) (s : State) : (wrote bytes later s).payload = s.payload := rfl
@[simp] theorem wrote_draws (bytes : List Byte) (later : List SinkAnswer) (s : State) : (wrote bytes later s).draws = s.draws := rfl
@[simp] theorem wrote_cmd (bytes : List Byte) (later : List SinkAnswer) (s : State) : (wrote bytes later s).cmd = s.cmd := rfl
@[simp] theorem wrote_rsp (bytes : List Byte) (later : List SinkAnswer) (s : State) : (wrote bytes later s).rsp = s.rsp := rfl
@[simp] theorem wrote_img (bytes : List Byte) (later : List SinkAnswer) (s : State) : (wrote bytes later s).img = s.img := rfl
@[simp] theorem wrote_imgAnswers (bytes : List Byte) (later : List SinkAnswer) (s : State) : (wrote bytes later s).imgAnswers = s.imgAnswers := rfl
@[simp] theorem wrote_sinkAnswers (bytes : List Byte) (later : List SinkAnswer) (s : State) : (wrote bytes later s).sinkAnswers = later := rfl
@[simp] theorem wrote_resetReq (bytes : List Byte) (later : List SinkAnswer) (s : State) : (wrote bytes later s).resetReq = s.resetReq := rfl
@[simp] theorem wrote_trace (bytes : List Byte) (later : List SinkAnswer) (s : State) : (wrote bytes later s).trace = s.trace ++ acceptedWrites bytes := rfl

/-! ### acceptQuant -/

@[simp] theorem acceptQuant_op (red green blue : F64) (s : State) : (acceptQuant red green blue s).op = Config.opQuant := rfl
@[simp] theorem acceptQuant_w (red green blue : F64) (s : State) : (acceptQuant red green blue s).w = s.w := rfl
@[simp] theorem acceptQuant_h (red green blue : F64) (s : State) : (acceptQuant red green blue s).h = s.h := rfl
@[simp] theorem acceptQuant_pathtok (red green blue : F64) (s : State) : (acceptQuant red green blue s).pathtok = s.pathtok := rfl
@[simp] theorem acceptQuant_pix (red green blue : F64) (s : State) : (acceptQuant red green blue s).pix = ⟨red, green, blue⟩ := rfl
@[simp] theorem acceptQuant_q (red green blue : F64) (s : State) : (acceptQuant red green blue s).q = s.q := rfl
@[simp] theorem acceptQuant_slb (red green blue : F64) (s : State) : (acceptQuant red green blue s).slb = s.slb := rfl
@[simp] theorem acceptQuant_st (red green blue : F64) (s : State) : (acceptQuant red green blue s).st = s.st := rfl
@[simp] theorem acceptQuant_y (red green blue : F64) (s : State) : (acceptQuant red green blue s).y = s.y := rfl
@[simp] theorem acceptQuant_x (red green blue : F64) (s : State) : (acceptQuant red green blue s).x = s.x := rfl
@[simp] theorem acceptQuant_p (red green blue : F64) (s : State) : (acceptQuant red green blue s).p = s.p := rfl
@[simp] theorem acceptQuant_rem (red green blue : F64) (s : State) : (acceptQuant red green blue s).rem = s.rem := rfl
@[simp] theorem acceptQuant_k (red green blue : F64) (s : State) : (acceptQuant red green blue s).k = s.k := rfl
@[simp] theorem acceptQuant_hp (red green blue : F64) (s : State) : (acceptQuant red green blue s).hp = s.hp := rfl
@[simp] theorem acceptQuant_err (red green blue : F64) (s : State) : (acceptQuant red green blue s).err = s.err := rfl
@[simp] theorem acceptQuant_handle (red green blue : F64) (s : State) : (acceptQuant red green blue s).handle = s.handle := rfl
@[simp] theorem acceptQuant_seq (red green blue : F64) (s : State) : (acceptQuant red green blue s).seq = s.seq := rfl
@[simp] theorem acceptQuant_mp (red green blue : F64) (s : State) : (acceptQuant red green blue s).mp = s.mp := rfl
@[simp] theorem acceptQuant_payload (red green blue : F64) (s : State) : (acceptQuant red green blue s).payload = s.payload := rfl
@[simp] theorem acceptQuant_draws (red green blue : F64) (s : State) : (acceptQuant red green blue s).draws = s.draws := rfl
@[simp] theorem acceptQuant_cmd (red green blue : F64) (s : State) : (acceptQuant red green blue s).cmd = s.cmd := rfl
@[simp] theorem acceptQuant_rsp (red green blue : F64) (s : State) : (acceptQuant red green blue s).rsp = s.rsp := rfl
@[simp] theorem acceptQuant_img (red green blue : F64) (s : State) : (acceptQuant red green blue s).img = s.img := rfl
@[simp] theorem acceptQuant_imgAnswers (red green blue : F64) (s : State) : (acceptQuant red green blue s).imgAnswers = s.imgAnswers := rfl
@[simp] theorem acceptQuant_streams (red green blue : F64) (s : State) : (acceptQuant red green blue s).streams = s.streams := rfl
@[simp] theorem acceptQuant_sinkAnswers (red green blue : F64) (s : State) : (acceptQuant red green blue s).sinkAnswers = s.sinkAnswers := rfl
@[simp] theorem acceptQuant_resetReq (red green blue : F64) (s : State) : (acceptQuant red green blue s).resetReq = s.resetReq := rfl
@[simp] theorem acceptQuant_trace (red green blue : F64) (s : State) : (acceptQuant red green blue s).trace = s.trace := rfl
@[simp] theorem acceptQuant_stream (red green blue : F64) (s : State) (tok : Word) : State.stream (acceptQuant red green blue s) tok = State.stream s tok := rfl

/-! ### goTo -/

@[simp] theorem goTo_op (position : Position) (s : State) : (goTo position s).op = s.op := rfl
@[simp] theorem goTo_w (position : Position) (s : State) : (goTo position s).w = s.w := rfl
@[simp] theorem goTo_h (position : Position) (s : State) : (goTo position s).h = s.h := rfl
@[simp] theorem goTo_pathtok (position : Position) (s : State) : (goTo position s).pathtok = s.pathtok := rfl
@[simp] theorem goTo_pix (position : Position) (s : State) : (goTo position s).pix = s.pix := rfl
@[simp] theorem goTo_q (position : Position) (s : State) : (goTo position s).q = s.q := rfl
@[simp] theorem goTo_slb (position : Position) (s : State) : (goTo position s).slb = s.slb := rfl
@[simp] theorem goTo_st (position : Position) (s : State) : (goTo position s).st = s.st := rfl
@[simp] theorem goTo_y (position : Position) (s : State) : (goTo position s).y = s.y := rfl
@[simp] theorem goTo_x (position : Position) (s : State) : (goTo position s).x = s.x := rfl
@[simp] theorem goTo_p (position : Position) (s : State) : (goTo position s).p = s.p := rfl
@[simp] theorem goTo_rem (position : Position) (s : State) : (goTo position s).rem = s.rem := rfl
@[simp] theorem goTo_k (position : Position) (s : State) : (goTo position s).k = s.k := rfl
@[simp] theorem goTo_hp (position : Position) (s : State) : (goTo position s).hp = s.hp := rfl
@[simp] theorem goTo_err (position : Position) (s : State) : (goTo position s).err = s.err := rfl
@[simp] theorem goTo_handle (position : Position) (s : State) : (goTo position s).handle = s.handle := rfl
@[simp] theorem goTo_seq (position : Position) (s : State) : (goTo position s).seq = position := rfl
@[simp] theorem goTo_mp (position : Position) (s : State) : (goTo position s).mp = s.mp := rfl
@[simp] theorem goTo_payload (position : Position) (s : State) : (goTo position s).payload = s.payload := rfl
@[simp] theorem goTo_draws (position : Position) (s : State) : (goTo position s).draws = s.draws := rfl
@[simp] theorem goTo_cmd (position : Position) (s : State) : (goTo position s).cmd = s.cmd := rfl
@[simp] theorem goTo_rsp (position : Position) (s : State) : (goTo position s).rsp = s.rsp := rfl
@[simp] theorem goTo_img (position : Position) (s : State) : (goTo position s).img = s.img := rfl
@[simp] theorem goTo_imgAnswers (position : Position) (s : State) : (goTo position s).imgAnswers = s.imgAnswers := rfl
@[simp] theorem goTo_streams (position : Position) (s : State) : (goTo position s).streams = s.streams := rfl
@[simp] theorem goTo_sinkAnswers (position : Position) (s : State) : (goTo position s).sinkAnswers = s.sinkAnswers := rfl
@[simp] theorem goTo_resetReq (position : Position) (s : State) : (goTo position s).resetReq = s.resetReq := rfl
@[simp] theorem goTo_trace (position : Position) (s : State) : (goTo position s).trace = s.trace := rfl
@[simp] theorem goTo_stream (position : Position) (s : State) (tok : Word) : State.stream (goTo position s) tok = State.stream s tok := rfl

/-! ### latchPixel -/

@[simp] theorem latchPixel_op (idx : Word) (pixel : Pixel) (s : State) : (latchPixel idx pixel s).op = s.op := rfl
@[simp] theorem latchPixel_w (idx : Word) (pixel : Pixel) (s : State) : (latchPixel idx pixel s).w = s.w := rfl
@[simp] theorem latchPixel_h (idx : Word) (pixel : Pixel) (s : State) : (latchPixel idx pixel s).h = s.h := rfl
@[simp] theorem latchPixel_pathtok (idx : Word) (pixel : Pixel) (s : State) : (latchPixel idx pixel s).pathtok = s.pathtok := rfl
@[simp] theorem latchPixel_pix (idx : Word) (pixel : Pixel) (s : State) : (latchPixel idx pixel s).pix = pixel := rfl
@[simp] theorem latchPixel_q (idx : Word) (pixel : Pixel) (s : State) : (latchPixel idx pixel s).q = s.q := rfl
@[simp] theorem latchPixel_slb (idx : Word) (pixel : Pixel) (s : State) : (latchPixel idx pixel s).slb = s.slb := rfl
@[simp] theorem latchPixel_st (idx : Word) (pixel : Pixel) (s : State) : (latchPixel idx pixel s).st = s.st := rfl
@[simp] theorem latchPixel_y (idx : Word) (pixel : Pixel) (s : State) : (latchPixel idx pixel s).y = s.y := rfl
@[simp] theorem latchPixel_x (idx : Word) (pixel : Pixel) (s : State) : (latchPixel idx pixel s).x = s.x := rfl
@[simp] theorem latchPixel_p (idx : Word) (pixel : Pixel) (s : State) : (latchPixel idx pixel s).p = s.p := rfl
@[simp] theorem latchPixel_rem (idx : Word) (pixel : Pixel) (s : State) : (latchPixel idx pixel s).rem = s.rem := rfl
@[simp] theorem latchPixel_k (idx : Word) (pixel : Pixel) (s : State) : (latchPixel idx pixel s).k = s.k := rfl
@[simp] theorem latchPixel_hp (idx : Word) (pixel : Pixel) (s : State) : (latchPixel idx pixel s).hp = s.hp := rfl
@[simp] theorem latchPixel_err (idx : Word) (pixel : Pixel) (s : State) : (latchPixel idx pixel s).err = s.err := rfl
@[simp] theorem latchPixel_handle (idx : Word) (pixel : Pixel) (s : State) : (latchPixel idx pixel s).handle = s.handle := rfl
@[simp] theorem latchPixel_seq (idx : Word) (pixel : Pixel) (s : State) : (latchPixel idx pixel s).seq = s.seq := rfl
@[simp] theorem latchPixel_mp (idx : Word) (pixel : Pixel) (s : State) : (latchPixel idx pixel s).mp = s.mp := rfl
@[simp] theorem latchPixel_payload (idx : Word) (pixel : Pixel) (s : State) : (latchPixel idx pixel s).payload = s.payload := rfl
@[simp] theorem latchPixel_draws (idx : Word) (pixel : Pixel) (s : State) : (latchPixel idx pixel s).draws = s.draws := rfl
@[simp] theorem latchPixel_cmd (idx : Word) (pixel : Pixel) (s : State) : (latchPixel idx pixel s).cmd = s.cmd := rfl
@[simp] theorem latchPixel_rsp (idx : Word) (pixel : Pixel) (s : State) : (latchPixel idx pixel s).rsp = s.rsp := rfl
@[simp] theorem latchPixel_img (idx : Word) (pixel : Pixel) (s : State) : (latchPixel idx pixel s).img = s.img := rfl
@[simp] theorem latchPixel_imgAnswers (idx : Word) (pixel : Pixel) (s : State) : (latchPixel idx pixel s).imgAnswers = s.imgAnswers := rfl
@[simp] theorem latchPixel_streams (idx : Word) (pixel : Pixel) (s : State) : (latchPixel idx pixel s).streams = s.streams := rfl
@[simp] theorem latchPixel_sinkAnswers (idx : Word) (pixel : Pixel) (s : State) : (latchPixel idx pixel s).sinkAnswers = s.sinkAnswers := rfl
@[simp] theorem latchPixel_resetReq (idx : Word) (pixel : Pixel) (s : State) : (latchPixel idx pixel s).resetReq = s.resetReq := rfl
@[simp] theorem latchPixel_trace (idx : Word) (pixel : Pixel) (s : State) : (latchPixel idx pixel s).trace = s.trace ++ [.memRead idx] := rfl
@[simp] theorem latchPixel_stream (idx : Word) (pixel : Pixel) (s : State) (tok : Word) : State.stream (latchPixel idx pixel s) tok = State.stream s tok := rfl

/-! ### addPayload -/

@[simp] theorem addPayload_op (bytes : List Byte) (s : State) : (addPayload bytes s).op = s.op := rfl
@[simp] theorem addPayload_w (bytes : List Byte) (s : State) : (addPayload bytes s).w = s.w := rfl
@[simp] theorem addPayload_h (bytes : List Byte) (s : State) : (addPayload bytes s).h = s.h := rfl
@[simp] theorem addPayload_pathtok (bytes : List Byte) (s : State) : (addPayload bytes s).pathtok = s.pathtok := rfl
@[simp] theorem addPayload_pix (bytes : List Byte) (s : State) : (addPayload bytes s).pix = s.pix := rfl
@[simp] theorem addPayload_q (bytes : List Byte) (s : State) : (addPayload bytes s).q = s.q := rfl
@[simp] theorem addPayload_slb (bytes : List Byte) (s : State) : (addPayload bytes s).slb = s.slb := rfl
@[simp] theorem addPayload_st (bytes : List Byte) (s : State) : (addPayload bytes s).st = s.st := rfl
@[simp] theorem addPayload_y (bytes : List Byte) (s : State) : (addPayload bytes s).y = s.y := rfl
@[simp] theorem addPayload_x (bytes : List Byte) (s : State) : (addPayload bytes s).x = s.x := rfl
@[simp] theorem addPayload_p (bytes : List Byte) (s : State) : (addPayload bytes s).p = s.p := rfl
@[simp] theorem addPayload_rem (bytes : List Byte) (s : State) : (addPayload bytes s).rem = s.rem := rfl
@[simp] theorem addPayload_k (bytes : List Byte) (s : State) : (addPayload bytes s).k = s.k := rfl
@[simp] theorem addPayload_hp (bytes : List Byte) (s : State) : (addPayload bytes s).hp = s.hp := rfl
@[simp] theorem addPayload_err (bytes : List Byte) (s : State) : (addPayload bytes s).err = s.err := rfl
@[simp] theorem addPayload_handle (bytes : List Byte) (s : State) : (addPayload bytes s).handle = s.handle := rfl
@[simp] theorem addPayload_seq (bytes : List Byte) (s : State) : (addPayload bytes s).seq = s.seq := rfl
@[simp] theorem addPayload_mp (bytes : List Byte) (s : State) : (addPayload bytes s).mp = s.mp := rfl
@[simp] theorem addPayload_payload (bytes : List Byte) (s : State) : (addPayload bytes s).payload = s.payload ++ bytes := rfl
@[simp] theorem addPayload_draws (bytes : List Byte) (s : State) : (addPayload bytes s).draws = s.draws := rfl
@[simp] theorem addPayload_cmd (bytes : List Byte) (s : State) : (addPayload bytes s).cmd = s.cmd := rfl
@[simp] theorem addPayload_rsp (bytes : List Byte) (s : State) : (addPayload bytes s).rsp = s.rsp := rfl
@[simp] theorem addPayload_img (bytes : List Byte) (s : State) : (addPayload bytes s).img = s.img := rfl
@[simp] theorem addPayload_imgAnswers (bytes : List Byte) (s : State) : (addPayload bytes s).imgAnswers = s.imgAnswers := rfl
@[simp] theorem addPayload_streams (bytes : List Byte) (s : State) : (addPayload bytes s).streams = s.streams := rfl
@[simp] theorem addPayload_sinkAnswers (bytes : List Byte) (s : State) : (addPayload bytes s).sinkAnswers = s.sinkAnswers := rfl
@[simp] theorem addPayload_resetReq (bytes : List Byte) (s : State) : (addPayload bytes s).resetReq = s.resetReq := rfl
@[simp] theorem addPayload_trace (bytes : List Byte) (s : State) : (addPayload bytes s).trace = s.trace := rfl
@[simp] theorem addPayload_stream (bytes : List Byte) (s : State) (tok : Word) : State.stream (addPayload bytes s) tok = State.stream s tok := rfl

/-! ### setHp -/

@[simp] theorem setHp_op (v : Nat) (s : State) : (setHp v s).op = s.op := rfl
@[simp] theorem setHp_w (v : Nat) (s : State) : (setHp v s).w = s.w := rfl
@[simp] theorem setHp_h (v : Nat) (s : State) : (setHp v s).h = s.h := rfl
@[simp] theorem setHp_pathtok (v : Nat) (s : State) : (setHp v s).pathtok = s.pathtok := rfl
@[simp] theorem setHp_pix (v : Nat) (s : State) : (setHp v s).pix = s.pix := rfl
@[simp] theorem setHp_q (v : Nat) (s : State) : (setHp v s).q = s.q := rfl
@[simp] theorem setHp_slb (v : Nat) (s : State) : (setHp v s).slb = s.slb := rfl
@[simp] theorem setHp_st (v : Nat) (s : State) : (setHp v s).st = s.st := rfl
@[simp] theorem setHp_y (v : Nat) (s : State) : (setHp v s).y = s.y := rfl
@[simp] theorem setHp_x (v : Nat) (s : State) : (setHp v s).x = s.x := rfl
@[simp] theorem setHp_p (v : Nat) (s : State) : (setHp v s).p = s.p := rfl
@[simp] theorem setHp_rem (v : Nat) (s : State) : (setHp v s).rem = s.rem := rfl
@[simp] theorem setHp_k (v : Nat) (s : State) : (setHp v s).k = s.k := rfl
@[simp] theorem setHp_hp (v : Nat) (s : State) : (setHp v s).hp = BitVec.ofNat 7 v := rfl
@[simp] theorem setHp_err (v : Nat) (s : State) : (setHp v s).err = s.err := rfl
@[simp] theorem setHp_handle (v : Nat) (s : State) : (setHp v s).handle = s.handle := rfl
@[simp] theorem setHp_seq (v : Nat) (s : State) : (setHp v s).seq = s.seq := rfl
@[simp] theorem setHp_mp (v : Nat) (s : State) : (setHp v s).mp = s.mp := rfl
@[simp] theorem setHp_payload (v : Nat) (s : State) : (setHp v s).payload = s.payload := rfl
@[simp] theorem setHp_draws (v : Nat) (s : State) : (setHp v s).draws = s.draws := rfl
@[simp] theorem setHp_cmd (v : Nat) (s : State) : (setHp v s).cmd = s.cmd := rfl
@[simp] theorem setHp_rsp (v : Nat) (s : State) : (setHp v s).rsp = s.rsp := rfl
@[simp] theorem setHp_img (v : Nat) (s : State) : (setHp v s).img = s.img := rfl
@[simp] theorem setHp_imgAnswers (v : Nat) (s : State) : (setHp v s).imgAnswers = s.imgAnswers := rfl
@[simp] theorem setHp_streams (v : Nat) (s : State) : (setHp v s).streams = s.streams := rfl
@[simp] theorem setHp_sinkAnswers (v : Nat) (s : State) : (setHp v s).sinkAnswers = s.sinkAnswers := rfl
@[simp] theorem setHp_resetReq (v : Nat) (s : State) : (setHp v s).resetReq = s.resetReq := rfl
@[simp] theorem setHp_trace (v : Nat) (s : State) : (setHp v s).trace = s.trace := rfl
@[simp] theorem setHp_stream (v : Nat) (s : State) (tok : Word) : State.stream (setHp v s) tok = State.stream s tok := rfl

/-! ### setMp -/

@[simp] theorem setMp_op (v : Nat) (s : State) : (setMp v s).op = s.op := rfl
@[simp] theorem setMp_w (v : Nat) (s : State) : (setMp v s).w = s.w := rfl
@[simp] theorem setMp_h (v : Nat) (s : State) : (setMp v s).h = s.h := rfl
@[simp] theorem setMp_pathtok (v : Nat) (s : State) : (setMp v s).pathtok = s.pathtok := rfl
@[simp] theorem setMp_pix (v : Nat) (s : State) : (setMp v s).pix = s.pix := rfl
@[simp] theorem setMp_q (v : Nat) (s : State) : (setMp v s).q = s.q := rfl
@[simp] theorem setMp_slb (v : Nat) (s : State) : (setMp v s).slb = s.slb := rfl
@[simp] theorem setMp_st (v : Nat) (s : State) : (setMp v s).st = s.st := rfl
@[simp] theorem setMp_y (v : Nat) (s : State) : (setMp v s).y = s.y := rfl
@[simp] theorem setMp_x (v : Nat) (s : State) : (setMp v s).x = s.x := rfl
@[simp] theorem setMp_p (v : Nat) (s : State) : (setMp v s).p = s.p := rfl
@[simp] theorem setMp_rem (v : Nat) (s : State) : (setMp v s).rem = s.rem := rfl
@[simp] theorem setMp_k (v : Nat) (s : State) : (setMp v s).k = s.k := rfl
@[simp] theorem setMp_hp (v : Nat) (s : State) : (setMp v s).hp = s.hp := rfl
@[simp] theorem setMp_err (v : Nat) (s : State) : (setMp v s).err = s.err := rfl
@[simp] theorem setMp_handle (v : Nat) (s : State) : (setMp v s).handle = s.handle := rfl
@[simp] theorem setMp_seq (v : Nat) (s : State) : (setMp v s).seq = s.seq := rfl
@[simp] theorem setMp_mp (v : Nat) (s : State) : (setMp v s).mp = BitVec.ofNat 2 v := rfl
@[simp] theorem setMp_payload (v : Nat) (s : State) : (setMp v s).payload = s.payload := rfl
@[simp] theorem setMp_draws (v : Nat) (s : State) : (setMp v s).draws = s.draws := rfl
@[simp] theorem setMp_cmd (v : Nat) (s : State) : (setMp v s).cmd = s.cmd := rfl
@[simp] theorem setMp_rsp (v : Nat) (s : State) : (setMp v s).rsp = s.rsp := rfl
@[simp] theorem setMp_img (v : Nat) (s : State) : (setMp v s).img = s.img := rfl
@[simp] theorem setMp_imgAnswers (v : Nat) (s : State) : (setMp v s).imgAnswers = s.imgAnswers := rfl
@[simp] theorem setMp_streams (v : Nat) (s : State) : (setMp v s).streams = s.streams := rfl
@[simp] theorem setMp_sinkAnswers (v : Nat) (s : State) : (setMp v s).sinkAnswers = s.sinkAnswers := rfl
@[simp] theorem setMp_resetReq (v : Nat) (s : State) : (setMp v s).resetReq = s.resetReq := rfl
@[simp] theorem setMp_trace (v : Nat) (s : State) : (setMp v s).trace = s.trace := rfl
@[simp] theorem setMp_stream (v : Nat) (s : State) (tok : Word) : State.stream (setMp v s) tok = State.stream s tok := rfl

/-! ### setK -/

@[simp] theorem setK_op (n left : Nat) (s : State) : (setK n left s).op = s.op := rfl
@[simp] theorem setK_w (n left : Nat) (s : State) : (setK n left s).w = s.w := rfl
@[simp] theorem setK_h (n left : Nat) (s : State) : (setK n left s).h = s.h := rfl
@[simp] theorem setK_pathtok (n left : Nat) (s : State) : (setK n left s).pathtok = s.pathtok := rfl
@[simp] theorem setK_pix (n left : Nat) (s : State) : (setK n left s).pix = s.pix := rfl
@[simp] theorem setK_q (n left : Nat) (s : State) : (setK n left s).q = s.q := rfl
@[simp] theorem setK_slb (n left : Nat) (s : State) : (setK n left s).slb = s.slb := rfl
@[simp] theorem setK_st (n left : Nat) (s : State) : (setK n left s).st = s.st := rfl
@[simp] theorem setK_y (n left : Nat) (s : State) : (setK n left s).y = s.y := rfl
@[simp] theorem setK_x (n left : Nat) (s : State) : (setK n left s).x = s.x := rfl
@[simp] theorem setK_p (n left : Nat) (s : State) : (setK n left s).p = s.p := rfl
@[simp] theorem setK_rem (n left : Nat) (s : State) : (setK n left s).rem = s.rem := rfl
@[simp] theorem setK_k (n left : Nat) (s : State) : (setK n left s).k = BitVec.ofNat 7 (if left ≤ n then left else 0) := rfl
@[simp] theorem setK_hp (n left : Nat) (s : State) : (setK n left s).hp = s.hp := rfl
@[simp] theorem setK_err (n left : Nat) (s : State) : (setK n left s).err = s.err := rfl
@[simp] theorem setK_handle (n left : Nat) (s : State) : (setK n left s).handle = s.handle := rfl
@[simp] theorem setK_seq (n left : Nat) (s : State) : (setK n left s).seq = s.seq := rfl
@[simp] theorem setK_mp (n left : Nat) (s : State) : (setK n left s).mp = s.mp := rfl
@[simp] theorem setK_payload (n left : Nat) (s : State) : (setK n left s).payload = s.payload := rfl
@[simp] theorem setK_draws (n left : Nat) (s : State) : (setK n left s).draws = s.draws := rfl
@[simp] theorem setK_cmd (n left : Nat) (s : State) : (setK n left s).cmd = s.cmd := rfl
@[simp] theorem setK_rsp (n left : Nat) (s : State) : (setK n left s).rsp = s.rsp := rfl
@[simp] theorem setK_img (n left : Nat) (s : State) : (setK n left s).img = s.img := rfl
@[simp] theorem setK_imgAnswers (n left : Nat) (s : State) : (setK n left s).imgAnswers = s.imgAnswers := rfl
@[simp] theorem setK_streams (n left : Nat) (s : State) : (setK n left s).streams = s.streams := rfl
@[simp] theorem setK_sinkAnswers (n left : Nat) (s : State) : (setK n left s).sinkAnswers = s.sinkAnswers := rfl
@[simp] theorem setK_resetReq (n left : Nat) (s : State) : (setK n left s).resetReq = s.resetReq := rfl
@[simp] theorem setK_trace (n left : Nat) (s : State) : (setK n left s).trace = s.trace := rfl
@[simp] theorem setK_stream (n left : Nat) (s : State) (tok : Word) : State.stream (setK n left s) tok = State.stream s tok := rfl

/-! ### firstPlane -/

@[simp] theorem firstPlane_op (s : State) : (firstPlane s).op = s.op := rfl
@[simp] theorem firstPlane_w (s : State) : (firstPlane s).w = s.w := rfl
@[simp] theorem firstPlane_h (s : State) : (firstPlane s).h = s.h := rfl
@[simp] theorem firstPlane_pathtok (s : State) : (firstPlane s).pathtok = s.pathtok := rfl
@[simp] theorem firstPlane_pix (s : State) : (firstPlane s).pix = s.pix := rfl
@[simp] theorem firstPlane_q (s : State) : (firstPlane s).q = s.q := rfl
@[simp] theorem firstPlane_slb (s : State) : (firstPlane s).slb = s.slb := rfl
@[simp] theorem firstPlane_st (s : State) : (firstPlane s).st = s.st := rfl
@[simp] theorem firstPlane_y (s : State) : (firstPlane s).y = s.y := rfl
@[simp] theorem firstPlane_x (s : State) : (firstPlane s).x = 0#16 := rfl
@[simp] theorem firstPlane_p (s : State) : (firstPlane s).p = 0#2 := rfl
@[simp] theorem firstPlane_rem (s : State) : (firstPlane s).rem = s.w := rfl
@[simp] theorem firstPlane_k (s : State) : (firstPlane s).k = 0#7 := rfl
@[simp] theorem firstPlane_hp (s : State) : (firstPlane s).hp = s.hp := rfl
@[simp] theorem firstPlane_err (s : State) : (firstPlane s).err = s.err := rfl
@[simp] theorem firstPlane_handle (s : State) : (firstPlane s).handle = s.handle := rfl
@[simp] theorem firstPlane_seq (s : State) : (firstPlane s).seq = .chunking := rfl
@[simp] theorem firstPlane_mp (s : State) : (firstPlane s).mp = 0#2 := rfl
@[simp] theorem firstPlane_payload (s : State) : (firstPlane s).payload = s.payload := rfl
@[simp] theorem firstPlane_draws (s : State) : (firstPlane s).draws = s.draws := rfl
@[simp] theorem firstPlane_cmd (s : State) : (firstPlane s).cmd = s.cmd := rfl
@[simp] theorem firstPlane_rsp (s : State) : (firstPlane s).rsp = s.rsp := rfl
@[simp] theorem firstPlane_img (s : State) : (firstPlane s).img = s.img := rfl
@[simp] theorem firstPlane_imgAnswers (s : State) : (firstPlane s).imgAnswers = s.imgAnswers := rfl
@[simp] theorem firstPlane_streams (s : State) : (firstPlane s).streams = s.streams := rfl
@[simp] theorem firstPlane_sinkAnswers (s : State) : (firstPlane s).sinkAnswers = s.sinkAnswers := rfl
@[simp] theorem firstPlane_resetReq (s : State) : (firstPlane s).resetReq = s.resetReq := rfl
@[simp] theorem firstPlane_trace (s : State) : (firstPlane s).trace = s.trace := rfl
@[simp] theorem firstPlane_stream (s : State) (tok : Word) : State.stream (firstPlane s) tok = State.stream s tok := rfl

/-! ### nextPlane -/

@[simp] theorem nextPlane_op (s : State) : (nextPlane s).op = s.op := rfl
@[simp] theorem nextPlane_w (s : State) : (nextPlane s).w = s.w := rfl
@[simp] theorem nextPlane_h (s : State) : (nextPlane s).h = s.h := rfl
@[simp] theorem nextPlane_pathtok (s : State) : (nextPlane s).pathtok = s.pathtok := rfl
@[simp] theorem nextPlane_pix (s : State) : (nextPlane s).pix = s.pix := rfl
@[simp] theorem nextPlane_q (s : State) : (nextPlane s).q = s.q := rfl
@[simp] theorem nextPlane_slb (s : State) : (nextPlane s).slb = s.slb := rfl
@[simp] theorem nextPlane_st (s : State) : (nextPlane s).st = s.st := rfl
@[simp] theorem nextPlane_y (s : State) : (nextPlane s).y = s.y := rfl
@[simp] theorem nextPlane_x (s : State) : (nextPlane s).x = 0#16 := rfl
@[simp] theorem nextPlane_p (s : State) : (nextPlane s).p = s.p + 1#2 := rfl
@[simp] theorem nextPlane_rem (s : State) : (nextPlane s).rem = s.w := rfl
@[simp] theorem nextPlane_k (s : State) : (nextPlane s).k = 0#7 := rfl
@[simp] theorem nextPlane_hp (s : State) : (nextPlane s).hp = s.hp := rfl
@[simp] theorem nextPlane_err (s : State) : (nextPlane s).err = s.err := rfl
@[simp] theorem nextPlane_handle (s : State) : (nextPlane s).handle = s.handle := rfl
@[simp] theorem nextPlane_seq (s : State) : (nextPlane s).seq = .chunking := rfl
@[simp] theorem nextPlane_mp (s : State) : (nextPlane s).mp = s.mp := rfl
@[simp] theorem nextPlane_payload (s : State) : (nextPlane s).payload = s.payload := rfl
@[simp] theorem nextPlane_draws (s : State) : (nextPlane s).draws = s.draws := rfl
@[simp] theorem nextPlane_cmd (s : State) : (nextPlane s).cmd = s.cmd := rfl
@[simp] theorem nextPlane_rsp (s : State) : (nextPlane s).rsp = s.rsp := rfl
@[simp] theorem nextPlane_img (s : State) : (nextPlane s).img = s.img := rfl
@[simp] theorem nextPlane_imgAnswers (s : State) : (nextPlane s).imgAnswers = s.imgAnswers := rfl
@[simp] theorem nextPlane_streams (s : State) : (nextPlane s).streams = s.streams := rfl
@[simp] theorem nextPlane_sinkAnswers (s : State) : (nextPlane s).sinkAnswers = s.sinkAnswers := rfl
@[simp] theorem nextPlane_resetReq (s : State) : (nextPlane s).resetReq = s.resetReq := rfl
@[simp] theorem nextPlane_trace (s : State) : (nextPlane s).trace = s.trace := rfl
@[simp] theorem nextPlane_stream (s : State) (tok : Word) : State.stream (nextPlane s) tok = State.stream s tok := rfl

/-! ### passChunk -/

@[simp] theorem passChunk_op (n : Nat) (s : State) : (passChunk n s).op = s.op := rfl
@[simp] theorem passChunk_w (n : Nat) (s : State) : (passChunk n s).w = s.w := rfl
@[simp] theorem passChunk_h (n : Nat) (s : State) : (passChunk n s).h = s.h := rfl
@[simp] theorem passChunk_pathtok (n : Nat) (s : State) : (passChunk n s).pathtok = s.pathtok := rfl
@[simp] theorem passChunk_pix (n : Nat) (s : State) : (passChunk n s).pix = s.pix := rfl
@[simp] theorem passChunk_q (n : Nat) (s : State) : (passChunk n s).q = s.q := rfl
@[simp] theorem passChunk_slb (n : Nat) (s : State) : (passChunk n s).slb = s.slb := rfl
@[simp] theorem passChunk_st (n : Nat) (s : State) : (passChunk n s).st = s.st := rfl
@[simp] theorem passChunk_y (n : Nat) (s : State) : (passChunk n s).y = s.y := rfl
@[simp] theorem passChunk_x (n : Nat) (s : State) : (passChunk n s).x = s.x + BitVec.ofNat 16 n := rfl
@[simp] theorem passChunk_p (n : Nat) (s : State) : (passChunk n s).p = s.p := rfl
@[simp] theorem passChunk_rem (n : Nat) (s : State) : (passChunk n s).rem = s.rem - BitVec.ofNat 16 n := rfl
@[simp] theorem passChunk_k (n : Nat) (s : State) : (passChunk n s).k = 0#7 := rfl
@[simp] theorem passChunk_hp (n : Nat) (s : State) : (passChunk n s).hp = s.hp := rfl
@[simp] theorem passChunk_err (n : Nat) (s : State) : (passChunk n s).err = s.err := rfl
@[simp] theorem passChunk_handle (n : Nat) (s : State) : (passChunk n s).handle = s.handle := rfl
@[simp] theorem passChunk_seq (n : Nat) (s : State) : (passChunk n s).seq = s.seq := rfl
@[simp] theorem passChunk_mp (n : Nat) (s : State) : (passChunk n s).mp = s.mp := rfl
@[simp] theorem passChunk_payload (n : Nat) (s : State) : (passChunk n s).payload = s.payload := rfl
@[simp] theorem passChunk_draws (n : Nat) (s : State) : (passChunk n s).draws = s.draws := rfl
@[simp] theorem passChunk_cmd (n : Nat) (s : State) : (passChunk n s).cmd = s.cmd := rfl
@[simp] theorem passChunk_rsp (n : Nat) (s : State) : (passChunk n s).rsp = s.rsp := rfl
@[simp] theorem passChunk_img (n : Nat) (s : State) : (passChunk n s).img = s.img := rfl
@[simp] theorem passChunk_imgAnswers (n : Nat) (s : State) : (passChunk n s).imgAnswers = s.imgAnswers := rfl
@[simp] theorem passChunk_streams (n : Nat) (s : State) : (passChunk n s).streams = s.streams := rfl
@[simp] theorem passChunk_sinkAnswers (n : Nat) (s : State) : (passChunk n s).sinkAnswers = s.sinkAnswers := rfl
@[simp] theorem passChunk_resetReq (n : Nat) (s : State) : (passChunk n s).resetReq = s.resetReq := rfl
@[simp] theorem passChunk_trace (n : Nat) (s : State) : (passChunk n s).trace = s.trace := rfl
@[simp] theorem passChunk_stream (n : Nat) (s : State) (tok : Word) : State.stream (passChunk n s) tok = State.stream s tok := rfl

/-! ### rowDone -/

@[simp] theorem rowDone_op (s : State) : (rowDone s).op = s.op := rfl
@[simp] theorem rowDone_w (s : State) : (rowDone s).w = s.w := rfl
@[simp] theorem rowDone_h (s : State) : (rowDone s).h = s.h := rfl
@[simp] theorem rowDone_pathtok (s : State) : (rowDone s).pathtok = s.pathtok := rfl
@[simp] theorem rowDone_pix (s : State) : (rowDone s).pix = s.pix := rfl
@[simp] theorem rowDone_q (s : State) : (rowDone s).q = s.q := rfl
@[simp] theorem rowDone_slb (s : State) : (rowDone s).slb = s.slb := rfl
@[simp] theorem rowDone_st (s : State) : (rowDone s).st = .rowWritten := rfl
@[simp] theorem rowDone_y (s : State) : (rowDone s).y = s.y := rfl
@[simp] theorem rowDone_x (s : State) : (rowDone s).x = s.x := rfl
@[simp] theorem rowDone_p (s : State) : (rowDone s).p = s.p := rfl
@[simp] theorem rowDone_rem (s : State) : (rowDone s).rem = s.rem := rfl
@[simp] theorem rowDone_k (s : State) : (rowDone s).k = s.k := rfl
@[simp] theorem rowDone_hp (s : State) : (rowDone s).hp = s.hp := rfl
@[simp] theorem rowDone_err (s : State) : (rowDone s).err = s.err := rfl
@[simp] theorem rowDone_handle (s : State) : (rowDone s).handle = s.handle := rfl
@[simp] theorem rowDone_seq (s : State) : (rowDone s).seq = s.seq := rfl
@[simp] theorem rowDone_mp (s : State) : (rowDone s).mp = s.mp := rfl
@[simp] theorem rowDone_payload (s : State) : (rowDone s).payload = s.payload := rfl
@[simp] theorem rowDone_draws (s : State) : (rowDone s).draws = s.draws := rfl
@[simp] theorem rowDone_cmd (s : State) : (rowDone s).cmd = s.cmd := rfl
@[simp] theorem rowDone_rsp (s : State) : (rowDone s).rsp = s.rsp := rfl
@[simp] theorem rowDone_img (s : State) : (rowDone s).img = s.img := rfl
@[simp] theorem rowDone_imgAnswers (s : State) : (rowDone s).imgAnswers = s.imgAnswers := rfl
@[simp] theorem rowDone_streams (s : State) : (rowDone s).streams = s.streams := rfl
@[simp] theorem rowDone_sinkAnswers (s : State) : (rowDone s).sinkAnswers = s.sinkAnswers := rfl
@[simp] theorem rowDone_resetReq (s : State) : (rowDone s).resetReq = s.resetReq := rfl
@[simp] theorem rowDone_trace (s : State) : (rowDone s).trace = s.trace := rfl
@[simp] theorem rowDone_stream (s : State) (tok : Word) : State.stream (rowDone s) tok = State.stream s tok := rfl

/-! ### nextRow -/

@[simp] theorem nextRow_op (s : State) : (nextRow s).op = s.op := rfl
@[simp] theorem nextRow_w (s : State) : (nextRow s).w = s.w := rfl
@[simp] theorem nextRow_h (s : State) : (nextRow s).h = s.h := rfl
@[simp] theorem nextRow_pathtok (s : State) : (nextRow s).pathtok = s.pathtok := rfl
@[simp] theorem nextRow_pix (s : State) : (nextRow s).pix = s.pix := rfl
@[simp] theorem nextRow_q (s : State) : (nextRow s).q = s.q := rfl
@[simp] theorem nextRow_slb (s : State) : (nextRow s).slb = s.slb := rfl
@[simp] theorem nextRow_st (s : State) : (nextRow s).st = s.st := rfl
@[simp] theorem nextRow_y (s : State) : (nextRow s).y = s.y - 1#16 := rfl
@[simp] theorem nextRow_x (s : State) : (nextRow s).x = 0#16 := rfl
@[simp] theorem nextRow_p (s : State) : (nextRow s).p = s.p := rfl
@[simp] theorem nextRow_rem (s : State) : (nextRow s).rem = s.rem := rfl
@[simp] theorem nextRow_k (s : State) : (nextRow s).k = s.k := rfl
@[simp] theorem nextRow_hp (s : State) : (nextRow s).hp = s.hp := rfl
@[simp] theorem nextRow_err (s : State) : (nextRow s).err = s.err := rfl
@[simp] theorem nextRow_handle (s : State) : (nextRow s).handle = s.handle := rfl
@[simp] theorem nextRow_seq (s : State) : (nextRow s).seq = .quantizing := rfl
@[simp] theorem nextRow_mp (s : State) : (nextRow s).mp = s.mp := rfl
@[simp] theorem nextRow_payload (s : State) : (nextRow s).payload = s.payload := rfl
@[simp] theorem nextRow_draws (s : State) : (nextRow s).draws = s.draws := rfl
@[simp] theorem nextRow_cmd (s : State) : (nextRow s).cmd = s.cmd := rfl
@[simp] theorem nextRow_rsp (s : State) : (nextRow s).rsp = s.rsp := rfl
@[simp] theorem nextRow_img (s : State) : (nextRow s).img = s.img := rfl
@[simp] theorem nextRow_imgAnswers (s : State) : (nextRow s).imgAnswers = s.imgAnswers := rfl
@[simp] theorem nextRow_streams (s : State) : (nextRow s).streams = s.streams := rfl
@[simp] theorem nextRow_sinkAnswers (s : State) : (nextRow s).sinkAnswers = s.sinkAnswers := rfl
@[simp] theorem nextRow_resetReq (s : State) : (nextRow s).resetReq = s.resetReq := rfl
@[simp] theorem nextRow_trace (s : State) : (nextRow s).trace = s.trace := rfl
@[simp] theorem nextRow_stream (s : State) (tok : Word) : State.stream (nextRow s) tok = State.stream s tok := rfl

/-! ### setQ -/

@[simp] theorem setQ_op (quad : Quad) (s : State) : (setQ quad s).op = s.op := rfl
@[simp] theorem setQ_w (quad : Quad) (s : State) : (setQ quad s).w = s.w := rfl
@[simp] theorem setQ_h (quad : Quad) (s : State) : (setQ quad s).h = s.h := rfl
@[simp] theorem setQ_pathtok (quad : Quad) (s : State) : (setQ quad s).pathtok = s.pathtok := rfl
@[simp] theorem setQ_pix (quad : Quad) (s : State) : (setQ quad s).pix = s.pix := rfl
@[simp] theorem setQ_q (quad : Quad) (s : State) : (setQ quad s).q = quad := rfl
@[simp] theorem setQ_slb (quad : Quad) (s : State) : (setQ quad s).slb = s.slb := rfl
@[simp] theorem setQ_st (quad : Quad) (s : State) : (setQ quad s).st = s.st := rfl
@[simp] theorem setQ_y (quad : Quad) (s : State) : (setQ quad s).y = s.y := rfl
@[simp] theorem setQ_x (quad : Quad) (s : State) : (setQ quad s).x = s.x := rfl
@[simp] theorem setQ_p (quad : Quad) (s : State) : (setQ quad s).p = s.p := rfl
@[simp] theorem setQ_rem (quad : Quad) (s : State) : (setQ quad s).rem = s.rem := rfl
@[simp] theorem setQ_k (quad : Quad) (s : State) : (setQ quad s).k = s.k := rfl
@[simp] theorem setQ_hp (quad : Quad) (s : State) : (setQ quad s).hp = s.hp := rfl
@[simp] theorem setQ_err (quad : Quad) (s : State) : (setQ quad s).err = s.err := rfl
@[simp] theorem setQ_handle (quad : Quad) (s : State) : (setQ quad s).handle = s.handle := rfl
@[simp] theorem setQ_seq (quad : Quad) (s : State) : (setQ quad s).seq = s.seq := rfl
@[simp] theorem setQ_mp (quad : Quad) (s : State) : (setQ quad s).mp = s.mp := rfl
@[simp] theorem setQ_payload (quad : Quad) (s : State) : (setQ quad s).payload = s.payload := rfl
@[simp] theorem setQ_draws (quad : Quad) (s : State) : (setQ quad s).draws = s.draws := rfl
@[simp] theorem setQ_cmd (quad : Quad) (s : State) : (setQ quad s).cmd = s.cmd := rfl
@[simp] theorem setQ_rsp (quad : Quad) (s : State) : (setQ quad s).rsp = s.rsp := rfl
@[simp] theorem setQ_img (quad : Quad) (s : State) : (setQ quad s).img = s.img := rfl
@[simp] theorem setQ_imgAnswers (quad : Quad) (s : State) : (setQ quad s).imgAnswers = s.imgAnswers := rfl
@[simp] theorem setQ_streams (quad : Quad) (s : State) : (setQ quad s).streams = s.streams := rfl
@[simp] theorem setQ_sinkAnswers (quad : Quad) (s : State) : (setQ quad s).sinkAnswers = s.sinkAnswers := rfl
@[simp] theorem setQ_resetReq (quad : Quad) (s : State) : (setQ quad s).resetReq = s.resetReq := rfl
@[simp] theorem setQ_trace (quad : Quad) (s : State) : (setQ quad s).trace = s.trace := rfl
@[simp] theorem setQ_stream (quad : Quad) (s : State) (tok : Word) : State.stream (setQ quad s) tok = State.stream s tok := rfl

/-! ### drawQ -/

@[simp] theorem drawQ_op (s : State) : (drawQ s).op = s.op := rfl
@[simp] theorem drawQ_w (s : State) : (drawQ s).w = s.w := rfl
@[simp] theorem drawQ_h (s : State) : (drawQ s).h = s.h := rfl
@[simp] theorem drawQ_pathtok (s : State) : (drawQ s).pathtok = s.pathtok := rfl
@[simp] theorem drawQ_pix (s : State) : (drawQ s).pix = s.pix := rfl
@[simp] theorem drawQ_q (s : State) : (drawQ s).q = Config.drawnQuad s.draws := rfl
@[simp] theorem drawQ_slb (s : State) : (drawQ s).slb = s.slb := rfl
@[simp] theorem drawQ_st (s : State) : (drawQ s).st = s.st := rfl
@[simp] theorem drawQ_y (s : State) : (drawQ s).y = s.y := rfl
@[simp] theorem drawQ_x (s : State) : (drawQ s).x = s.x := rfl
@[simp] theorem drawQ_p (s : State) : (drawQ s).p = s.p := rfl
@[simp] theorem drawQ_rem (s : State) : (drawQ s).rem = s.rem := rfl
@[simp] theorem drawQ_k (s : State) : (drawQ s).k = s.k := rfl
@[simp] theorem drawQ_hp (s : State) : (drawQ s).hp = s.hp := rfl
@[simp] theorem drawQ_err (s : State) : (drawQ s).err = s.err := rfl
@[simp] theorem drawQ_handle (s : State) : (drawQ s).handle = s.handle := rfl
@[simp] theorem drawQ_seq (s : State) : (drawQ s).seq = s.seq := rfl
@[simp] theorem drawQ_mp (s : State) : (drawQ s).mp = s.mp := rfl
@[simp] theorem drawQ_payload (s : State) : (drawQ s).payload = s.payload := rfl
@[simp] theorem drawQ_draws (s : State) : (drawQ s).draws = s.draws + 1 := rfl
@[simp] theorem drawQ_cmd (s : State) : (drawQ s).cmd = s.cmd := rfl
@[simp] theorem drawQ_rsp (s : State) : (drawQ s).rsp = s.rsp := rfl
@[simp] theorem drawQ_img (s : State) : (drawQ s).img = s.img := rfl
@[simp] theorem drawQ_imgAnswers (s : State) : (drawQ s).imgAnswers = s.imgAnswers := rfl
@[simp] theorem drawQ_streams (s : State) : (drawQ s).streams = s.streams := rfl
@[simp] theorem drawQ_sinkAnswers (s : State) : (drawQ s).sinkAnswers = s.sinkAnswers := rfl
@[simp] theorem drawQ_resetReq (s : State) : (drawQ s).resetReq = s.resetReq := rfl
@[simp] theorem drawQ_trace (s : State) : (drawQ s).trace = s.trace := rfl
@[simp] theorem drawQ_stream (s : State) (tok : Word) : State.stream (drawQ s) tok = State.stream s tok := rfl

/-! ### startHeader -/

@[simp] theorem startHeader_op (s : State) : (startHeader s).op = s.op := rfl
@[simp] theorem startHeader_w (s : State) : (startHeader s).w = s.w := rfl
@[simp] theorem startHeader_h (s : State) : (startHeader s).h = s.h := rfl
@[simp] theorem startHeader_pathtok (s : State) : (startHeader s).pathtok = s.pathtok := rfl
@[simp] theorem startHeader_pix (s : State) : (startHeader s).pix = s.pix := rfl
@[simp] theorem startHeader_q (s : State) : (startHeader s).q = s.q := rfl
@[simp] theorem startHeader_slb (s : State) : (startHeader s).slb = s.slb := rfl
@[simp] theorem startHeader_st (s : State) : (startHeader s).st = s.st := rfl
@[simp] theorem startHeader_y (s : State) : (startHeader s).y = s.y := rfl
@[simp] theorem startHeader_x (s : State) : (startHeader s).x = s.x := rfl
@[simp] theorem startHeader_p (s : State) : (startHeader s).p = s.p := rfl
@[simp] theorem startHeader_rem (s : State) : (startHeader s).rem = s.rem := rfl
@[simp] theorem startHeader_k (s : State) : (startHeader s).k = s.k := rfl
@[simp] theorem startHeader_hp (s : State) : (startHeader s).hp = 0#7 := rfl
@[simp] theorem startHeader_err (s : State) : (startHeader s).err = s.err := rfl
@[simp] theorem startHeader_handle (s : State) : (startHeader s).handle = s.handle := rfl
@[simp] theorem startHeader_seq (s : State) : (startHeader s).seq = .header1 := rfl
@[simp] theorem startHeader_mp (s : State) : (startHeader s).mp = s.mp := rfl
@[simp] theorem startHeader_payload (s : State) : (startHeader s).payload = s.payload := rfl
@[simp] theorem startHeader_draws (s : State) : (startHeader s).draws = s.draws := rfl
@[simp] theorem startHeader_cmd (s : State) : (startHeader s).cmd = s.cmd := rfl
@[simp] theorem startHeader_rsp (s : State) : (startHeader s).rsp = s.rsp := rfl
@[simp] theorem startHeader_img (s : State) : (startHeader s).img = s.img := rfl
@[simp] theorem startHeader_imgAnswers (s : State) : (startHeader s).imgAnswers = s.imgAnswers := rfl
@[simp] theorem startHeader_streams (s : State) : (startHeader s).streams = s.streams := rfl
@[simp] theorem startHeader_sinkAnswers (s : State) : (startHeader s).sinkAnswers = s.sinkAnswers := rfl
@[simp] theorem startHeader_resetReq (s : State) : (startHeader s).resetReq = s.resetReq := rfl
@[simp] theorem startHeader_trace (s : State) : (startHeader s).trace = s.trace := rfl
@[simp] theorem startHeader_stream (s : State) (tok : Word) : State.stream (startHeader s) tok = State.stream s tok := rfl

/-! ### storePixel -/

@[simp] theorem storePixel_op (s : State) : (storePixel s).op = s.op := rfl
@[simp] theorem storePixel_w (s : State) : (storePixel s).w = s.w := rfl
@[simp] theorem storePixel_h (s : State) : (storePixel s).h = s.h := rfl
@[simp] theorem storePixel_pathtok (s : State) : (storePixel s).pathtok = s.pathtok := rfl
@[simp] theorem storePixel_pix (s : State) : (storePixel s).pix = s.pix := rfl
@[simp] theorem storePixel_q (s : State) : (storePixel s).q = s.q := rfl
@[simp] theorem storePixel_slb (s : State) : (storePixel s).slb = Memory.set s.slb s.x.toNat s.q := rfl
@[simp] theorem storePixel_st (s : State) : (storePixel s).st = s.st := rfl
@[simp] theorem storePixel_y (s : State) : (storePixel s).y = s.y := rfl
@[simp] theorem storePixel_x (s : State) : (storePixel s).x = s.x + 1#16 := rfl
@[simp] theorem storePixel_p (s : State) : (storePixel s).p = s.p := rfl
@[simp] theorem storePixel_rem (s : State) : (storePixel s).rem = s.rem := rfl
@[simp] theorem storePixel_k (s : State) : (storePixel s).k = s.k := rfl
@[simp] theorem storePixel_hp (s : State) : (storePixel s).hp = s.hp := rfl
@[simp] theorem storePixel_err (s : State) : (storePixel s).err = s.err := rfl
@[simp] theorem storePixel_handle (s : State) : (storePixel s).handle = s.handle := rfl
@[simp] theorem storePixel_seq (s : State) : (storePixel s).seq = s.seq := rfl
@[simp] theorem storePixel_mp (s : State) : (storePixel s).mp = s.mp := rfl
@[simp] theorem storePixel_payload (s : State) : (storePixel s).payload = s.payload := rfl
@[simp] theorem storePixel_draws (s : State) : (storePixel s).draws = s.draws := rfl
@[simp] theorem storePixel_cmd (s : State) : (storePixel s).cmd = s.cmd := rfl
@[simp] theorem storePixel_rsp (s : State) : (storePixel s).rsp = s.rsp := rfl
@[simp] theorem storePixel_img (s : State) : (storePixel s).img = s.img := rfl
@[simp] theorem storePixel_imgAnswers (s : State) : (storePixel s).imgAnswers = s.imgAnswers := rfl
@[simp] theorem storePixel_streams (s : State) : (storePixel s).streams = s.streams := rfl
@[simp] theorem storePixel_sinkAnswers (s : State) : (storePixel s).sinkAnswers = s.sinkAnswers := rfl
@[simp] theorem storePixel_resetReq (s : State) : (storePixel s).resetReq = s.resetReq := rfl
@[simp] theorem storePixel_trace (s : State) : (storePixel s).trace = s.trace := rfl
@[simp] theorem storePixel_stream (s : State) (tok : Word) : State.stream (storePixel s) tok = State.stream s tok := rfl

/-! ### startScanline -/

@[simp] theorem startScanline_op (s : State) : (startScanline s).op = s.op := rfl
@[simp] theorem startScanline_w (s : State) : (startScanline s).w = s.w := rfl
@[simp] theorem startScanline_h (s : State) : (startScanline s).h = s.h := rfl
@[simp] theorem startScanline_pathtok (s : State) : (startScanline s).pathtok = s.pathtok := rfl
@[simp] theorem startScanline_pix (s : State) : (startScanline s).pix = s.pix := rfl
@[simp] theorem startScanline_q (s : State) : (startScanline s).q = s.q := rfl
@[simp] theorem startScanline_slb (s : State) : (startScanline s).slb = s.slb := rfl
@[simp] theorem startScanline_st (s : State) : (startScanline s).st = s.st := rfl
@[simp] theorem startScanline_y (s : State) : (startScanline s).y = s.y := rfl
@[simp] theorem startScanline_x (s : State) : (startScanline s).x = s.x := rfl
@[simp] theorem startScanline_p (s : State) : (startScanline s).p = s.p := rfl
@[simp] theorem startScanline_rem (s : State) : (startScanline s).rem = s.rem := rfl
@[simp] theorem startScanline_k (s : State) : (startScanline s).k = s.k := rfl
@[simp] theorem startScanline_hp (s : State) : (startScanline s).hp = s.hp := rfl
@[simp] theorem startScanline_err (s : State) : (startScanline s).err = s.err := rfl
@[simp] theorem startScanline_handle (s : State) : (startScanline s).handle = s.handle := rfl
@[simp] theorem startScanline_seq (s : State) : (startScanline s).seq = .marking := rfl
@[simp] theorem startScanline_mp (s : State) : (startScanline s).mp = 0#2 := rfl
@[simp] theorem startScanline_payload (s : State) : (startScanline s).payload = s.payload := rfl
@[simp] theorem startScanline_draws (s : State) : (startScanline s).draws = s.draws := rfl
@[simp] theorem startScanline_cmd (s : State) : (startScanline s).cmd = s.cmd := rfl
@[simp] theorem startScanline_rsp (s : State) : (startScanline s).rsp = s.rsp := rfl
@[simp] theorem startScanline_img (s : State) : (startScanline s).img = s.img := rfl
@[simp] theorem startScanline_imgAnswers (s : State) : (startScanline s).imgAnswers = s.imgAnswers := rfl
@[simp] theorem startScanline_streams (s : State) : (startScanline s).streams = s.streams := rfl
@[simp] theorem startScanline_sinkAnswers (s : State) : (startScanline s).sinkAnswers = s.sinkAnswers := rfl
@[simp] theorem startScanline_resetReq (s : State) : (startScanline s).resetReq = s.resetReq := rfl
@[simp] theorem startScanline_trace (s : State) : (startScanline s).trace = s.trace := rfl
@[simp] theorem startScanline_stream (s : State) (tok : Word) : State.stream (startScanline s) tok = State.stream s tok := rfl

/-! ### acceptWrite -/

@[simp] theorem acceptWrite_op (w h : Half) (pathtok : Word) (s : State) : (acceptWrite w h pathtok s).op = Config.opWrite := rfl
@[simp] theorem acceptWrite_w (w h : Half) (pathtok : Word) (s : State) : (acceptWrite w h pathtok s).w = w := rfl
@[simp] theorem acceptWrite_h (w h : Half) (pathtok : Word) (s : State) : (acceptWrite w h pathtok s).h = h := rfl
@[simp] theorem acceptWrite_pathtok (w h : Half) (pathtok : Word) (s : State) : (acceptWrite w h pathtok s).pathtok = pathtok := rfl
@[simp] theorem acceptWrite_pix (w h : Half) (pathtok : Word) (s : State) : (acceptWrite w h pathtok s).pix = s.pix := rfl
@[simp] theorem acceptWrite_q (w h : Half) (pathtok : Word) (s : State) : (acceptWrite w h pathtok s).q = s.q := rfl
@[simp] theorem acceptWrite_slb (w h : Half) (pathtok : Word) (s : State) : (acceptWrite w h pathtok s).slb = s.slb := rfl
@[simp] theorem acceptWrite_st (w h : Half) (pathtok : Word) (s : State) : (acceptWrite w h pathtok s).st = s.st := rfl
@[simp] theorem acceptWrite_y (w h : Half) (pathtok : Word) (s : State) : (acceptWrite w h pathtok s).y = s.y := rfl
@[simp] theorem acceptWrite_x (w h : Half) (pathtok : Word) (s : State) : (acceptWrite w h pathtok s).x = s.x := rfl
@[simp] theorem acceptWrite_p (w h : Half) (pathtok : Word) (s : State) : (acceptWrite w h pathtok s).p = s.p := rfl
@[simp] theorem acceptWrite_rem (w h : Half) (pathtok : Word) (s : State) : (acceptWrite w h pathtok s).rem = s.rem := rfl
@[simp] theorem acceptWrite_k (w h : Half) (pathtok : Word) (s : State) : (acceptWrite w h pathtok s).k = s.k := rfl
@[simp] theorem acceptWrite_hp (w h : Half) (pathtok : Word) (s : State) : (acceptWrite w h pathtok s).hp = s.hp := rfl
@[simp] theorem acceptWrite_err (w h : Half) (pathtok : Word) (s : State) : (acceptWrite w h pathtok s).err = s.err := rfl
@[simp] theorem acceptWrite_handle (w h : Half) (pathtok : Word) (s : State) : (acceptWrite w h pathtok s).handle = s.handle := rfl
@[simp] theorem acceptWrite_seq (w h : Half) (pathtok : Word) (s : State) : (acceptWrite w h pathtok s).seq = s.seq := rfl
@[simp] theorem acceptWrite_mp (w h : Half) (pathtok : Word) (s : State) : (acceptWrite w h pathtok s).mp = s.mp := rfl
@[simp] theorem acceptWrite_payload (w h : Half) (pathtok : Word) (s : State) : (acceptWrite w h pathtok s).payload = [] := rfl
@[simp] theorem acceptWrite_draws (w h : Half) (pathtok : Word) (s : State) : (acceptWrite w h pathtok s).draws = s.draws := rfl
@[simp] theorem acceptWrite_cmd (w h : Half) (pathtok : Word) (s : State) : (acceptWrite w h pathtok s).cmd = s.cmd := rfl
@[simp] theorem acceptWrite_rsp (w h : Half) (pathtok : Word) (s : State) : (acceptWrite w h pathtok s).rsp = s.rsp := rfl
@[simp] theorem acceptWrite_img (w h : Half) (pathtok : Word) (s : State) : (acceptWrite w h pathtok s).img = s.img := rfl
@[simp] theorem acceptWrite_imgAnswers (w h : Half) (pathtok : Word) (s : State) : (acceptWrite w h pathtok s).imgAnswers = s.imgAnswers := rfl
@[simp] theorem acceptWrite_streams (w h : Half) (pathtok : Word) (s : State) : (acceptWrite w h pathtok s).streams = s.streams := rfl
@[simp] theorem acceptWrite_sinkAnswers (w h : Half) (pathtok : Word) (s : State) : (acceptWrite w h pathtok s).sinkAnswers = s.sinkAnswers := rfl
@[simp] theorem acceptWrite_resetReq (w h : Half) (pathtok : Word) (s : State) : (acceptWrite w h pathtok s).resetReq = s.resetReq := rfl
@[simp] theorem acceptWrite_trace (w h : Half) (pathtok : Word) (s : State) : (acceptWrite w h pathtok s).trace = s.trace := rfl
@[simp] theorem acceptWrite_stream (w h : Half) (pathtok : Word) (s : State) (tok : Word) : State.stream (acceptWrite w h pathtok s) tok = State.stream s tok := rfl

/-! ### raise -/

@[simp] theorem raise_op (exception : Status) (s : State) : (raise exception s).op = s.op := rfl
@[simp] theorem raise_w (exception : Status) (s : State) : (raise exception s).w = s.w := rfl
@[simp] theorem raise_h (exception : Status) (s : State) : (raise exception s).h = s.h := rfl
@[simp] theorem raise_pathtok (exception : Status) (s : State) : (raise exception s).pathtok = s.pathtok := rfl
@[simp] theorem raise_pix (exception : Status) (s : State) : (raise exception s).pix = s.pix := rfl
@[simp] theorem raise_q (exception : Status) (s : State) : (raise exception s).q = s.q := rfl
@[simp] theorem raise_slb (exception : Status) (s : State) : (raise exception s).slb = s.slb := rfl
@[simp] theorem raise_st (exception : Status) (s : State) : (raise exception s).st = s.st := rfl
@[simp] theorem raise_y (exception : Status) (s : State) : (raise exception s).y = s.y := rfl
@[simp] theorem raise_x (exception : Status) (s : State) : (raise exception s).x = s.x := rfl
@[simp] theorem raise_p (exception : Status) (s : State) : (raise exception s).p = s.p := rfl
@[simp] theorem raise_rem (exception : Status) (s : State) : (raise exception s).rem = s.rem := rfl
@[simp] theorem raise_k (exception : Status) (s : State) : (raise exception s).k = s.k := rfl
@[simp] theorem raise_hp (exception : Status) (s : State) : (raise exception s).hp = s.hp := rfl
@[simp] theorem raise_err (exception : Status) (s : State) : (raise exception s).err = s.err := rfl
@[simp] theorem raise_handle (exception : Status) (s : State) : (raise exception s).handle = s.handle := rfl
@[simp] theorem raise_seq (exception : Status) (s : State) : (raise exception s).seq = if exception = .writeFailure then .failing else .raising exception := rfl
@[simp] theorem raise_mp (exception : Status) (s : State) : (raise exception s).mp = s.mp := rfl
@[simp] theorem raise_payload (exception : Status) (s : State) : (raise exception s).payload = s.payload := rfl
@[simp] theorem raise_draws (exception : Status) (s : State) : (raise exception s).draws = s.draws := rfl
@[simp] theorem raise_cmd (exception : Status) (s : State) : (raise exception s).cmd = s.cmd := rfl
@[simp] theorem raise_rsp (exception : Status) (s : State) : (raise exception s).rsp = s.rsp := rfl
@[simp] theorem raise_img (exception : Status) (s : State) : (raise exception s).img = s.img := rfl
@[simp] theorem raise_imgAnswers (exception : Status) (s : State) : (raise exception s).imgAnswers = s.imgAnswers := rfl
@[simp] theorem raise_streams (exception : Status) (s : State) : (raise exception s).streams = s.streams := rfl
@[simp] theorem raise_sinkAnswers (exception : Status) (s : State) : (raise exception s).sinkAnswers = s.sinkAnswers := rfl
@[simp] theorem raise_resetReq (exception : Status) (s : State) : (raise exception s).resetReq = s.resetReq := rfl
@[simp] theorem raise_trace (exception : Status) (s : State) : (raise exception s).trace = s.trace := rfl
@[simp] theorem raise_stream (exception : Status) (s : State) (tok : Word) : State.stream (raise exception s) tok = State.stream s tok := rfl

/-! ### acceptReserved -/

@[simp] theorem acceptReserved_op (descriptor : List Byte) (s : State) : (acceptReserved descriptor s).op = descriptor.head?.getD s.op := rfl
@[simp] theorem acceptReserved_w (descriptor : List Byte) (s : State) : (acceptReserved descriptor s).w = s.w := rfl
@[simp] theorem acceptReserved_h (descriptor : List Byte) (s : State) : (acceptReserved descriptor s).h = s.h := rfl
@[simp] theorem acceptReserved_pathtok (descriptor : List Byte) (s : State) : (acceptReserved descriptor s).pathtok = s.pathtok := rfl
@[simp] theorem acceptReserved_pix (descriptor : List Byte) (s : State) : (acceptReserved descriptor s).pix = s.pix := rfl
@[simp] theorem acceptReserved_q (descriptor : List Byte) (s : State) : (acceptReserved descriptor s).q = s.q := rfl
@[simp] theorem acceptReserved_slb (descriptor : List Byte) (s : State) : (acceptReserved descriptor s).slb = s.slb := rfl
@[simp] theorem acceptReserved_st (descriptor : List Byte) (s : State) : (acceptReserved descriptor s).st = s.st := rfl
@[simp] theorem acceptReserved_y (descriptor : List Byte) (s : State) : (acceptReserved descriptor s).y = s.y := rfl
@[simp] theorem acceptReserved_x (descriptor : List Byte) (s : State) : (acceptReserved descriptor s).x = s.x := rfl
@[simp] theorem acceptReserved_p (descriptor : List Byte) (s : State) : (acceptReserved descriptor s).p = s.p := rfl
@[simp] theorem acceptReserved_rem (descriptor : List Byte) (s : State) : (acceptReserved descriptor s).rem = s.rem := rfl
@[simp] theorem acceptReserved_k (descriptor : List Byte) (s : State) : (acceptReserved descriptor s).k = s.k := rfl
@[simp] theorem acceptReserved_hp (descriptor : List Byte) (s : State) : (acceptReserved descriptor s).hp = s.hp := rfl
@[simp] theorem acceptReserved_err (descriptor : List Byte) (s : State) : (acceptReserved descriptor s).err = s.err := rfl
@[simp] theorem acceptReserved_handle (descriptor : List Byte) (s : State) : (acceptReserved descriptor s).handle = s.handle := rfl
@[simp] theorem acceptReserved_seq (descriptor : List Byte) (s : State) : (acceptReserved descriptor s).seq = s.seq := rfl
@[simp] theorem acceptReserved_mp (descriptor : List Byte) (s : State) : (acceptReserved descriptor s).mp = s.mp := rfl
@[simp] theorem acceptReserved_payload (descriptor : List Byte) (s : State) : (acceptReserved descriptor s).payload = s.payload := rfl
@[simp] theorem acceptReserved_draws (descriptor : List Byte) (s : State) : (acceptReserved descriptor s).draws = s.draws := rfl
@[simp] theorem acceptReserved_cmd (descriptor : List Byte) (s : State) : (acceptReserved descriptor s).cmd = s.cmd := rfl
@[simp] theorem acceptReserved_rsp (descriptor : List Byte) (s : State) : (acceptReserved descriptor s).rsp = s.rsp := rfl
@[simp] theorem acceptReserved_img (descriptor : List Byte) (s : State) : (acceptReserved descriptor s).img = s.img := rfl
@[simp] theorem acceptReserved_imgAnswers (descriptor : List Byte) (s : State) : (acceptReserved descriptor s).imgAnswers = s.imgAnswers := rfl
@[simp] theorem acceptReserved_streams (descriptor : List Byte) (s : State) : (acceptReserved descriptor s).streams = s.streams := rfl
@[simp] theorem acceptReserved_sinkAnswers (descriptor : List Byte) (s : State) : (acceptReserved descriptor s).sinkAnswers = s.sinkAnswers := rfl
@[simp] theorem acceptReserved_resetReq (descriptor : List Byte) (s : State) : (acceptReserved descriptor s).resetReq = s.resetReq := rfl
@[simp] theorem acceptReserved_trace (descriptor : List Byte) (s : State) : (acceptReserved descriptor s).trace = s.trace := rfl
@[simp] theorem acceptReserved_stream (descriptor : List Byte) (s : State) (tok : Word) : State.stream (acceptReserved descriptor s) tok = State.stream s tok := rfl

/-! ### oneAnswer -/

@[simp] theorem oneAnswer_op (s : State) : (oneAnswer s).op = s.op := rfl
@[simp] theorem oneAnswer_w (s : State) : (oneAnswer s).w = s.w := rfl
@[simp] theorem oneAnswer_h (s : State) : (oneAnswer s).h = s.h := rfl
@[simp] theorem oneAnswer_pathtok (s : State) : (oneAnswer s).pathtok = s.pathtok := rfl
@[simp] theorem oneAnswer_pix (s : State) : (oneAnswer s).pix = s.pix := rfl
@[simp] theorem oneAnswer_q (s : State) : (oneAnswer s).q = s.q := rfl
@[simp] theorem oneAnswer_slb (s : State) : (oneAnswer s).slb = s.slb := rfl
@[simp] theorem oneAnswer_st (s : State) : (oneAnswer s).st = s.st := rfl
@[simp] theorem oneAnswer_y (s : State) : (oneAnswer s).y = s.y := rfl
@[simp] theorem oneAnswer_x (s : State) : (oneAnswer s).x = s.x := rfl
@[simp] theorem oneAnswer_p (s : State) : (oneAnswer s).p = s.p := rfl
@[simp] theorem oneAnswer_rem (s : State) : (oneAnswer s).rem = s.rem := rfl
@[simp] theorem oneAnswer_k (s : State) : (oneAnswer s).k = s.k := rfl
@[simp] theorem oneAnswer_hp (s : State) : (oneAnswer s).hp = s.hp := rfl
@[simp] theorem oneAnswer_err (s : State) : (oneAnswer s).err = s.err := rfl
@[simp] theorem oneAnswer_handle (s : State) : (oneAnswer s).handle = s.handle := rfl
@[simp] theorem oneAnswer_seq (s : State) : (oneAnswer s).seq = s.seq := rfl
@[simp] theorem oneAnswer_mp (s : State) : (oneAnswer s).mp = s.mp := rfl
@[simp] theorem oneAnswer_payload (s : State) : (oneAnswer s).payload = s.payload := rfl
@[simp] theorem oneAnswer_draws (s : State) : (oneAnswer s).draws = s.draws := rfl
@[simp] theorem oneAnswer_cmd (s : State) : (oneAnswer s).cmd = s.cmd := rfl
@[simp] theorem oneAnswer_rsp (s : State) : (oneAnswer s).rsp = s.rsp := rfl
@[simp] theorem oneAnswer_img (s : State) : (oneAnswer s).img = s.img := rfl
@[simp] theorem oneAnswer_imgAnswers (s : State) : (oneAnswer s).imgAnswers = s.imgAnswers := rfl
@[simp] theorem oneAnswer_streams (s : State) : (oneAnswer s).streams = s.streams := rfl
@[simp] theorem oneAnswer_sinkAnswers (s : State) : (oneAnswer s).sinkAnswers = s.sinkAnswers.take 1 := rfl
@[simp] theorem oneAnswer_resetReq (s : State) : (oneAnswer s).resetReq = s.resetReq := rfl
@[simp] theorem oneAnswer_trace (s : State) : (oneAnswer s).trace = s.trace := rfl
@[simp] theorem oneAnswer_stream (s : State) (tok : Word) : State.stream (oneAnswer s) tok = State.stream s tok := rfl

/-! ### moreAnswers -/

@[simp] theorem moreAnswers_op (later : List SinkAnswer) (s : State) : (moreAnswers later s).op = s.op := rfl
@[simp] theorem moreAnswers_w (later : List SinkAnswer) (s : State) : (moreAnswers later s).w = s.w := rfl
@[simp] theorem moreAnswers_h (later : List SinkAnswer) (s : State) : (moreAnswers later s).h = s.h := rfl
@[simp] theorem moreAnswers_pathtok (later : List SinkAnswer) (s : State) : (moreAnswers later s).pathtok = s.pathtok := rfl
@[simp] theorem moreAnswers_pix (later : List SinkAnswer) (s : State) : (moreAnswers later s).pix = s.pix := rfl
@[simp] theorem moreAnswers_q (later : List SinkAnswer) (s : State) : (moreAnswers later s).q = s.q := rfl
@[simp] theorem moreAnswers_slb (later : List SinkAnswer) (s : State) : (moreAnswers later s).slb = s.slb := rfl
@[simp] theorem moreAnswers_st (later : List SinkAnswer) (s : State) : (moreAnswers later s).st = s.st := rfl
@[simp] theorem moreAnswers_y (later : List SinkAnswer) (s : State) : (moreAnswers later s).y = s.y := rfl
@[simp] theorem moreAnswers_x (later : List SinkAnswer) (s : State) : (moreAnswers later s).x = s.x := rfl
@[simp] theorem moreAnswers_p (later : List SinkAnswer) (s : State) : (moreAnswers later s).p = s.p := rfl
@[simp] theorem moreAnswers_rem (later : List SinkAnswer) (s : State) : (moreAnswers later s).rem = s.rem := rfl
@[simp] theorem moreAnswers_k (later : List SinkAnswer) (s : State) : (moreAnswers later s).k = s.k := rfl
@[simp] theorem moreAnswers_hp (later : List SinkAnswer) (s : State) : (moreAnswers later s).hp = s.hp := rfl
@[simp] theorem moreAnswers_err (later : List SinkAnswer) (s : State) : (moreAnswers later s).err = s.err := rfl
@[simp] theorem moreAnswers_handle (later : List SinkAnswer) (s : State) : (moreAnswers later s).handle = s.handle := rfl
@[simp] theorem moreAnswers_seq (later : List SinkAnswer) (s : State) : (moreAnswers later s).seq = s.seq := rfl
@[simp] theorem moreAnswers_mp (later : List SinkAnswer) (s : State) : (moreAnswers later s).mp = s.mp := rfl
@[simp] theorem moreAnswers_payload (later : List SinkAnswer) (s : State) : (moreAnswers later s).payload = s.payload := rfl
@[simp] theorem moreAnswers_draws (later : List SinkAnswer) (s : State) : (moreAnswers later s).draws = s.draws := rfl
@[simp] theorem moreAnswers_cmd (later : List SinkAnswer) (s : State) : (moreAnswers later s).cmd = s.cmd := rfl
@[simp] theorem moreAnswers_rsp (later : List SinkAnswer) (s : State) : (moreAnswers later s).rsp = s.rsp := rfl
@[simp] theorem moreAnswers_img (later : List SinkAnswer) (s : State) : (moreAnswers later s).img = s.img := rfl
@[simp] theorem moreAnswers_imgAnswers (later : List SinkAnswer) (s : State) : (moreAnswers later s).imgAnswers = s.imgAnswers := rfl
@[simp] theorem moreAnswers_streams (later : List SinkAnswer) (s : State) : (moreAnswers later s).streams = s.streams := rfl
@[simp] theorem moreAnswers_sinkAnswers (later : List SinkAnswer) (s : State) : (moreAnswers later s).sinkAnswers = s.sinkAnswers ++ later := rfl
@[simp] theorem moreAnswers_resetReq (later : List SinkAnswer) (s : State) : (moreAnswers later s).resetReq = s.resetReq := rfl
@[simp] theorem moreAnswers_trace (later : List SinkAnswer) (s : State) : (moreAnswers later s).trace = s.trace := rfl
@[simp] theorem moreAnswers_stream (later : List SinkAnswer) (s : State) (tok : Word) : State.stream (moreAnswers later s) tok = State.stream s tok := rfl

/-! ### resetIn -/

@[simp] theorem resetIn_op (n : Nat) (s : State) : (resetIn n s).op = s.op := rfl
@[simp] theorem resetIn_w (n : Nat) (s : State) : (resetIn n s).w = s.w := rfl
@[simp] theorem resetIn_h (n : Nat) (s : State) : (resetIn n s).h = s.h := rfl
@[simp] theorem resetIn_pathtok (n : Nat) (s : State) : (resetIn n s).pathtok = s.pathtok := rfl
@[simp] theorem resetIn_pix (n : Nat) (s : State) : (resetIn n s).pix = s.pix := rfl
@[simp] theorem resetIn_q (n : Nat) (s : State) : (resetIn n s).q = s.q := rfl
@[simp] theorem resetIn_slb (n : Nat) (s : State) : (resetIn n s).slb = s.slb := rfl
@[simp] theorem resetIn_st (n : Nat) (s : State) : (resetIn n s).st = s.st := rfl
@[simp] theorem resetIn_y (n : Nat) (s : State) : (resetIn n s).y = s.y := rfl
@[simp] theorem resetIn_x (n : Nat) (s : State) : (resetIn n s).x = s.x := rfl
@[simp] theorem resetIn_p (n : Nat) (s : State) : (resetIn n s).p = s.p := rfl
@[simp] theorem resetIn_rem (n : Nat) (s : State) : (resetIn n s).rem = s.rem := rfl
@[simp] theorem resetIn_k (n : Nat) (s : State) : (resetIn n s).k = s.k := rfl
@[simp] theorem resetIn_hp (n : Nat) (s : State) : (resetIn n s).hp = s.hp := rfl
@[simp] theorem resetIn_err (n : Nat) (s : State) : (resetIn n s).err = s.err := rfl
@[simp] theorem resetIn_handle (n : Nat) (s : State) : (resetIn n s).handle = s.handle := rfl
@[simp] theorem resetIn_seq (n : Nat) (s : State) : (resetIn n s).seq = s.seq := rfl
@[simp] theorem resetIn_mp (n : Nat) (s : State) : (resetIn n s).mp = s.mp := rfl
@[simp] theorem resetIn_payload (n : Nat) (s : State) : (resetIn n s).payload = s.payload := rfl
@[simp] theorem resetIn_draws (n : Nat) (s : State) : (resetIn n s).draws = s.draws := rfl
@[simp] theorem resetIn_cmd (n : Nat) (s : State) : (resetIn n s).cmd = s.cmd := rfl
@[simp] theorem resetIn_rsp (n : Nat) (s : State) : (resetIn n s).rsp = s.rsp := rfl
@[simp] theorem resetIn_img (n : Nat) (s : State) : (resetIn n s).img = s.img := rfl
@[simp] theorem resetIn_imgAnswers (n : Nat) (s : State) : (resetIn n s).imgAnswers = s.imgAnswers := rfl
@[simp] theorem resetIn_streams (n : Nat) (s : State) : (resetIn n s).streams = s.streams := rfl
@[simp] theorem resetIn_sinkAnswers (n : Nat) (s : State) : (resetIn n s).sinkAnswers = s.sinkAnswers := rfl
@[simp] theorem resetIn_resetReq (n : Nat) (s : State) : (resetIn n s).resetReq = some n := rfl
@[simp] theorem resetIn_trace (n : Nat) (s : State) : (resetIn n s).trace = s.trace := rfl
@[simp] theorem resetIn_stream (n : Nat) (s : State) (tok : Word) : State.stream (resetIn n s) tok = State.stream s tok := rfl

/-! ### respond -/

@[simp] theorem respond_op (status : Status) (payload : List Byte) (s : State) :
    (respond status payload s).op = s.op := by
  unfold respond; split <;> rfl
@[simp] theorem respond_w (status : Status) (payload : List Byte) (s : State) :
    (respond status payload s).w = s.w := by
  unfold respond; split <;> rfl
@[simp] theorem respond_h (status : Status) (payload : List Byte) (s : State) :
    (respond status payload s).h = s.h := by
  unfold respond; split <;> rfl
@[simp] theorem respond_pathtok (status : Status) (payload : List Byte) (s : State) :
    (respond status payload s).pathtok = s.pathtok := by
  unfold respond; split <;> rfl
@[simp] theorem respond_pix (status : Status) (payload : List Byte) (s : State) :
    (respond status payload s).pix = if Status.ranCommand status then Config.leftPixel s.draws else s.pix := by
  unfold respond; split <;> rfl
@[simp] theorem respond_q (status : Status) (payload : List Byte) (s : State) :
    (respond status payload s).q = if Status.ranCommand status then Config.leftQuad s.draws else s.q := by
  unfold respond; split <;> rfl
@[simp] theorem respond_slb (status : Status) (payload : List Byte) (s : State) :
    (respond status payload s).slb = if Status.ranCommand status then (if s.op = Config.opQuant then s.slb else []) else s.slb := by
  unfold respond; split <;> rfl
@[simp] theorem respond_st (status : Status) (payload : List Byte) (s : State) :
    (respond status payload s).st = s.st := by
  unfold respond; split <;> rfl
@[simp] theorem respond_y (status : Status) (payload : List Byte) (s : State) :
    (respond status payload s).y = s.y := by
  unfold respond; split <;> rfl
@[simp] theorem respond_x (status : Status) (payload : List Byte) (s : State) :
    (respond status payload s).x = s.x := by
  unfold respond; split <;> rfl
@[simp] theorem respond_p (status : Status) (payload : List Byte) (s : State) :
    (respond status payload s).p = s.p := by
  unfold respond; split <;> rfl
@[simp] theorem respond_rem (status : Status) (payload : List Byte) (s : State) :
    (respond status payload s).rem = s.rem := by
  unfold respond; split <;> rfl
@[simp] theorem respond_k (status : Status) (payload : List Byte) (s : State) :
    (respond status payload s).k = s.k := by
  unfold respond; split <;> rfl
@[simp] theorem respond_hp (status : Status) (payload : List Byte) (s : State) :
    (respond status payload s).hp = s.hp := by
  unfold respond; split <;> rfl
@[simp] theorem respond_err (status : Status) (payload : List Byte) (s : State) :
    (respond status payload s).err = status := by
  unfold respond; split <;> rfl
@[simp] theorem respond_handle (status : Status) (payload : List Byte) (s : State) :
    (respond status payload s).handle = s.handle := by
  unfold respond; split <;> rfl
@[simp] theorem respond_seq (status : Status) (payload : List Byte) (s : State) :
    (respond status payload s).seq = .idle := by
  unfold respond; split <;> rfl
@[simp] theorem respond_mp (status : Status) (payload : List Byte) (s : State) :
    (respond status payload s).mp = s.mp := by
  unfold respond; split <;> rfl
@[simp] theorem respond_payload (status : Status) (payload : List Byte) (s : State) :
    (respond status payload s).payload = [] := by
  unfold respond; split <;> rfl
@[simp] theorem respond_draws (status : Status) (payload : List Byte) (s : State) :
    (respond status payload s).draws = if Status.ranCommand status then s.draws + 1 else s.draws := by
  unfold respond; split <;> rfl
@[simp] theorem respond_cmd (status : Status) (payload : List Byte) (s : State) :
    (respond status payload s).cmd = s.cmd := by
  unfold respond; split <;> rfl
@[simp] theorem respond_rsp (status : Status) (payload : List Byte) (s : State) :
    (respond status payload s).rsp = s.rsp ++ [responseBytes status payload] := by
  unfold respond; split <;> rfl
@[simp] theorem respond_img (status : Status) (payload : List Byte) (s : State) :
    (respond status payload s).img = s.img := by
  unfold respond; split <;> rfl
@[simp] theorem respond_imgAnswers (status : Status) (payload : List Byte) (s : State) :
    (respond status payload s).imgAnswers = s.imgAnswers := by
  unfold respond; split <;> rfl
@[simp] theorem respond_streams (status : Status) (payload : List Byte) (s : State) :
    (respond status payload s).streams = s.streams := by
  unfold respond; split <;> rfl
@[simp] theorem respond_sinkAnswers (status : Status) (payload : List Byte) (s : State) :
    (respond status payload s).sinkAnswers = s.sinkAnswers := by
  unfold respond; split <;> rfl
@[simp] theorem respond_resetReq (status : Status) (payload : List Byte) (s : State) :
    (respond status payload s).resetReq = s.resetReq := by
  unfold respond; split <;> rfl
@[simp] theorem respond_trace (status : Status) (payload : List Byte) (s : State) :
    (respond status payload s).trace = s.trace ++ [.respond (responseBytes status payload)] := by
  unfold respond; split <;> rfl
@[simp] theorem respond_stream (status : Status) (payload : List Byte) (s : State) (tok : Word) :
    State.stream (respond status payload s) tok = State.stream s tok := by
  unfold respond; split <;> rfl


end Sys2Proof.Machine
end

