-- ==== Sys2Proof/Laws/Emit.lean ====
section
/-! SUPPORT. What an emission can do: the shared operations `emit`, `emitRecord`, `emitScanlineRecord`, said once. -/

namespace Sys2Proof.Machine

/-! ### Streams -/

theorem set_set {α : Type} (m : Memory α) (a : Nat) (u v : α) :
    Memory.set (Memory.set m a u) a v = Memory.set m a v := by
  induction m with
  | nil => simp [Memory.set]
  | cons head m ih =>
    obtain ⟨b, w⟩ := head
    by_cases h1 : a < b
    · simp [Memory.set, h1]
    · by_cases h2 : a = b
      · subst h2; simp [Memory.set]
      · simp [Memory.set, h1, h2, ih]

theorem toNat_ne {a b : Word} (h : a ≠ b) : a.toNat ≠ b.toNat := fun he => h (BitVec.eq_of_toNat_eq he)

theorem stream_accepted (b : Byte) (later : List SinkAnswer) (s : State) :
    State.stream (accepted b later s) s.pathtok = State.stream s s.pathtok ++ [b] := by
  simp [State.stream]

/-! ### `wrote` -/

theorem wrote_nil (later : List SinkAnswer) (s : State) : wrote [] later s = { s with sinkAnswers := later } := by
  simp [wrote, acceptedWrites]

theorem stream_wrote (bytes : List Byte) (later : List SinkAnswer) (s : State) :
    State.stream (wrote bytes later s) s.pathtok = State.stream s s.pathtok ++ bytes := by
  cases bytes with
  | nil => simp [wrote, State.stream]
  | cons b bytes => simp [wrote, State.stream]

theorem stream_wrote_other (bytes : List Byte) (later : List SinkAnswer) (s : State) {tok : Word} (h : tok ≠ s.pathtok) :
    State.stream (wrote bytes later s) tok = State.stream s tok := by
  cases bytes with
  | nil => simp [wrote, State.stream]
  | cons b bytes => simp [wrote, State.stream, get?_set_other _ (toNat_ne h)]

theorem wrote_wrote (a b : List Byte) (l1 l2 : List SinkAnswer) (s : State) :
    wrote b l2 (wrote a l1 s) = wrote (a ++ b) l2 s := by
  cases a with
  | nil => simp [wrote, acceptedWrites]; rfl
  | cons x a =>
    cases b with
    | nil => simp [wrote, acceptedWrites]
    | cons y b => simp [wrote, acceptedWrites, State.stream, set_set]

theorem wrote_accepted (b : Byte) (bytes : List Byte) (l1 l2 : List SinkAnswer) (s : State) :
    wrote bytes l2 (accepted b l1 s) = wrote (b :: bytes) l2 s := by
  have : accepted b l1 s = wrote [b] l1 s := by simp [accepted, wrote, acceptedWrites]
  rw [this, wrote_wrote]; rfl

/-- A refused byte is in the stream or not, as the answer says (R66, U6). -/
theorem stream_rejected (b : Byte) (landed : Bool) (later : List SinkAnswer) (s : State) :
    State.stream (rejected b landed later s) s.pathtok = State.stream s s.pathtok ++ (if landed then [b] else []) := by
  cases landed <;> simp [rejected, State.stream]

theorem stream_rejected_other (b : Byte) (landed : Bool) (later : List SinkAnswer) (s : State) {tok : Word}
    (h : tok ≠ s.pathtok) : State.stream (rejected b landed later s) tok = State.stream s tok := by
  cases landed <;> simp [rejected, State.stream, get?_set_other _ (toNat_ne h)]

/-! ### `emit` -/

/-- Every byte accepted (R204). -/
theorem emit_ok (bytes : List Byte) : ∀ (s : State) (later : List SinkAnswer),
    answersOk s bytes.length later → emit bytes s = .done (wrote bytes later s) := by
  induction bytes with
  | nil =>
    intro s later h
    simp only [answersOk, List.length_nil, List.replicate_zero, List.nil_append] at h
    rw [wrote_nil, ← h]; rfl
  | cons b bytes ih =>
    intro s later h
    simp only [answersOk, List.length_cons, List.replicate_succ, List.cons_append] at h
    simp only [emit, h]
    rw [ih _ later (by simp [answersOk]), wrote_accepted]

/-- The sink refuses the byte after the first `n` (R204): those are in the stream, nothing follows the refused one. -/
theorem emit_fail (bytes : List Byte) : ∀ (s : State) (n : Nat) (hn : n < bytes.length) (landed : Bool)
    (later : List SinkAnswer), answersFailAt s n landed later →
    emit bytes s = .failed (bytes.length - n)
      (rejected bytes[n] landed later (wrote (bytes.take n) (.fail landed :: later) s)) := by
  induction bytes with
  | nil => intro s n hn; simp at hn
  | cons b bytes ih =>
    intro s n hn landed later h
    cases n with
    | zero =>
      simp only [answersFailAt, List.replicate_zero, List.nil_append] at h
      simp only [emit, h]
      simp only [List.take_zero, wrote_nil, ← h, List.length_cons, Nat.sub_zero, List.getElem_cons_zero]
    | succ n =>
      simp only [answersFailAt, List.replicate_succ, List.cons_append] at h
      simp only [emit, h]
      rw [ih _ n (by simpa using hn) landed later (by simp [answersFailAt])]
      simp only [List.length_cons, List.take_succ_cons, List.getElem_cons_succ, wrote_accepted, Nat.add_sub_add_right]

/-- The sink has answered `ok` only for the first `n` bytes so far (R262). -/
theorem emit_waiting (bytes : List Byte) : ∀ (s : State) (n : Nat), n < bytes.length → answersOk s n [] →
    emit bytes s = .waiting (bytes.length - n) (wrote (bytes.take n) [] s) := by
  induction bytes with
  | nil => intro s n hn; simp at hn
  | cons b bytes ih =>
    intro s n hn h
    cases n with
    | zero =>
      simp only [answersOk, List.replicate_zero, List.nil_append] at h
      simp only [emit, h]
      simp only [List.take_zero, wrote_nil, ← h, List.length_cons, Nat.sub_zero]
    | succ n =>
      simp only [answersOk, List.replicate_succ, List.cons_append] at h
      simp only [emit, h]
      rw [ih _ n (by simpa using hn) (by simp [answersOk])]
      simp only [List.length_cons, List.take_succ_cons, wrote_accepted, Nat.add_sub_add_right]

/-- A list of answers begins with as many `ok` as are needed, or with fewer and then ends or refuses. -/
theorem answers_cases (answers : List SinkAnswer) (n : Nat) :
    (∃ later, answers = List.replicate n .ok ++ later)
    ∨ (∃ j, j < n ∧ answers = List.replicate j .ok)
    ∨ (∃ j landed later, j < n ∧ answers = List.replicate j .ok ++ .fail landed :: later) := by
  induction n generalizing answers with
  | zero => exact Or.inl ⟨answers, by simp⟩
  | succ n ih =>
    match answers with
    | [] => exact Or.inr (Or.inl ⟨0, by omega, rfl⟩)
    | .fail landed :: later => exact Or.inr (Or.inr ⟨0, landed, later, by omega, rfl⟩)
    | .ok :: answers =>
      rcases ih answers with ⟨later, rfl⟩ | ⟨j, hj, rfl⟩ | ⟨j, landed, later, hj, rfl⟩
      · exact Or.inl ⟨later, by simp [List.replicate_succ]⟩
      · exact Or.inr (Or.inl ⟨j + 1, by omega, by simp [List.replicate_succ]⟩)
      · exact Or.inr (Or.inr ⟨j + 1, landed, later, by omega, by simp [List.replicate_succ]⟩)

/-- Everything `emitRecord` can do with an open sink: the whole record was accepted, or the sink has not answered all of it
yet, or it refused a byte. -/
theorem emitRecord_cases (bytes : List Byte) (save : Nat → State → State) (next : State → State) (s : State)
    (hs : s.handle = true) :
    (∃ later, answersOk s bytes.length later ∧ emitRecord bytes save next s = .next (next (wrote bytes later s)))
    ∨ (∃ n, n < bytes.length ∧ answersOk s n [] ∧
        emitRecord bytes save next s = .next (save (bytes.length - n) (wrote (bytes.take n) [] s)))
    ∨ (∃ n landed later, ∃ hn : n < bytes.length, answersFailAt s n landed later ∧
        emitRecord bytes save next s = .next (raise .writeFailure (save (bytes.length - n)
          (rejected bytes[n] landed later (wrote (bytes.take n) (.fail landed :: later) s))))) := by
  rcases answers_cases s.sinkAnswers bytes.length with ⟨later, h⟩ | ⟨n, hn, h⟩ | ⟨n, landed, later, hn, h⟩
  · exact Or.inl ⟨later, h, by simp only [emitRecord, hs, if_true, emit_ok bytes s later h]⟩
  · refine Or.inr (Or.inl ⟨n, hn, by simpa [answersOk] using h, ?_⟩)
    simp only [emitRecord, hs, if_true, emit_waiting bytes s n hn (by simpa [answersOk] using h)]
  · refine Or.inr (Or.inr ⟨n, landed, later, hn, h, ?_⟩)
    simp only [emitRecord, hs, if_true, emit_fail bytes s n hn landed later h]

theorem emitRecord_ok {bytes : List Byte} {save : Nat → State → State} {next : State → State} {s : State}
    {later : List SinkAnswer} (hs : s.handle = true) (h : answersOk s bytes.length later) :
    emitRecord bytes save next s = .next (next (wrote bytes later s)) := by
  simp only [emitRecord, hs, if_true, emit_ok bytes s later h]

theorem emitRecord_fail {bytes : List Byte} {save : Nat → State → State} {next : State → State} {s : State}
    {n : Nat} {landed : Bool} {later : List SinkAnswer} (hs : s.handle = true) (hn : n < bytes.length)
    (h : answersFailAt s n landed later) :
    emitRecord bytes save next s = .next (raise .writeFailure (save (bytes.length - n)
      (rejected bytes[n] landed later (wrote (bytes.take n) (.fail landed :: later) s)))) := by
  simp only [emitRecord, hs, if_true, emit_fail bytes s n hn landed later h]

theorem emitRecord_waiting {bytes : List Byte} {save : Nat → State → State} {next : State → State} {s : State}
    {n : Nat} (hs : s.handle = true) (hn : n < bytes.length) (h : answersOk s n []) :
    emitRecord bytes save next s = .next (save (bytes.length - n) (wrote (bytes.take n) [] s)) := by
  simp only [emitRecord, hs, if_true, emit_waiting bytes s n hn h]

theorem emitRecord_closed {bytes : List Byte} {save : Nat → State → State} {next : State → State} {s : State}
    (hs : s.handle = false) : emitRecord bytes save next s = .refused .sinkNotOpen := by
  simp [emitRecord, hs]

/-- ENCSL's records go to the response payload, whole (R160). -/
theorem emitScanlineRecord_encsl {bytes : List Byte} {save : Nat → State → State} {next : State → State} {s : State}
    (h : s.op = Config.opEncsl) :
    emitScanlineRecord bytes save next s = .next (next (addPayload bytes s)) := by
  simp [emitScanlineRecord, h]

/-- WRITE's scanline records go to the sink (R209). -/
theorem emitScanlineRecord_write {bytes : List Byte} {save : Nat → State → State} {next : State → State} {s : State}
    (h : s.op ≠ Config.opEncsl) : emitScanlineRecord bytes save next s = emitRecord bytes save next s := by
  simp [emitScanlineRecord, h]

end Sys2Proof.Machine
end

