-- ==== Sys2Proof/Laws/Records.lean ====
section
/-! SUPPORT. What the record instructions share: each of them is one `emitRecord` of the bytes it has still to emit. -/

namespace Sys2Proof.Machine

/-- `f` writes nothing but the counters that keep a record's place: `HP`, `mp`, `K`. -/
def countersOnly (f : State → State) : Prop :=
  ∀ t : State, ∃ (hp : BitVec 7) (mp : BitVec 2) (k : BitVec 7), f t = { t with hp := hp, mp := mp, k := k }

theorem countersOnly_setHp (v : Nat) : countersOnly (setHp v) := fun t => ⟨_, t.mp, t.k, rfl⟩
theorem countersOnly_setMp (v : Nat) : countersOnly (setMp v) := fun t => ⟨t.hp, _, t.k, rfl⟩
theorem countersOnly_setK (n left : Nat) : countersOnly (setK n left) := fun t => ⟨t.hp, t.mp, _, rfl⟩

/-- A record of a WRITE is one emission of the bytes it has still to emit; while it lasts, only its counters move. -/
theorem exec_record {i : Instr} {s : State} (hwf : i.wellFormed = true) (hne : recordRest i s ≠ [])
    (ho : s.op ≠ Config.opEncsl) :
    ∃ (save : Nat → State → State) (next : State → State),
      exec i s = emitRecord (recordRest i s) save next s ∧ ∀ left, countersOnly (save left) := by
  cases i with
  | hdrline1 => exact ⟨_, _, rfl, fun left => countersOnly_setHp _⟩
  | hdrline2 => exact ⟨_, _, rfl, fun left => countersOnly_setHp _⟩
  | hdrline3 => exact ⟨_, _, rfl, fun left => countersOnly_setHp _⟩
  | hdrline4 => exact ⟨_, _, rfl, fun left => countersOnly_setHp _⟩
  | resline h w => exact ⟨_, _, rfl, fun left => countersOnly_setHp _⟩
  | mark w => exact ⟨_, _, emitScanlineRecord_write ho, fun left => countersOnly_setMp _⟩
  | lit data =>
    simp only [Instr.wellFormed, Bool.and_eq_true, decide_eq_true_eq] at hwf
    refine ⟨setK data.length, advance data.length, ?_, fun left => countersOnly_setK _ _⟩
    show execLit data s = _
    rw [execLit, if_pos hwf, emitScanlineRecord_write ho]
    rfl
  | quant _ _ _ => exact absurd rfl hne
  | encsl _ _ => exact absurd rfl hne
  | write _ _ _ => exact absurd rfl hne
  | reservedCommand _ => exact absurd rfl hne
  | run _ _ => exact absurd rfl hne
  | rsp _ _ => exact absurd rfl hne

/-! ### Everything an emission can lead to -/

/-- What a record of `bytes` can lead to: the whole record was accepted, or the sink has not answered all of it yet, or it
refused a byte (R204, R249, R262). -/
def recordLeadsTo (bytes : List Byte) (save : Nat → State → State) (next : State → State) (s t : State) : Prop :=
  (∃ later, answersOk s bytes.length later ∧ t = next (wrote bytes later s))
  ∨ (∃ n, n < bytes.length ∧ answersOk s n [] ∧ t = save (bytes.length - n) (wrote (bytes.take n) [] s))
  ∨ (∃ n landed later, ∃ hn : n < bytes.length, answersFailAt s n landed later
      ∧ t = raise .writeFailure (save (bytes.length - n)
          (rejected bytes[n] landed later (wrote (bytes.take n) (.fail landed :: later) s))))

theorem emitRecord_next {bytes : List Byte} {save : Nat → State → State} {next : State → State} {s t : State}
    (h : emitRecord bytes save next s = .next t) : s.handle = true ∧ recordLeadsTo bytes save next s t := by
  by_cases hs : s.handle = true
  · refine ⟨hs, ?_⟩
    rcases emitRecord_cases bytes save next s hs with ⟨later, ha, he⟩ | ⟨n, hn, ha, he⟩ | ⟨n, landed, later, hn, ha, he⟩
    · rw [he] at h; cases h; exact Or.inl ⟨later, ha, rfl⟩
    · rw [he] at h; cases h; exact Or.inr (Or.inl ⟨n, hn, ha, rfl⟩)
    · rw [he] at h; cases h; exact Or.inr (Or.inr ⟨n, landed, later, hn, ha, rfl⟩)
  · rw [emitRecord_closed (by simpa using hs)] at h; cases h

theorem emitRecord_open {bytes : List Byte} {save : Nat → State → State} {next : State → State} {s : State}
    (hs : s.handle = true) : ∃ t, emitRecord bytes save next s = .next t := by
  rcases emitRecord_cases bytes save next s hs with ⟨later, -, he⟩ | ⟨n, -, -, he⟩ | ⟨n, landed, later, hn, -, he⟩
  · exact ⟨_, he⟩
  · exact ⟨_, he⟩
  · exact ⟨_, he⟩

theorem emitScanlineRecord_next {bytes : List Byte} {save : Nat → State → State} {next : State → State} {s t : State}
    (h : emitScanlineRecord bytes save next s = .next t) :
    (s.op = Config.opEncsl ∧ t = next (addPayload bytes s))
    ∨ (s.op ≠ Config.opEncsl ∧ s.handle = true ∧ recordLeadsTo bytes save next s t) := by
  by_cases ho : s.op = Config.opEncsl
  · rw [emitScanlineRecord_encsl ho] at h; cases h; exact Or.inl ⟨ho, rfl⟩
  · rw [emitScanlineRecord_write ho] at h; exact Or.inr ⟨ho, emitRecord_next h⟩

theorem execLit_next {data : List Byte} {s t : State} (h : execLit data s = .next t) :
    (1 ≤ data.length ∧ data.length ≤ Config.chunkMax)
    ∧ emitScanlineRecord (chunkRest data s.k) (setK data.length) (advance data.length) s = .next t := by
  unfold execLit at h
  split at h
  · rename_i hl; exact ⟨hl, h⟩
  · cases h

end Sys2Proof.Machine
end

