-- ==== Sys2Proof/Laws/Actions.lean ====
section
/-! SUPPORT. What each action of the sequencer can lead to, said once. -/

namespace Sys2Proof.Machine

/-- After a chunk (R165, R166, R210): the plane goes on, the next plane starts, ENCSL has its response left, WRITE closes after
row 0, or the next row follows. -/
theorem advance_cases (n : Nat) (s : State) :
    (s.rem - BitVec.ofNat 16 n ≠ 0#16 ∧ advance n s = goTo .chunking (passChunk n s))
    ∨ (s.rem - BitVec.ofNat 16 n = 0#16 ∧ s.p ≠ 3#2 ∧ advance n s = nextPlane (passChunk n s))
    ∨ (s.rem - BitVec.ofNat 16 n = 0#16 ∧ s.p = 3#2 ∧ s.op = Config.opEncsl
        ∧ advance n s = goTo .responding (passChunk n s))
    ∨ (s.rem - BitVec.ofNat 16 n = 0#16 ∧ s.p = 3#2 ∧ s.op ≠ Config.opEncsl ∧ s.y = 0#16
        ∧ advance n s = goTo .closing (rowDone (passChunk n s)))
    ∨ (s.rem - BitVec.ofNat 16 n = 0#16 ∧ s.p = 3#2 ∧ s.op ≠ Config.opEncsl ∧ s.y ≠ 0#16
        ∧ advance n s = nextRow (rowDone (passChunk n s))) := by
  unfold advance endPlane endScanline
  simp only [passChunk_rem, passChunk_p, passChunk_op, passChunk_y]
  by_cases h1 : s.rem - BitVec.ofNat 16 n = 0#16
  · by_cases h2 : s.p = 3#2
    · by_cases h3 : s.op = Config.opEncsl
      · simp [h1, h2, h3]
      · by_cases h4 : s.y = 0#16 <;> simp [h1, h2, h3, h4]
    · simp [h1, h2]
  · simp [h1]

/-- A quantization writes `Q`, and counts a draw where the pixel is invalid (R130, R141). -/
theorem quantizeStep_cases (s : State) :
    (validPixel s.pix = true ∧ quantizeStep s = setQ (quantizeValid s.pix) s)
    ∨ (validPixel s.pix = false ∧ quantizeStep s = drawQ s) := by
  unfold quantizeStep
  by_cases h : validPixel s.pix = true
  · exact Or.inl ⟨h, if_pos h⟩
  · exact Or.inr ⟨by simpa using h, if_neg h⟩

/-- Step OPEN (R192, R193, R262). -/
theorem stepOpen_next {s t : State} (h : stepOpen s = .next t) :
    (s.sinkAnswers = [] ∧ t = s)
    ∨ (∃ later, s.sinkAnswers = .ok :: later ∧ t = startHeader (openSink later s))
    ∨ (∃ landed later, s.sinkAnswers = .fail landed :: later ∧ t = raise .pathUnwritable (openRefused later s)) := by
  unfold stepOpen at h
  split at h
  · rename_i ha; cases h; exact Or.inl ⟨ha, rfl⟩
  · rename_i later ha; cases h; exact Or.inr (Or.inl ⟨later, ha, rfl⟩)
  · rename_i landed later ha; cases h; exact Or.inr (Or.inr ⟨landed, later, ha, rfl⟩)

/-- The row step's quantization (R208, U7b): a wait, one pixel, or the turn to the marker. -/
theorem stepQuantize_next {s t : State} (h : stepQuantize s = .next t) :
    (s.x.toNat < s.w.toNat ∧ s.imgAnswers = false ∧ t = s)
    ∨ (s.x.toNat < s.w.toNat ∧ s.imgAnswers = true
        ∧ ∃ pixel, Memory.get? s.img (pixelIndex s.w s.y s.x).toNat = some pixel
          ∧ t = storePixel (quantizeStep (latchPixel (pixelIndex s.w s.y s.x) pixel s)))
    ∨ (s.w.toNat ≤ s.x.toNat ∧ t = startScanline s) := by
  unfold stepQuantize at h
  by_cases hx : s.x.toNat < s.w.toNat
  · rw [if_pos hx] at h
    by_cases hi : s.imgAnswers = true
    · rw [if_pos hi] at h
      unfold memRead at h
      cases hp : Memory.get? s.img (pixelIndex s.w s.y s.x).toNat with
      | none => rw [hp] at h; cases h
      | some pixel => rw [hp] at h; cases h; exact Or.inr (Or.inl ⟨hx, hi, pixel, rfl, rfl⟩)
    · rw [if_neg hi] at h; cases h; exact Or.inl ⟨hx, by simpa using hi, rfl⟩
  · rw [if_neg hx] at h; cases h; exact Or.inr (Or.inr ⟨by omega, rfl⟩)

/-- Step CLOSE (R211). -/
theorem stepClose_next {s t : State} (h : stepClose s = .next t) :
    s.handle = true ∧ t = goTo .responding (closeSink s) := by
  unfold stepClose at h
  split at h
  · rename_i hh; cases h; exact ⟨hh, rfl⟩
  · cases h

/-- Everything one action can lead to. -/
theorem tick_next {s t : State} (h : tick s = .next t) :
    (s.seq = .idle ∧ t = s)
    ∨ (s.seq = .opening ∧ stepOpen s = .next t)
    ∨ (∃ (i : Instr) (line : List Byte) (start : Nat) (next : State → State),
        ((s.seq = .header1 ∧ line = Config.headerLine1 ∧ start = 0 ∧ next = goTo .header2)
          ∨ (s.seq = .header2 ∧ line = Config.headerLine2 ∧ start = 11 ∧ next = goTo .header3)
          ∨ (s.seq = .header3 ∧ line = Config.headerLine3 ∧ start = 42 ∧ next = goTo .header4)
          ∨ (s.seq = .header4 ∧ line = Config.headerLine4 ∧ start = 65 ∧ next = goTo .resolution)
          ∨ (s.seq = .resolution ∧ line = reslineBytes s.h s.w ∧ start = 101 ∧ next = enterRows))
        ∧ tick s = exec i s ∧ headerRecord line start next s = .next t)
    ∨ (s.seq = .quantizing ∧ stepQuantize s = .next t)
    ∨ (s.seq = .marking ∧ execMark s.w s = .next t)
    ∨ (s.seq = .chunking ∧ ∃ data, chunkData s = .ok data ∧ execLit data s = .next t)
    ∨ (s.seq = .closing ∧ stepClose s = .next t)
    ∨ (s.seq = .responding ∧ t = respond .ok s.payload s)
    ∨ (s.seq = .converting ∧ t = respondQ (quantizeStep s))
    ∨ (s.seq = .failing ∧ t = goTo (.raising .writeFailure) (closeSink s))
    ∨ (∃ exception, s.seq = .raising exception ∧ t = respond exception [] s) := by
  cases hs : s.seq <;> simp only [tick, hs] at h
  case idle => cases h; exact Or.inl ⟨rfl, rfl⟩
  case opening => exact Or.inr (Or.inl ⟨rfl, h⟩)
  case header1 =>
    exact Or.inr (Or.inr (Or.inl ⟨.hdrline1, _, _, _, Or.inl ⟨rfl, rfl, rfl, rfl⟩, by simp only [tick, hs]; rfl, h⟩))
  case header2 =>
    exact Or.inr (Or.inr (Or.inl ⟨.hdrline2, _, _, _, Or.inr (Or.inl ⟨rfl, rfl, rfl, rfl⟩), by simp only [tick, hs]; rfl, h⟩))
  case header3 =>
    exact Or.inr (Or.inr (Or.inl ⟨.hdrline3, _, _, _, Or.inr (Or.inr (Or.inl ⟨rfl, rfl, rfl, rfl⟩)),
      by simp only [tick, hs]; rfl, h⟩))
  case header4 =>
    exact Or.inr (Or.inr (Or.inl ⟨.hdrline4, _, _, _, Or.inr (Or.inr (Or.inr (Or.inl ⟨rfl, rfl, rfl, rfl⟩))),
      by simp only [tick, hs]; rfl, h⟩))
  case resolution =>
    exact Or.inr (Or.inr (Or.inl ⟨.resline s.h s.w, _, _, _, Or.inr (Or.inr (Or.inr (Or.inr ⟨rfl, rfl, rfl, rfl⟩))),
      by simp only [tick, hs]; rfl, h⟩))
  case quantizing => exact Or.inr (Or.inr (Or.inr (Or.inl ⟨rfl, h⟩)))
  case marking => exact Or.inr (Or.inr (Or.inr (Or.inr (Or.inl ⟨rfl, h⟩))))
  case chunking =>
    cases hd : chunkData s with
    | error f => rw [hd] at h; cases h
    | ok data => rw [hd] at h; exact Or.inr (Or.inr (Or.inr (Or.inr (Or.inr (Or.inl ⟨rfl, data, rfl, h⟩)))))
  case closing => exact Or.inr (Or.inr (Or.inr (Or.inr (Or.inr (Or.inr (Or.inl ⟨rfl, h⟩))))))
  case responding => cases h; exact Or.inr (Or.inr (Or.inr (Or.inr (Or.inr (Or.inr (Or.inr (Or.inl ⟨rfl, rfl⟩)))))))
  case converting => cases h; exact Or.inr (Or.inr (Or.inr (Or.inr (Or.inr (Or.inr (Or.inr (Or.inr (Or.inl ⟨rfl, rfl⟩))))))))
  case failing => cases h; exact Or.inr (Or.inr (Or.inr (Or.inr (Or.inr (Or.inr (Or.inr (Or.inr (Or.inr (Or.inl ⟨rfl, rfl⟩)))))))))
  case raising exception =>
    cases h
    exact Or.inr (Or.inr (Or.inr (Or.inr (Or.inr (Or.inr (Or.inr (Or.inr (Or.inr (Or.inr ⟨exception, rfl, rfl⟩)))))))))

end Sys2Proof.Machine
end

