-- ==== Sys2Proof/Laws/Encoding.lean ====
section
/-! SUPPORT. The encodings: fields read back what was written, decimal numerals read back, and when a byte sequence is none
of the fixed lines. -/

namespace Sys2Proof

/-! ### Big-endian fields -/

theorem beNat_halfBytes (v : Half) : beNat (halfBytes v) = v.toNat := by
  have := v.isLt
  simp [beNat, halfBytes, BitVec.extractLsb'_toNat, Nat.shiftRight_eq_div_pow]
  omega

theorem beNat_wordBytes (v : Word) : beNat (wordBytes v) = v.toNat := by
  have := v.isLt
  simp [beNat, wordBytes, BitVec.extractLsb'_toNat, Nat.shiftRight_eq_div_pow]
  omega

theorem beNat_f64Bytes (v : F64) : beNat (f64Bytes v) = v.toNat := by
  have := v.isLt
  simp [beNat, f64Bytes, BitVec.extractLsb'_toNat, Nat.shiftRight_eq_div_pow]
  omega

@[simp] theorem length_halfBytes (v : Half) : (halfBytes v).length = 2 := rfl
@[simp] theorem length_wordBytes (v : Word) : (wordBytes v).length = 4 := rfl
@[simp] theorem length_f64Bytes (v : F64) : (f64Bytes v).length = 8 := rfl
@[simp] theorem length_quadBytes (q : Quad) : (quadBytes q).length = 4 := rfl
@[simp] theorem length_markerBytes (w : Half) : (markerBytes w).length = 4 := rfl
@[simp] theorem length_chunkBytes (data : List Byte) : (chunkBytes data).length = data.length + 1 := rfl

/-- A field that stands at offset `pre.length` reads back. -/
theorem fieldAt_append (pre field rest : List Byte) :
    fieldAt (pre ++ (field ++ rest)) pre.length field.length = beNat field := by
  simp [fieldAt]

theorem widthField_encsl (w : Half) (rest : List Byte) :
    widthField (Config.opEncsl :: (halfBytes w ++ rest)) = w.toNat := by
  have := beNat_halfBytes w
  simpa [widthField, halfBytes, beNat] using this

theorem quadsOf_flatMap (row : List Quad) : quadsOf (row.flatMap quadBytes) = row := by
  induction row with
  | nil => rfl
  | cons q row ih => simpa [quadBytes, quadsOf] using ih

theorem length_flatMap_quadBytes (row : List Quad) : (row.flatMap quadBytes).length = 4 * row.length := by
  induction row with
  | nil => rfl
  | cons q row ih => simp only [List.flatMap_cons, List.length_append, ih, length_quadBytes, List.length_cons]; omega

/-- A descriptor's tail of whole quadruples is what its pixels spell. -/
theorem flatMap_quadsOf : ∀ (n : Nat) (c : List Byte), c.length = 4 * n → (quadsOf c).flatMap quadBytes = c := by
  intro n
  induction n with
  | zero => intro c h; rw [List.eq_nil_of_length_eq_zero (by omega : c.length = 0)]; rfl
  | succ n ih =>
    intro c h
    match c, h with
    | r :: g :: b :: e :: rest, h =>
      simp only [List.length_cons] at h
      simp only [quadsOf, List.flatMap_cons, quadBytes, ih rest (by omega)]
      rfl

theorem length_quadsOf : ∀ (n : Nat) (c : List Byte), c.length = 4 * n → (quadsOf c).length = n := by
  intro n
  induction n with
  | zero => intro c h; rw [List.eq_nil_of_length_eq_zero (by omega : c.length = 0)]; rfl
  | succ n ih =>
    intro c h
    match c, h with
    | r :: g :: b :: e :: rest, h =>
      simp only [List.length_cons] at h
      simp only [quadsOf, List.length_cons, ih rest (by omega)]

/-! ### Decimal numerals (R106) -/

theorem decDigit_toNat (n j : Nat) : (decDigit n j).toNat = 0x30 + n / 10 ^ j % 10 := by
  have : n / 10 ^ j % 10 < 10 := Nat.mod_lt _ (by decide)
  simp only [decDigit, BitVec.toNat_ofNat]
  omega

theorem decDigit_isDigit (n j : Nat) : isDigit (decDigit n j) = true := by
  have : n / 10 ^ j % 10 < 10 := Nat.mod_lt _ (by decide)
  simp only [isDigit, decDigit_toNat, Bool.and_eq_true, decide_eq_true_eq]
  omega

theorem dec_isDigit (n : Nat) : ∀ b ∈ dec n, isDigit b = true := by
  intro b hb
  simp only [dec, List.mem_map] at hb
  obtain ⟨j, -, rfl⟩ := hb
  exact decDigit_isDigit n j

@[simp] theorem length_dec (n : Nat) : (dec n).length = decLength n := by simp [dec]

theorem decLength_pos (n : Nat) : 1 ≤ decLength n := by
  unfold decLength; split_ifs <;> omega

theorem decLength_le (n : Nat) : decLength n ≤ 5 := by
  unfold decLength; split_ifs <;> omega

theorem parseDec_dec (n : Nat) (h : n < 65536) : parseDec (dec n) = n := by
  have hr1 : List.range 1 = [0] := rfl
  have hr2 : List.range 2 = [0, 1] := rfl
  have hr3 : List.range 3 = [0, 1, 2] := rfl
  have hr4 : List.range 4 = [0, 1, 2, 3] := rfl
  have hr5 : List.range 5 = [0, 1, 2, 3, 4] := rfl
  unfold dec decLength
  split_ifs <;>
    simp only [hr1, hr2, hr3, hr4, hr5, parseDec, List.reverse_cons, List.reverse_nil, List.nil_append, List.cons_append,
      List.map_cons, List.map_nil, List.foldl_cons, List.foldl_nil, decDigit_toNat] <;> omega

theorem takeWhile_digits (ds : List Byte) (h : ∀ b ∈ ds, isDigit b = true) (b : Byte) (hb : isDigit b = false)
    (rest : List Byte) : (ds ++ b :: rest).takeWhile isDigit = ds := by
  induction ds with
  | nil => simp [hb]
  | cons d ds ih =>
    have hd := h d (by simp)
    simp [hd, ih (fun b hb => h b (by simp [hb]))]

theorem dropWhile_digits (ds : List Byte) (h : ∀ b ∈ ds, isDigit b = true) (b : Byte) (hb : isDigit b = false)
    (rest : List Byte) : (ds ++ b :: rest).dropWhile isDigit = b :: rest := by
  induction ds with
  | nil => simp [hb]
  | cons d ds ih =>
    have hd := h d (by simp)
    simp [hd, ih (fun b hb => h b (by simp [hb]))]

/-! ### The resolution line (R107) -/

theorem length_reslineBytes (h w : Half) :
    (reslineBytes h w).length = 8 + decLength h.toNat + decLength w.toNat := by
  simp [reslineBytes]; omega

theorem parseResline_reslineBytes (h w : Half) : parseResline (reslineBytes h w) = some (.resline h w) := by
  have hh : (reslineBytes h w).drop 3
      = dec h.toNat ++ 0x20#8 :: ([0x2B#8, 0x58#8, 0x20#8] ++ (dec w.toNat ++ [Config.lf])) := by
    simp [reslineBytes]
  have h1 : ((reslineBytes h w).drop 3).takeWhile isDigit = dec h.toNat := by
    rw [hh]; exact takeWhile_digits _ (dec_isDigit _) _ (by decide) _
  have h2 : ((reslineBytes h w).drop 3).dropWhile isDigit
      = 0x20#8 :: ([0x2B#8, 0x58#8, 0x20#8] ++ (dec w.toNat ++ [Config.lf])) := by
    rw [hh]; exact dropWhile_digits _ (dec_isDigit _) _ (by decide) _
  have h3 : ((((reslineBytes h w).drop 3).dropWhile isDigit).drop 4).takeWhile isDigit = dec w.toNat := by
    rw [h2]; exact takeWhile_digits _ (dec_isDigit _) _ (by decide) []
  have e1 : BitVec.ofNat 16 (parseDec (dec h.toNat)) = h := by rw [parseDec_dec _ h.isLt]; simp
  have e2 : BitVec.ofNat 16 (parseDec (dec w.toNat)) = w := by rw [parseDec_dec _ w.isLt]; simp
  simp only [parseResline, h1, h3, e1, e2, if_true]

/-- What a resolution line looks like, for telling other records from it. -/
theorem parseResline_eq_none {c : List Byte} (hc : c.head? ≠ some 0x2D#8 ∨ c.length < 10 ∨ 18 < c.length) :
    parseResline c = none := by
  simp only [parseResline]
  split
  · rename_i heq
    exfalso
    have hl := congrArg List.length heq
    rw [length_reslineBytes] at hl
    have a1 := decLength_pos (BitVec.ofNat 16 (parseDec ((c.drop 3).takeWhile isDigit))).toNat
    have a2 := decLength_le (BitVec.ofNat 16 (parseDec ((c.drop 3).takeWhile isDigit))).toNat
    have b1 := decLength_pos (BitVec.ofNat 16 (parseDec ((((c.drop 3).dropWhile isDigit).drop 4).takeWhile isDigit))).toNat
    have b2 := decLength_le (BitVec.ofNat 16 (parseDec ((((c.drop 3).dropWhile isDigit).drop 4).takeWhile isDigit))).toNat
    rcases hc with hc | hc | hc
    · exact hc (by rw [← heq]; rfl)
    · omega
    · omega
  · rfl

/-- A byte sequence that is none of the four header lines and no resolution line. -/
theorem fixedLine_eq_none {c : List Byte} (h1 : c ≠ Config.headerLine1) (h2 : c ≠ Config.headerLine2)
    (h3 : c ≠ Config.headerLine3) (h4 : c ≠ Config.headerLine4) (h5 : parseResline c = none) : fixedLine c = none := by
  rw [fixedLine, if_neg h1, if_neg h2, if_neg h3, if_neg h4, h5]

theorem decodeRecord_of_fixed {c : List Byte} {i : Instr} (h : fixedLine c = some i) : decodeRecord c = .ok i := by
  rw [decodeRecord, h]

theorem decodeRecord_of_framed {c : List Byte} (h : fixedLine c = none) : decodeRecord c = decodeFramed c := by
  rw [decodeRecord, h]

theorem fixedLine_line1 : fixedLine Config.headerLine1 = some .hdrline1 := by rw [fixedLine, if_pos rfl]
theorem fixedLine_line2 : fixedLine Config.headerLine2 = some .hdrline2 := by
  rw [fixedLine, if_neg (by decide), if_pos rfl]
theorem fixedLine_line3 : fixedLine Config.headerLine3 = some .hdrline3 := by
  rw [fixedLine, if_neg (by decide), if_neg (by decide), if_pos rfl]
theorem fixedLine_line4 : fixedLine Config.headerLine4 = some .hdrline4 := by
  rw [fixedLine, if_neg (by decide), if_neg (by decide), if_neg (by decide), if_pos rfl]

/-- The first two bytes of the header lines, which no resolution line and no response shares. -/
theorem fixedLine_resline (h w : Half) : fixedLine (reslineBytes h w) = some (.resline h w) := by
  have hne : ∀ line : List Byte, line.head? ≠ some 0x2D#8 → reslineBytes h w ≠ line := by
    intro line hl he; exact hl (by rw [← he]; rfl)
  rw [fixedLine, if_neg (hne _ (by decide)), if_neg (hne _ (by decide)), if_neg (hne _ (by decide)),
    if_neg (hne _ (by decide)), parseResline_reslineBytes]

/-- A sequence whose first byte counts all but one of its bytes, or is 0, or is at least 0x80, is no fixed line. -/
theorem fixedLine_counted {b : Byte} {rest : List Byte}
    (h : b.toNat = rest.length ∨ b.toNat ≤ 4 ∨ 128 ≤ b.toNat) : fixedLine (b :: rest) = none := by
  have hne : ∀ (b0 : Byte) (line : List Byte), 5 ≤ b0.toNat → b0.toNat < 128 → b0.toNat ≠ line.length →
      b :: rest ≠ b0 :: line := by
    intro b0 line h1 h2 h3 he
    obtain ⟨rfl, rfl⟩ := List.cons.inj he
    omega
  refine fixedLine_eq_none (hne _ _ (by decide) (by decide) (by decide)) (hne _ _ (by decide) (by decide) (by decide))
    (hne _ _ (by decide) (by decide) (by decide)) (hne _ _ (by decide) (by decide) (by decide)) ?_
  apply parseResline_eq_none
  by_cases hb : b = 0x2D#8
  · right; right
    subst hb
    simp only [List.length_cons]
    have : (0x2D#8 : Byte).toNat = 45 := rfl
    omega
  · left; simpa using hb

/-- What follows a marker's first two bytes is read whole (R109). -/
theorem decodeFramed_marker (w : Half) : decodeFramed (markerBytes w) = .ok (.mark w) := by
  have hv := beNat_halfBytes w
  have : BitVec.ofNat 16 (256 * (w.extractLsb' 8 8).toNat + (w.extractLsb' 0 8).toNat) = w := by
    have h2 : 256 * (w.extractLsb' 8 8).toNat + (w.extractLsb' 0 8).toNat = w.toNat := by
      simpa [beNat, halfBytes] using hv
    rw [h2]; simp
  exact congrArg (fun v => Except.ok (Instr.mark v)) this

/-- A sequence of other than four bytes is no marker. -/
theorem decodeFramed_of_length {b : Byte} {rest : List Byte} (h : b ≠ 0x02#8 ∨ rest.length ≠ 3) :
    decodeFramed (b :: rest) = decodeCounted b rest := by
  unfold decodeFramed
  split
  · rename_i heq; simp at heq
  · rename_i hi lo heq
    obtain ⟨rfl, rfl⟩ := List.cons.inj heq
    simp at h
  · rename_i b' rest' _ heq
    obtain ⟨rfl, rfl⟩ := List.cons.inj heq
    rfl

end Sys2Proof
end

