-- ==== Sys2Proof/Laws/Run.lean ====
section
/-! SUPPORT. Running the sequencer: actions compose, a plane is its chunks, a scanline is the function `encodeScanline` (R160). -/

namespace Sys2Proof.Machine

/-- From `s` the command comes to `t` in `n` actions, none of them waiting. -/
def Runs (n : Nat) (s t : State) : Prop :=
  ∀ k, runCommand (n + k) s = runCommand k t

theorem Runs.refl (s : State) : Runs 0 s s := fun k => by rw [Nat.zero_add]

theorem Runs.trans {m n : Nat} {s t u : State} (h1 : Runs m s t) (h2 : Runs n t u) : Runs (m + n) s u := by
  intro k
  rw [Nat.add_assoc, h1, h2]

theorem Runs.one {s t : State} (hi : s.seq ≠ .idle) (hb : blocked s = false) (ht : tick s = .next t) : Runs 1 s t := by
  intro k
  rw [Nat.add_comm, runCommand, if_neg (by simp [hi, hb]), ht]

theorem runCommand_idle {s : State} (h : s.seq = .idle) (k : Nat) : runCommand k s = .next s := by
  cases k with
  | zero => rfl
  | succ k => rw [runCommand, if_pos (Or.inl h)]

theorem runCommand_blocked {s : State} (h : blocked s = true) (k : Nat) : runCommand k s = .next s := by
  cases k with
  | zero => rfl
  | succ k => rw [runCommand, if_pos (Or.inr h)]

/-- A command that comes to its end in `n` actions ends there with any fuel above that. -/
theorem Runs.ends {n : Nat} {s t : State} (h : Runs n s t) (ht : t.seq = .idle) (k : Nat) :
    runCommand (n + k) s = .next t := by
  rw [h, runCommand_idle ht]

/-- What every action keeps or only adds to, a running command keeps or only adds to. -/
theorem runCommand_induction {P : State → State → Prop} (refl : ∀ s, P s s) (trans : ∀ {s t u}, P s t → P t u → P s u)
    (action : ∀ {s t}, tick s = .next t → P s t) (n : Nat) : ∀ {s t}, runCommand n s = .next t → P s t := by
  induction n with
  | zero => intro s t h; cases h; exact refl _
  | succ n ih =>
    intro s t h
    rw [runCommand] at h
    split at h
    · cases h; exact refl _
    · split at h
      · rename_i u hu; exact trans (action hu) (ih h)
      · cases h
      · cases h

/-! ### Exceptions taken (R247) -/

/-- An exception with nothing to clean up: `ERR` and the response. -/
theorem runs_raising {s : State} {exception : Status} (h : s.seq = .raising exception) :
    Runs 1 s (respond exception [] s) :=
  Runs.one (by simp [h]) (by simp [blocked, h]) (by simp only [tick, h]; rfl)

/-- `s` after the FAIL path (R190, R249): the guaranteed close, `ERR`, the response. -/
def writeFailed (s : State) : State :=
  respond .writeFailure [] (goTo (.raising .writeFailure) (closeSink s))

theorem runs_failing {s : State} (h : s.seq = .failing) : Runs 2 s (writeFailed s) :=
  (Runs.one (t := goTo (.raising .writeFailure) (closeSink s)) (by simp [h]) (by simp [blocked, h])
    (by simp only [tick, h]; rfl)).trans (runs_raising rfl)

/-! ### Where the encoder's bytes go -/

/-- `s` after the bytes of an encoder record have gone where the running command sends them. -/
def putAll (bytes : List Byte) (s : State) : State :=
  if s.op = Config.opEncsl then addPayload bytes s
  else wrote bytes (s.sinkAnswers.drop bytes.length) s

/-- The next `n` encoder bytes can go out: ENCSL needs no sink, WRITE an open one that accepts them. -/
def ready (n : Nat) (s : State) : Prop :=
  s.op = Config.opEncsl ∨ (s.handle = true ∧ ∃ later, answersOk s n later)

/-- `s` at a given place of the encoder. -/
def place (x rem : Half) (p : BitVec 2) (seq : Position) (s : State) : State :=
  { s with x := x, rem := rem, p := p, k := 0#7, mp := 0#2, seq := seq }

theorem putAll_place (bytes : List Byte) (x rem : Half) (p : BitVec 2) (seq : Position) (s : State) :
    putAll bytes (place x rem p seq s) = place x rem p seq (putAll bytes s) := by
  by_cases h : s.op = Config.opEncsl <;> simp [putAll, place, h, addPayload, wrote, State.stream]

@[simp] theorem putAll_op (bytes : List Byte) (s : State) : (putAll bytes s).op = s.op := by
  unfold putAll; split <;> rfl
@[simp] theorem putAll_w (bytes : List Byte) (s : State) : (putAll bytes s).w = s.w := by
  unfold putAll; split <;> rfl
@[simp] theorem putAll_slb (bytes : List Byte) (s : State) : (putAll bytes s).slb = s.slb := by
  unfold putAll; split <;> rfl
@[simp] theorem putAll_y (bytes : List Byte) (s : State) : (putAll bytes s).y = s.y := by
  unfold putAll; split <;> rfl
@[simp] theorem putAll_handle (bytes : List Byte) (s : State) : (putAll bytes s).handle = s.handle := by
  unfold putAll; split <;> rfl
@[simp] theorem putAll_pathtok (bytes : List Byte) (s : State) : (putAll bytes s).pathtok = s.pathtok := by
  unfold putAll; split <;> rfl

theorem putAll_append (a b : List Byte) (s : State) : putAll b (putAll a s) = putAll (a ++ b) s := by
  by_cases h : s.op = Config.opEncsl
  · simp [putAll, h, addPayload]
  · have h1 : putAll a s = wrote a (s.sinkAnswers.drop a.length) s := by simp [putAll, h]
    have h2 : (putAll a s).op ≠ Config.opEncsl := by simpa using h
    rw [putAll, if_neg h2, h1, wrote_wrote, putAll, if_neg h]
    congr 1
    simp [wrote]

theorem ready_place {n : Nat} {x rem : Half} {p : BitVec 2} {seq : Position} {s : State} :
    ready n (place x rem p seq s) ↔ ready n s := Iff.rfl

theorem ready_putAll {a : List Byte} {n m : Nat} {s : State} (h : ready m s) (hm : m = a.length + n) :
    ready n (putAll a s) := by
  subst hm
  rcases h with h | ⟨hs, later, h⟩
  · exact Or.inl (by simpa using h)
  · by_cases ho : s.op = Config.opEncsl
    · exact Or.inl (by simpa using ho)
    · refine Or.inr ⟨by simpa using hs, later, ?_⟩
      rw [putAll, if_neg ho]
      simp only [answersOk, wrote] at h ⊢
      rw [h, List.replicate_add, List.append_assoc, List.drop_left' (by simp)]

theorem ready_mono {n m : Nat} {s : State} (h : ready m s) (hnm : n ≤ m) : ready n s := by
  rcases h with h | ⟨hs, later, h⟩
  · exact Or.inl h
  · refine Or.inr ⟨hs, List.replicate (m - n) .ok ++ later, ?_⟩
    rw [answersOk, ← List.append_assoc, ← List.replicate_add]
    rw [show n + (m - n) = m by omega]; exact h

theorem emitScanlineRecord_ready {bytes : List Byte} {save : Nat → State → State} {next : State → State} {s : State}
    (h : ready bytes.length s) : emitScanlineRecord bytes save next s = .next (next (putAll bytes s)) := by
  by_cases ho : s.op = Config.opEncsl
  · rw [emitScanlineRecord_encsl ho, putAll, if_pos ho]
  · rcases h with h | ⟨hs, later, h⟩
    · exact absurd h ho
    · rw [emitScanlineRecord_write ho, emitRecord_ok hs h, putAll, if_neg ho, h, List.drop_left' (by simp)]

theorem not_blocked_of_ready {n : Nat} {s : State} (h : ready (n + 1) s)
    (hseq : s.seq = .marking ∨ s.seq = .chunking) : blocked s = false := by
  rcases h with h | ⟨-, later, h⟩
  · rcases hseq with hs | hs <;> simp [blocked, hs, h]
  · simp only [answersOk, List.replicate_succ, List.cons_append] at h
    rcases hseq with hs | hs <;> simp [blocked, hs, h]

/-! ### Planes and chunks -/

theorem planeChunks_fuel (n : Nat) : ∀ (m : Nat) (plane : List Byte), plane.length ≤ n → plane.length ≤ m →
    planeChunks n plane = planeChunks m plane := by
  induction n with
  | zero =>
    intro m plane h _
    obtain rfl := List.eq_nil_of_length_eq_zero (Nat.le_zero.mp h)
    cases m <;> rfl
  | succ n ih =>
    intro m plane h1 h2
    cases m with
    | zero =>
      obtain rfl := List.eq_nil_of_length_eq_zero (Nat.le_zero.mp h2)
      rfl
    | succ m =>
      simp only [planeChunks]
      split
      · rfl
      · rename_i hne
        have : plane ≠ [] := by simpa using hne
        have hpos := List.length_pos_iff.mpr this
        rw [ih m _ (by simp [Config.chunkMax]; omega) (by simp [Config.chunkMax]; omega)]

/-- A plane that is not empty is its first chunk and the record of the rest (R163 to R165). -/
theorem planeRecord_cons {plane : List Byte} (h : plane ≠ []) :
    planeRecord plane = chunkBytes (plane.take Config.chunkMax) ++ planeRecord (plane.drop Config.chunkMax) := by
  have hpos := List.length_pos_iff.mpr h
  unfold planeRecord
  obtain ⟨n, hn⟩ : ∃ n, plane.length = n + 1 := ⟨plane.length - 1, by omega⟩
  rw [hn, planeChunks, if_neg (by simpa using h), List.flatMap_cons]
  rw [planeChunks_fuel n (plane.drop Config.chunkMax).length (plane.drop Config.chunkMax)
    (by simp [Config.chunkMax]; omega) (Nat.le_refl _)]

@[simp] theorem planeRecord_nil : planeRecord [] = [] := rfl

/-- A plane record of `n` elements is `ceil(n/127) + n` bytes long (R111, R168). -/
theorem length_planeRecord (n : Nat) : ∀ (plane : List Byte), plane.length = n →
    (planeRecord plane).length = (n + 126) / 127 + n := by
  induction n using Nat.strong_induction_on with
  | _ n ih =>
    intro plane hl
    by_cases h : plane = []
    · subst h; simp only [List.length_nil] at hl; subst hl; rfl
    · have hpos := List.length_pos_iff.mpr h
      rw [planeRecord_cons h, List.length_append, length_chunkBytes,
        ih (n - 127) (by omega) _ (by simp [Config.chunkMax, hl])]
      simp only [List.length_take, Config.chunkMax, hl]
      omega

@[simp] theorem length_planeOf (p : BitVec 2) (row : List Quad) : (planeOf p row).length = row.length := by
  simp [planeOf]

theorem length_encodeScanline (w : Half) (row : List Quad) (h : row.length = w.toNat) :
    (encodeScanline w row).length = 4 + 4 * ((w.toNat + 126) / 127 + w.toNat) := by
  have hp : ∀ p, (planeRecord (planeOf p row)).length = (w.toNat + 126) / 127 + w.toNat :=
    fun p => length_planeRecord _ _ (by rw [length_planeOf, h])
  simp only [encodeScanline, List.length_append, length_markerBytes, hp]
  omega

/-! ### The encoder's run -/

/-- The row the scanline buffer holds. -/
def holdsRow (slb : Memory Quad) (row : List Quad) : Prop :=
  ∀ j, j < row.length → Memory.get? slb j = row[j]?

/-- The chunk at `x` of plane `p` of a row the buffer holds (R164). -/
theorem readPlane_row {slb : Memory Quad} {row : List Quad} {p : BitVec 2} {x n : Nat} (h : holdsRow slb row)
    (hx : x + n ≤ row.length) (hc : row.length ≤ Config.slbCap) :
    readPlane slb p x n = .ok (((planeOf p row).drop x).take n) := by
  have := readPlane_eq slb p n x ((row.drop x).take n) (by simp; omega) (by omega) (fun j hj => by
    rw [h (x + j) (by omega), List.getElem?_take, if_pos hj, List.getElem?_drop])
  rw [this, planeOf, List.map_take, List.map_drop]

/-- `advance` inside a plane (R165). -/
theorem advance_more {n : Nat} {x rem : Half} {p : BitVec 2} {u : State} (h : rem - BitVec.ofNat 16 n ≠ 0#16) :
    advance n (place x rem p .chunking u)
      = place (x + BitVec.ofNat 16 n) (rem - BitVec.ofNat 16 n) p .chunking u := by
  unfold advance
  exact if_neg h

/-- `advance` past the last chunk of a plane (R162, R165). -/
theorem advance_last {n : Nat} {x rem : Half} {p : BitVec 2} {u : State} (h : rem - BitVec.ofNat 16 n = 0#16) :
    advance n (place x rem p .chunking u) = endPlane (place (x + BitVec.ofNat 16 n) 0#16 p .chunking u) := by
  have h0 : advance n (place x rem p .chunking u)
      = endPlane (place (x + BitVec.ofNat 16 n) (rem - BitVec.ofNat 16 n) p .chunking u) := by
    unfold advance
    exact if_pos h
  rw [h0, h]

/-- One chunk of a plane: its bytes go out, and `X`, `REM` advance past it (R165). -/
theorem tick_chunk {u : State} {row : List Quad} {x rem : Half} {p : BitVec 2} (hrow : holdsRow u.slb row)
    (hw : row.length = u.w.toNat) (hx : x.toNat + rem.toNat = u.w.toNat) (hrem : rem ≠ 0#16)
    (hr : ready (1 + chunkLength rem) u) :
    tick (place x rem p .chunking u)
      = .next (advance (chunkLength rem)
          (place x rem p .chunking (putAll (chunkBytes (((planeOf p row).drop x.toNat).take (chunkLength rem))) u))) := by
  have hpos : rem.toNat ≠ 0 := fun h => hrem (BitVec.eq_of_toNat_eq (by simpa using h))
  have hwl := u.w.isLt
  have hlen : (((planeOf p row).drop x.toNat).take (chunkLength rem)).length = chunkLength rem := by
    simp [chunkLength, hw]; omega
  have hcl : 1 ≤ chunkLength rem ∧ chunkLength rem ≤ Config.chunkMax := by simp [chunkLength, Config.chunkMax]; omega
  have hd : chunkData (place x rem p .chunking u) = .ok (((planeOf p row).drop x.toNat).take (chunkLength rem)) :=
    readPlane_row (x := x.toNat) (n := chunkLength rem) hrow
      (by rw [hw, chunkLength, Config.chunkMax]; omega) (by rw [hw, Config.slbCap]; omega)
  have hk : (place x rem p .chunking u).k = 0#7 := rfl
  simp only [tick, show (place x rem p .chunking u).seq = .chunking from rfl, hd]
  rw [execLit, if_pos (by rw [hlen]; exact hcl), hlen]
  rw [emitScanlineRecord_ready (by
    rw [chunkRest, if_pos hk, length_chunkBytes, hlen, Nat.add_comm]; exact ready_place.mpr hr)]
  rw [chunkRest, if_pos hk, putAll_place]

/-- The rest of a plane from `X` on (R163 to R165). -/
theorem runs_plane {row : List Quad} {p : BitVec 2} (n : Nat) : ∀ (u : State) (x rem : Half), rem.toNat = n →
    holdsRow u.slb row → row.length = u.w.toNat → x.toNat + rem.toNat = u.w.toNat → rem ≠ 0#16 →
    ready (planeRecord ((planeOf p row).drop x.toNat)).length u →
    Runs ((rem.toNat + 126) / 127) (place x rem p .chunking u)
      (endPlane (place u.w 0#16 p .chunking (putAll (planeRecord ((planeOf p row).drop x.toNat)) u))) := by
  induction n using Nat.strong_induction_on with
  | _ n ih =>
    intro u x rem hn hrow hw hx hrem hr
    have hpos : rem.toNat ≠ 0 := fun h => hrem (BitVec.eq_of_toNat_eq (by simpa using h))
    have hwl := u.w.isLt
    have hpl : ((planeOf p row).drop x.toNat).length = rem.toNat := by simp [hw]; omega
    have hne : (planeOf p row).drop x.toNat ≠ [] := fun h => by rw [h] at hpl; simp at hpl; omega
    have hcl : chunkLength rem = min 127 rem.toNat := rfl
    have htake : ((planeOf p row).drop x.toNat).take Config.chunkMax
        = ((planeOf p row).drop x.toNat).take (chunkLength rem) := by
      rcases Nat.le_total rem.toNat 127 with h | h
      · rw [List.take_of_length_le (by rw [hpl]; exact h), List.take_of_length_le (by rw [hpl, hcl]; omega)]
      · rw [hcl, Nat.min_eq_left h]
    have hlenchunk : (chunkBytes (((planeOf p row).drop x.toNat).take (chunkLength rem))).length = 1 + chunkLength rem := by
      rw [length_chunkBytes, List.length_take, hpl, hcl]; omega
    have hrec := planeRecord_cons hne
    rw [htake] at hrec
    rw [hrec, List.length_append, hlenchunk] at hr
    have htick := tick_chunk (p := p) hrow hw hx hrem (ready_mono hr (by omega))
    have hstep : Runs 1 (place x rem p .chunking u) _ :=
      Runs.one (by simp [place]) (not_blocked_of_ready (n := chunkLength rem)
        (ready_place.mpr (ready_mono hr (by omega))) (Or.inr rfl)) htick
    by_cases hlast : rem.toNat ≤ 127
    · -- the last chunk of the plane
      have hc : chunkLength rem = rem.toNat := by rw [hcl]; omega
      have hdrop : ((planeOf p row).drop x.toNat).drop Config.chunkMax = [] :=
        List.drop_eq_nil_of_le (by rw [hpl]; exact hlast)
      rw [show (rem.toNat + 126) / 127 = 1 by omega, hrec, hdrop, planeRecord_nil, List.append_nil]
      convert hstep using 1
      have hsub : rem - BitVec.ofNat 16 rem.toNat = 0#16 := by simp
      have hadd : x + BitVec.ofNat 16 rem.toNat = u.w := by
        apply BitVec.eq_of_toNat_eq; simp; omega
      rw [hc, advance_last hsub, hadd]
    · -- more chunks follow
      have hc : chunkLength rem = 127 := by rw [hcl]; omega
      have h127 : (BitVec.ofNat 16 127).toNat = 127 := rfl
      have hrem' : (rem - BitVec.ofNat 16 127).toNat = rem.toNat - 127 := by
        rw [BitVec.toNat_sub_of_le (by rw [BitVec.le_def, h127]; omega), h127]
      have hx' : (x + BitVec.ofNat 16 127).toNat = x.toNat + 127 := by
        rw [BitVec.toNat_add, h127]; omega
      have hne' : rem - BitVec.ofNat 16 127 ≠ 0#16 := fun h => by
        have := congrArg BitVec.toNat h; rw [hrem'] at this; simp at this; omega
      have hdd : ((planeOf p row).drop x.toNat).drop Config.chunkMax
          = (planeOf p row).drop (x + BitVec.ofNat 16 127).toNat := by
        rw [List.drop_drop, hx']
      rw [hc] at hstep hlenchunk hrec hr
      rw [advance_more hne'] at hstep
      have hrest := ih (rem - BitVec.ofNat 16 127).toNat (by omega)
        (putAll (chunkBytes (((planeOf p row).drop x.toNat).take 127)) u)
        (x + BitVec.ofNat 16 127) (rem - BitVec.ofNat 16 127) rfl
        (by simpa using hrow) (by simpa using hw) (by rw [hx', hrem', putAll_w]; omega) hne'
        (ready_putAll hr (by rw [hlenchunk, hdd]))
      rw [putAll_append, putAll_w] at hrest
      rw [hrec, hdd]
      have := hstep.trans hrest
      rw [hrem'] at this
      rw [show (rem.toNat + 126) / 127 = 1 + (rem.toNat - 127 + 126) / 127 by omega]
      exact this

/-- A whole scanline: what the encoder emits is the function `encodeScanline` of R160. -/
theorem runs_scanline {row : List Quad} {s : State} (hseq : s.seq = .marking) (hmp : s.mp = 0#2)
    (hrow : holdsRow s.slb row) (hw : row.length = s.w.toNat) (hw0 : s.w ≠ 0#16)
    (hr : ready (encodeScanline s.w row).length s) :
    Runs (scanlineActions s.w.toNat) s
      (endScanline (place s.w 0#16 3#2 .chunking (putAll (encodeScanline s.w row) s))) := by
  have hlen : ∀ p, (planeRecord (planeOf p row)).length = (s.w.toNat + 126) / 127 + s.w.toNat :=
    fun p => length_planeRecord _ _ (by rw [length_planeOf, hw])
  have htot := length_encodeScanline s.w row hw
  -- the marker
  have h1 : Runs 1 s (place 0#16 s.w 0#2 .chunking (putAll (markerBytes s.w) s)) := by
    refine Runs.one (by simp [hseq]) (not_blocked_of_ready (n := 3) (ready_mono hr (by omega)) (Or.inl hseq)) ?_
    simp only [tick, hseq]
    have hrest : (markerBytes s.w).drop s.mp.toNat = markerBytes s.w := by rw [hmp]; rfl
    rw [execMark, hrest, emitScanlineRecord_ready (ready_mono hr (by rw [length_markerBytes]; omega))]
    have hw' : (putAll (markerBytes s.w) s).w = s.w := putAll_w _ _
    generalize putAll (markerBytes s.w) s = u at hw' ⊢
    rw [← hw']; rfl
  -- one plane
  have hplane : ∀ (p : BitVec 2) (u : State), u.slb = s.slb → u.w = s.w → ready ((s.w.toNat + 126) / 127 + s.w.toNat) u →
      Runs ((s.w.toNat + 126) / 127) (place 0#16 s.w p .chunking u)
        (endPlane (place s.w 0#16 p .chunking (putAll (planeRecord (planeOf p row)) u))) := by
    intro p u hslb huw hu
    have := runs_plane (row := row) (p := p) s.w.toNat u 0#16 s.w rfl (by rw [hslb]; exact hrow) (by rw [huw]; exact hw)
      (by simp [huw]) hw0 (by simpa [hlen p] using hu)
    simpa [huw] using this
  have hnext : ∀ (p : BitVec 2) (u : State), p ≠ 3#2 → u.w = s.w →
      endPlane (place s.w 0#16 p .chunking u) = place 0#16 s.w (p + 1#2) .chunking u := by
    intro p u hp hu
    rw [endPlane, if_neg (by simpa [place] using hp), nextPlane, enterPlane, ← hu]; rfl
  have r0 := hplane 0#2 (putAll (markerBytes s.w) s) (by simp) (by simp)
    (ready_putAll (n := 4 * ((s.w.toNat + 126) / 127 + s.w.toNat)) hr (by rw [htot, length_markerBytes])
      |> fun h => ready_mono h (by omega))
  have r1 := hplane 1#2 (putAll (markerBytes s.w ++ planeRecord (planeOf 0#2 row)) s) (by simp) (by simp)
    (ready_putAll (n := 3 * ((s.w.toNat + 126) / 127 + s.w.toNat)) hr (by
      rw [htot, List.length_append, length_markerBytes, hlen]; omega) |> fun h => ready_mono h (by omega))
  have r2 := hplane 2#2 (putAll (markerBytes s.w ++ planeRecord (planeOf 0#2 row) ++ planeRecord (planeOf 1#2 row)) s)
    (by simp) (by simp) (ready_putAll (n := 2 * ((s.w.toNat + 126) / 127 + s.w.toNat)) hr (by
      rw [htot, List.length_append, List.length_append, length_markerBytes, hlen, hlen]; omega)
      |> fun h => ready_mono h (by omega))
  have r3 := hplane 3#2 (putAll (markerBytes s.w ++ planeRecord (planeOf 0#2 row) ++ planeRecord (planeOf 1#2 row)
      ++ planeRecord (planeOf 2#2 row)) s)
    (by simp) (by simp) (ready_putAll (n := (s.w.toNat + 126) / 127 + s.w.toNat) hr (by
      rw [htot, List.length_append, List.length_append, List.length_append, length_markerBytes, hlen, hlen, hlen]; omega))
  rw [putAll_append, hnext 0#2 _ (by decide) (by simp)] at r0
  rw [putAll_append, hnext 1#2 _ (by decide) (by simp)] at r1
  rw [putAll_append, hnext 2#2 _ (by decide) (by simp)] at r2
  rw [putAll_append] at r3
  have hend : ∀ u : State, endPlane (place s.w 0#16 3#2 .chunking u) = endScanline (place s.w 0#16 3#2 .chunking u) := by
    intro u; simp [endPlane, place]
  rw [hend] at r3
  have := h1.trans (r0.trans (r1.trans (r2.trans r3)))
  rw [scanlineActions, show 1 + 4 * ((s.w.toNat + 126) / 127)
    = 1 + ((s.w.toNat + 126) / 127 + ((s.w.toNat + 126) / 127 + ((s.w.toNat + 126) / 127 + (s.w.toNat + 126) / 127))) by omega]
  exact this

end Sys2Proof.Machine
end

