-- ==== Sys2Proof/Laws/Operations.lean ====
section
/-! SUPPORT. What accepting a command, one operation of the block, and one step can lead to, said once. -/

namespace Sys2Proof.Machine

/-! ### Commands -/

theorem onCommandPort_decode (c : List Byte) : onCommandPort (decode c) = true := by
  unfold decode
  split_ifs <;> rfl

theorem startEncsl_zero (row : List Quad) (s : State) :
    startEncsl 0#16 row s = raise .degenerateInput (acceptEncsl 0#16 row s) := if_pos rfl

theorem startEncsl_pos {w : Half} (hw : w ≠ 0#16) (row : List Quad) (s : State) :
    startEncsl w row s = startScanline (acceptEncsl w row s) := if_neg hw

theorem startWrite_none {w h : Half} (hz : w = 0#16 ∨ h = 0#16) (pathtok : Word) (s : State) :
    startWrite w h pathtok s = raise .degenerateInput (acceptWrite w h pathtok s) := if_pos hz

theorem startWrite_pos {w h : Half} (hw : w ≠ 0#16) (hh : h ≠ 0#16) (pathtok : Word) (s : State) :
    startWrite w h pathtok s = goTo .opening (acceptWrite w h pathtok s) := if_neg (by simp [hw, hh])

/-- The execution of a command is its acceptance and then its actions (R90). -/
theorem exec_command {i : Instr} (h : onCommandPort i = true) : ∃ k, ∀ s, exec i s = runCommand (k + 1) (accept i s) := by
  cases i with
  | quant red green blue => exact ⟨0, fun _ => rfl⟩
  | encsl w row => exact ⟨scanlineActions w.toNat, fun _ => rfl⟩
  | write w height pathtok => exact ⟨6 + height.toNat * (w.toNat + 1 + scanlineActions w.toNat) + 1, fun _ => rfl⟩
  | reservedCommand descriptor => exact ⟨0, fun _ => rfl⟩
  | hdrline1 => cases h
  | hdrline2 => cases h
  | hdrline3 => cases h
  | hdrline4 => cases h
  | resline _ _ => cases h
  | mark _ => cases h
  | lit _ => cases h
  | run _ _ => cases h
  | rsp _ _ => cases h

/-- What accepting a command can lead to: its first action is next, or an exception without a clean-up is taken. -/
theorem accept_cases {i : Instr} (h : onCommandPort i = true) (s : State) :
    (∃ red green blue, i = .quant red green blue ∧ accept i s = goTo .converting (acceptQuant red green blue s))
    ∨ (∃ row, i = .encsl 0#16 row ∧ accept i s = goTo (.raising .degenerateInput) (acceptEncsl 0#16 row s))
    ∨ (∃ w row, i = .encsl w row ∧ w ≠ 0#16 ∧ accept i s = startScanline (acceptEncsl w row s))
    ∨ (∃ w h pathtok, i = .write w h pathtok ∧ (w = 0#16 ∨ h = 0#16)
        ∧ accept i s = goTo (.raising .degenerateInput) (acceptWrite w h pathtok s))
    ∨ (∃ w h pathtok, i = .write w h pathtok ∧ w ≠ 0#16 ∧ h ≠ 0#16
        ∧ accept i s = goTo .opening (acceptWrite w h pathtok s))
    ∨ (∃ descriptor, i = .reservedCommand descriptor
        ∧ accept i s = goTo (.raising .illegalCommand) (acceptReserved descriptor s)) := by
  cases i with
  | quant red green blue => exact Or.inl ⟨_, _, _, rfl, rfl⟩
  | encsl w row =>
    by_cases hw : w = 0#16
    · subst hw; exact Or.inr (Or.inl ⟨_, rfl, startEncsl_zero row s⟩)
    · exact Or.inr (Or.inr (Or.inl ⟨_, _, rfl, hw, startEncsl_pos hw row s⟩))
  | write w height pathtok =>
    by_cases hz : w = 0#16 ∨ height = 0#16
    · exact Or.inr (Or.inr (Or.inr (Or.inl ⟨_, _, _, rfl, hz, startWrite_none hz pathtok s⟩)))
    · rw [not_or] at hz
      exact Or.inr (Or.inr (Or.inr (Or.inr (Or.inl ⟨_, _, _, rfl, hz.1, hz.2, startWrite_pos hz.1 hz.2 pathtok s⟩))))
  | reservedCommand descriptor => exact Or.inr (Or.inr (Or.inr (Or.inr (Or.inr ⟨_, rfl, rfl⟩))))
  | hdrline1 => cases h
  | hdrline2 => cases h
  | hdrline3 => cases h
  | hdrline4 => cases h
  | resline _ _ => cases h
  | mark _ => cases h
  | lit _ => cases h
  | run _ _ => cases h
  | rsp _ _ => cases h

/-- An accepted command is running (R90). -/
theorem accept_running {i : Instr} (h : onCommandPort i = true) (s : State) : (accept i s).seq ≠ .idle := by
  rcases accept_cases h s with ⟨_, _, _, -, e⟩ | ⟨_, -, e⟩ | ⟨_, _, -, -, e⟩ | ⟨_, _, _, -, -, e⟩ | ⟨_, _, _, -, -, -, e⟩ | ⟨_, -, e⟩ <;>
    rw [e] <;> simp

/-! ### One operation and one step -/

theorem onNext_next {f : State → State} {o : Host.Outcome State Fault Refusal} {t : State} (h : onNext f o = .next t) :
    ∃ u, o = .next u ∧ t = f u := by
  cases o with
  | next u => cases h; exact ⟨u, rfl, rfl⟩
  | fault _ => cases h
  | refused _ => cases h

/-- Everything one operation can lead to: a wait for a descriptor, an acceptance, an action. -/
theorem atomicStep_next {s t : State} (h : atomicStep s = .next t) :
    (s.seq = .idle ∧ s.cmd = [] ∧ t = s)
    ∨ (∃ c later, s.seq = .idle ∧ s.cmd = c :: later ∧ t = accept (decode c) { s with cmd := later })
    ∨ (s.seq ≠ .idle ∧ ∃ u, tick (oneAnswer s) = .next u ∧ t = moreAnswers (s.sinkAnswers.drop 1) u) := by
  unfold atomicStep at h
  split at h
  · rename_i hs
    split at h
    · rename_i hc; cases h; exact Or.inl ⟨hs, hc, rfl⟩
    · rename_i c later hc; cases h; exact Or.inr (Or.inl ⟨c, later, hs, hc, rfl⟩)
  · rename_i hs; exact Or.inr (Or.inr ⟨hs, onNext_next h⟩)

/-- Everything one step can lead to: a reset, an operation before a reset, a wait for a descriptor, a command's execution, an
action. -/
theorem step_next {s t : State} (h : step s = .next t) :
    (s.resetReq = some 0 ∧ t = resetBlock s)
    ∨ (∃ n u, s.resetReq = some (n + 1) ∧ atomicStep s = .next u ∧ t = resetIn n u)
    ∨ (s.resetReq = none ∧ s.seq = .idle ∧ s.cmd = [] ∧ t = s)
    ∨ (∃ c later, s.resetReq = none ∧ s.seq = .idle ∧ s.cmd = c :: later
        ∧ exec (decode c) { s with cmd := later } = .next t)
    ∨ (s.resetReq = none ∧ s.seq ≠ .idle ∧ tick s = .next t) := by
  unfold step at h
  split at h
  · rename_i hr; cases h; exact Or.inl ⟨hr, rfl⟩
  · rename_i n hr
    obtain ⟨u, hu, rfl⟩ := onNext_next h
    exact Or.inr (Or.inl ⟨n, u, hr, hu, rfl⟩)
  · rename_i hr
    split at h
    · rename_i hs
      split at h
      · rename_i hc; cases h; exact Or.inr (Or.inr (Or.inl ⟨hr, hs, hc, rfl⟩))
      · rename_i c later hc; exact Or.inr (Or.inr (Or.inr (Or.inl ⟨c, later, hr, hs, hc, h⟩)))
    · rename_i hs; exact Or.inr (Or.inr (Or.inr (Or.inr ⟨hr, hs, h⟩)))

end Sys2Proof.Machine
end

