-- ==== Sys2Proof/Laws/Independence.lean ====
section
/-! SUPPORT. What the block does not read: no action reads the reset request, and an action that is no operation of the sink
does not read the sink's answers to come. -/

namespace Sys2Proof.Machine

/-- `s` with another reset request and other answers of the sink to come. -/
def behind (answers : List SinkAnswer → List SinkAnswer) (request : Option Nat → Option Nat) (s : State) : State :=
  { s with sinkAnswers := answers s.sinkAnswers, resetReq := request s.resetReq }

variable {f : List SinkAnswer → List SinkAnswer} {r : Option Nat → Option Nat}

/-! ### Updates -/

theorem behind_ite {c : Prop} [Decidable c] (s t : State) :
    behind f r (if c then s else t) = if c then behind f r s else behind f r t := by
  split <;> rfl

theorem advance_behind (n : Nat) (s : State) : advance n (behind f r s) = behind f r (advance n s) := by
  unfold advance endPlane endScanline
  simp only [behind_ite]
  rfl

theorem quantizeStep_behind (s : State) : quantizeStep (behind f r s) = behind f r (quantizeStep s) := by
  unfold quantizeStep
  simp only [behind_ite]
  rfl

theorem respond_behind (status : Status) (payload : List Byte) (s : State) :
    respond status payload (behind f r s) = behind f r (respond status payload s) := by
  unfold respond
  split <;> rfl

theorem accept_behind (i : Instr) (s : State) : accept i (behind f r s) = behind f r (accept i s) := by
  cases i with
  | encsl w row => simp only [accept, startEncsl, behind_ite]; rfl
  | write w h pathtok => simp only [accept, startWrite, behind_ite]; rfl
  | quant _ _ _ => rfl
  | reservedCommand _ => rfl
  | hdrline1 => rfl
  | hdrline2 => rfl
  | hdrline3 => rfl
  | hdrline4 => rfl
  | resline _ _ => rfl
  | mark _ => rfl
  | lit _ => rfl
  | run _ _ => rfl
  | rsp _ _ => rfl

/-! ### Emissions -/

/-- `g` of the state an emission ends in. -/
def Emitted.map (g : State → State) : Emitted → Emitted
  | .done s => .done (g s)
  | .waiting left s => .waiting left (g s)
  | .failed left s => .failed left (g s)

theorem emit_behind (bytes : List Byte) : ∀ s, emit bytes (behind id r s) = (emit bytes s).map (behind id r) := by
  induction bytes with
  | nil => intro s; rfl
  | cons b bytes ih =>
    intro s
    show emit (b :: bytes) (behind id r s) = _
    simp only [emit, show (behind id r s).sinkAnswers = s.sinkAnswers from rfl]
    split
    · rfl
    · rw [← ih]; rfl
    · rfl

theorem emitRecord_behind {bytes : List Byte} {save : Nat → State → State} {next : State → State}
    (hs : ∀ left t, save left (behind id r t) = behind id r (save left t))
    (hn : ∀ t, next (behind id r t) = behind id r (next t)) (s : State) :
    emitRecord bytes save next (behind id r s) = onNext (behind id r) (emitRecord bytes save next s) := by
  unfold emitRecord
  rw [show (behind id r s).handle = s.handle from rfl, emit_behind]
  split
  · cases emit bytes s with
    | done t => exact congrArg Host.Outcome.next (hn t)
    | waiting left t => exact congrArg Host.Outcome.next (hs left t)
    | failed left t =>
      exact congrArg (fun u => Host.Outcome.next (raise .writeFailure u)) (hs left t)
  · rfl

theorem headerRecord_behind (line : List Byte) (start : Nat) {next : State → State}
    (hn : ∀ t, next (behind id r t) = behind id r (next t)) (s : State) :
    headerRecord line start next (behind id r s) = onNext (behind id r) (headerRecord line start next s) :=
  emitRecord_behind (save := fun left t => setHp (start + line.length - left) t)
    (next := fun t => next (setHp (start + line.length) t)) (fun _ _ => rfl) (fun t => hn (setHp (start + line.length) t)) s

/-- An encoder record reads the answers only where it goes to the sink. -/
theorem emitScanlineRecord_behind {bytes : List Byte} {save : Nat → State → State} {next : State → State} {s : State}
    (hf : s.op = Config.opEncsl ∨ f = id) (hs : ∀ left t, save left (behind id r t) = behind id r (save left t))
    (hn : ∀ t, next (behind f r t) = behind f r (next t)) :
    emitScanlineRecord bytes save next (behind f r s) = onNext (behind f r) (emitScanlineRecord bytes save next s) := by
  by_cases ho : s.op = Config.opEncsl
  · rw [emitScanlineRecord_encsl (s := behind f r s) ho, emitScanlineRecord_encsl ho]
    exact congrArg Host.Outcome.next (hn (addPayload bytes s))
  · obtain rfl := hf.resolve_left ho
    rw [emitScanlineRecord_write (s := behind id r s) ho, emitScanlineRecord_write ho]
    exact emitRecord_behind hs hn s

/-! ### Actions -/

/-- The next action is no operation of the sink that has an answer. -/
def silent (s : State) : Prop :=
  match s.seq with
  | .opening => False
  | .header1 => False
  | .header2 => False
  | .header3 => False
  | .header4 => False
  | .resolution => False
  | .marking => s.op = Config.opEncsl
  | .chunking => s.op = Config.opEncsl
  | .idle => True
  | .quantizing => True
  | .converting => True
  | .closing => True
  | .responding => True
  | .failing => True
  | .raising _ => True

theorem stepQuantize_behind (s : State) : stepQuantize (behind f r s) = onNext (behind f r) (stepQuantize s) := by
  unfold stepQuantize memRead
  rw [show (behind f r s).x = s.x from rfl, show (behind f r s).w = s.w from rfl, show (behind f r s).y = s.y from rfl,
    show (behind f r s).img = s.img from rfl, show (behind f r s).imgAnswers = s.imgAnswers from rfl]
  split_ifs
  · cases Memory.get? s.img (pixelIndex s.w s.y s.x).toNat with
    | none => rfl
    | some pixel =>
      exact congrArg (fun u => Host.Outcome.next (storePixel u))
        (quantizeStep_behind (latchPixel (pixelIndex s.w s.y s.x) pixel s))
  · rfl
  · rfl

/-- An action does the same whatever the reset request, and a silent one whatever the answers to come. -/
theorem tick_behind {s : State} (hf : silent s ∨ f = id) : tick (behind f r s) = onNext (behind f r) (tick s) := by
  unfold silent at hf
  unfold tick
  rw [show (behind f r s).seq = s.seq from rfl]
  cases h : s.seq <;> rw [h] at hf <;> dsimp only
  case idle => rfl
  case opening =>
    obtain rfl := hf.resolve_left id
    unfold stepOpen
    rw [show (behind id r s).sinkAnswers = s.sinkAnswers from rfl]
    split <;> rfl
  case header1 =>
    obtain rfl := hf.resolve_left id
    exact headerRecord_behind Config.headerLine1 0 (next := goTo .header2) (fun _ => rfl) s
  case header2 =>
    obtain rfl := hf.resolve_left id
    exact headerRecord_behind Config.headerLine2 11 (next := goTo .header3) (fun _ => rfl) s
  case header3 =>
    obtain rfl := hf.resolve_left id
    exact headerRecord_behind Config.headerLine3 42 (next := goTo .header4) (fun _ => rfl) s
  case header4 =>
    obtain rfl := hf.resolve_left id
    exact headerRecord_behind Config.headerLine4 65 (next := goTo .resolution) (fun _ => rfl) s
  case resolution =>
    obtain rfl := hf.resolve_left id
    exact headerRecord_behind (reslineBytes s.h s.w) 101 (next := enterRows) (fun _ => rfl) s
  case quantizing => exact stepQuantize_behind s
  case converting =>
    refine congrArg Host.Outcome.next ?_
    rw [quantizeStep_behind]
    exact respond_behind .ok _ (quantizeStep s)
  case marking =>
    exact emitScanlineRecord_behind (save := fun left t => setMp (4 - left) t) (next := firstPlane) hf
      (fun _ _ => rfl) (fun _ => rfl)
  case chunking =>
    rw [show chunkData (behind f r s) = chunkData s from rfl]
    cases chunkData s with
    | error _ => rfl
    | ok data =>
      dsimp only
      unfold execLit
      split
      · exact emitScanlineRecord_behind (save := setK data.length) (next := advance data.length) hf
          (fun _ _ => rfl) (advance_behind data.length)
      · rfl
  case closing =>
    unfold stepClose
    rw [show (behind f r s).handle = s.handle from rfl]
    split <;> rfl
  case responding => exact congrArg Host.Outcome.next (respond_behind .ok s.payload s)
  case failing => rfl
  case raising exception => exact congrArg Host.Outcome.next (respond_behind exception [] s)

/-! ### Operations -/

/-- A silent action takes no answer. -/
theorem silent_answers {s t : State} (hs : silent s) (h : tick s = .next t) : t.sinkAnswers = s.sinkAnswers := by
  have hb := tick_behind (f := fun _ => s.sinkAnswers) (r := id) (Or.inl hs)
  rw [show behind (fun _ => s.sinkAnswers) id s = s from rfl, h] at hb
  have he : t = behind (fun _ => s.sinkAnswers) id t := Host.Outcome.next.inj hb
  have ha := congrArg State.sinkAnswers he
  exact ha

/-- A silent action is one operation. -/
theorem atomicStep_silent {s t : State} (hs : silent s) (hi : s.seq ≠ .idle) (h : tick s = .next t) :
    atomicStep s = .next t := by
  unfold atomicStep
  rw [if_neg hi, show oneAnswer s = behind (List.take 1) id s from rfl, tick_behind (Or.inl hs), h]
  show Host.Outcome.next { t with sinkAnswers := t.sinkAnswers.take 1 ++ s.sinkAnswers.drop 1 } = .next t
  rw [← silent_answers hs h, List.take_append_drop]

/-- An operation does the same whatever the reset request. -/
theorem atomicStep_behind (s : State) : atomicStep (behind id r s) = onNext (behind id r) (atomicStep s) := by
  unfold atomicStep
  rw [show (behind id r s).seq = s.seq from rfl, show (behind id r s).cmd = s.cmd from rfl]
  split
  · split
    · rfl
    · rename_i c later _
      exact congrArg Host.Outcome.next (accept_behind (f := id) (r := r) (decode c) { s with cmd := later })
  · rw [show oneAnswer (behind id r s) = behind id r (oneAnswer s) from rfl, tick_behind (Or.inr rfl)]
    cases tick (oneAnswer s) <;> rfl

/-! ### Several operations -/

theorem times_one {act : State → Host.Outcome State Fault Refusal} {s t : State} (h : act s = .next t) :
    times act 1 s = .next t := by
  rw [times, h]; rfl

theorem times_add {act : State → Host.Outcome State Fault Refusal} (m n : Nat) : ∀ {s t u : State},
    times act m s = .next t → times act n t = .next u → times act (m + n) s = .next u := by
  induction m with
  | zero => intro s t u h1 h2; cases h1; rw [Nat.zero_add]; exact h2
  | succ m ih =>
    intro s t u h1 h2
    rw [show m + 1 + n = (m + n) + 1 by omega]
    rw [times] at h1 ⊢
    split at h1
    · rename_i v hv
      exact ih h1 h2
    · cases h1
    · cases h1

end Sys2Proof.Machine
end

