-- ==== Sys2Proof/Laws/Segment.lean ====
section
/-! SUPPORT. Stretches of a WRITE with an open sink: whatever the sink answers, the bytes go out in order, or the first refused
byte ends the command (R204, R249, R251). Stretches compose. -/

namespace Sys2Proof.Machine

/-- `s` with the sink's answers to come replaced by `answers`. -/
def answering (answers : List SinkAnswer) (s : State) : State :=
  { s with sinkAnswers := answers }

/-- What no action of a running WRITE changes while its sink is open. -/
structure Keeps (s t : State) : Prop where
  op : t.op = s.op
  w : t.w = s.w
  h : t.h = s.h
  pathtok : t.pathtok = s.pathtok
  img : t.img = s.img
  imgAnswers : t.imgAnswers = s.imgAnswers
  cmd : t.cmd = s.cmd
  resetReq : t.resetReq = s.resetReq
  rsp : t.rsp = s.rsp
  handle : t.handle = s.handle
  payload : t.payload = s.payload

/-- From `s` to `t` the port operations `ops` were done, whose writes put `bytes` into the selected stream. -/
structure Went (bytes : List Byte) (ops : List PortOp) (s t : State) : Prop where
  keeps : Keeps s t
  stream : State.stream t s.pathtok = State.stream s s.pathtok ++ bytes
  others : ∀ other, other ≠ s.pathtok → State.stream t other = State.stream s other
  trace : t.trace = s.trace ++ ops

/-- The command has ended because the sink refused write number `n` of a stretch (R249, R251). -/
structure FailedAt (bytes : List Byte) (ops : List PortOp) (n : Nat) (landed : Bool) (later : List SinkAnswer)
    (s t : State) : Prop where
  stream : State.stream t s.pathtok
    = State.stream s s.pathtok ++ bytes.take n ++ (if landed then bytes[n]?.toList else [])
  others : ∀ other, other ≠ s.pathtok → State.stream t other = State.stream s other
  trace : t.trace = s.trace ++ beforeWrite n ops
    ++ ((bytes[n]?.toList).map (fun b => .memWrite b false) ++ [.sinkClose, .respond [0x02#8]])
  rsp : t.rsp = s.rsp ++ [[0x02#8]]
  err : t.err = .writeFailure
  st : t.st = .closed
  handle : t.handle = false
  seq : t.seq = .idle
  sinkAnswers : t.sinkAnswers = later
  op : t.op = s.op
  w : t.w = s.w
  h : t.h = s.h
  pathtok : t.pathtok = s.pathtok
  outside : keepsOutside s t

/-- From `s`, `k` actions put `bytes` out by the operations `ops` and come to a state with `post`, where the sink accepts all
of them; where it refuses one, the command ends there, by two more actions, the close and the response (R249). -/
def Segment (k : Nat) (s : State) (bytes : List Byte) (ops : List PortOp) (post : State → Prop) : Prop :=
  (∀ later, ∃ t, Runs k (answering (List.replicate bytes.length .ok ++ later) s) t ∧ Went bytes ops s t
    ∧ t.sinkAnswers = later ∧ post (answering [] t))
  ∧ ∀ n landed later, n < bytes.length → ∃ t, FailedAt bytes ops n landed later s t
    ∧ ∀ j, runCommand (k + 2 + j) (answering (List.replicate n .ok ++ .fail landed :: later) s) = .next t

/-! ### Composition -/

/-- How many writes a sequence of port operations holds. -/
def writes : List PortOp → Nat
  | [] => 0
  | .memWrite _ _ :: ops => writes ops + 1
  | .memRead _ :: ops => writes ops
  | .sinkOpen _ _ :: ops => writes ops
  | .sinkClose :: ops => writes ops
  | .respond _ :: ops => writes ops

theorem writes_append (a b : List PortOp) : writes (a ++ b) = writes a + writes b := by
  induction a with
  | nil => simp [writes]
  | cons op a ih =>
    cases op <;> simp only [List.cons_append, writes, ih]
    omega

@[simp] theorem writes_acceptedWrites (bytes : List Byte) : writes (acceptedWrites bytes) = bytes.length := by
  induction bytes with
  | nil => rfl
  | cons b bytes ih =>
    simp only [acceptedWrites, List.map_cons, writes, List.length_cons] at ih ⊢
    omega

theorem beforeWrite_append_lt {a : List PortOp} (b : List PortOp) : ∀ {n : Nat}, n < writes a →
    beforeWrite n (a ++ b) = beforeWrite n a := by
  induction a with
  | nil => intro n h; simp [writes] at h
  | cons op a ih =>
    intro n h
    cases op <;> cases n <;> simp only [writes] at h <;> simp only [List.cons_append, beforeWrite] <;>
      rw [ih (by omega)]

theorem beforeWrite_append_ge {a : List PortOp} (b : List PortOp) : ∀ {n : Nat},
    beforeWrite (writes a + n) (a ++ b) = a ++ beforeWrite n b := by
  induction a with
  | nil => intro n; simp [writes]
  | cons op a ih =>
    intro n
    cases op with
    | memWrite c ok =>
      simp only [writes, List.cons_append]
      rw [show writes a + 1 + n = (writes a + n) + 1 by omega, beforeWrite, ih]
    | memRead i =>
      simp only [writes, List.cons_append]
      cases h : writes a + n <;> simp only [beforeWrite] <;> rw [← h, ih]
    | sinkOpen p ok =>
      simp only [writes, List.cons_append]
      cases h : writes a + n <;> simp only [beforeWrite] <;> rw [← h, ih]
    | sinkClose =>
      simp only [writes, List.cons_append]
      cases h : writes a + n <;> simp only [beforeWrite] <;> rw [← h, ih]
    | respond r =>
      simp only [writes, List.cons_append]
      cases h : writes a + n <;> simp only [beforeWrite] <;> rw [← h, ih]

theorem Keeps.trans {s t u : State} (h1 : Keeps s t) (h2 : Keeps t u) : Keeps s u :=
  ⟨h2.op.trans h1.op, h2.w.trans h1.w, h2.h.trans h1.h, h2.pathtok.trans h1.pathtok, h2.img.trans h1.img,
    h2.imgAnswers.trans h1.imgAnswers, h2.cmd.trans h1.cmd, h2.resetReq.trans h1.resetReq, h2.rsp.trans h1.rsp,
    h2.handle.trans h1.handle, h2.payload.trans h1.payload⟩

theorem Went.trans {b1 b2 : List Byte} {o1 o2 : List PortOp} {s t u : State} (h1 : Went b1 o1 s t)
    (h2 : Went b2 o2 t u) : Went (b1 ++ b2) (o1 ++ o2) s u := by
  have hp := h1.keeps.pathtok
  refine ⟨h1.keeps.trans h2.keeps, ?_, ?_, ?_⟩
  · have := h2.stream
    rw [hp, h1.stream] at this
    rw [this, List.append_assoc]
  · intro other ho
    rw [h2.others other (by rw [hp]; exact ho), h1.others other ho]
  · rw [h2.trace, h1.trace, List.append_assoc]

theorem FailedAt.extend {b1 b2 : List Byte} {o1 o2 : List PortOp} {n : Nat} {landed : Bool} {later : List SinkAnswer}
    {s t : State} (h : FailedAt b1 o1 n landed later s t) (hn : n < b1.length) (hw : writes o1 = b1.length) :
    FailedAt (b1 ++ b2) (o1 ++ o2) n landed later s t := by
  have hg : (b1 ++ b2)[n]? = b1[n]? := List.getElem?_append_left hn
  refine ⟨?_, h.others, ?_, h.rsp, h.err, h.st, h.handle, h.seq, h.sinkAnswers, h.op, h.w, h.h, h.pathtok, h.outside⟩
  · rw [hg, List.take_append_of_le_length (by omega)]; exact h.stream
  · rw [hg, beforeWrite_append_lt _ (by omega)]; exact h.trace

theorem FailedAt.after {b1 b2 : List Byte} {o1 o2 : List PortOp} {n : Nat} {landed : Bool} {later : List SinkAnswer}
    {s t u : State} (h1 : Went b1 o1 s t) (h2 : FailedAt b2 o2 n landed later t u) (hw : writes o1 = b1.length) :
    FailedAt (b1 ++ b2) (o1 ++ o2) (b1.length + n) landed later s u := by
  have hp := h1.keeps.pathtok
  have hg : (b1 ++ b2)[b1.length + n]? = b2[n]? := by
    rw [List.getElem?_append_right (by omega), Nat.add_sub_cancel_left]
  refine ⟨?_, ?_, ?_, ?_, h2.err, h2.st, h2.handle, h2.seq, h2.sinkAnswers, h2.op.trans h1.keeps.op, h2.w.trans h1.keeps.w,
    h2.h.trans h1.keeps.h, h2.pathtok.trans hp, ?_⟩
  · have := h2.stream
    rw [hp, h1.stream] at this
    rw [hg, this, List.take_append, List.take_of_length_le (l := b1) (by omega), Nat.add_sub_cancel_left]
    simp only [List.append_assoc]
  · intro other ho
    rw [h2.others other (by rw [hp]; exact ho), h1.others other ho]
  · rw [hg, h2.trace, h1.trace, ← hw, beforeWrite_append_ge]
    simp only [List.append_assoc]
  · rw [h2.rsp, h1.keeps.rsp]
  · obtain ⟨a, b, c, d⟩ := h2.outside
    exact ⟨a.trans h1.keeps.img, b.trans h1.keeps.imgAnswers, c.trans h1.keeps.cmd, d.trans h1.keeps.resetReq⟩

/-- One stretch after another. -/
theorem Segment.trans {k1 k2 : Nat} {s : State} {b1 b2 : List Byte} {o1 o2 : List PortOp} {mid post : State → Prop}
    (h1 : Segment k1 s b1 o1 mid) (hw : writes o1 = b1.length) (h2 : ∀ u, mid u → Segment k2 u b2 o2 post) :
    Segment (k1 + k2) s (b1 ++ b2) (o1 ++ o2) post := by
  constructor
  · intro later
    obtain ⟨t, r1, w1, a1, m1⟩ := h1.1 (List.replicate b2.length .ok ++ later)
    obtain ⟨u, r2, w2, a2, p2⟩ := (h2 _ m1).1 later
    have ht : answering (List.replicate b2.length .ok ++ later) (answering [] t) = t := by rw [← a1]; rfl
    rw [ht] at r2
    refine ⟨u, ?_, w1.trans ⟨⟨w2.keeps.op, w2.keeps.w, w2.keeps.h, w2.keeps.pathtok, w2.keeps.img, w2.keeps.imgAnswers,
      w2.keeps.cmd, w2.keeps.resetReq, w2.keeps.rsp, w2.keeps.handle, w2.keeps.payload⟩, w2.stream, w2.others, w2.trace⟩,
      a2, p2⟩
    rw [List.length_append, List.replicate_add, List.append_assoc]
    exact r1.trans r2
  · intro n landed later hn
    by_cases hlt : n < b1.length
    · obtain ⟨t, f, r⟩ := h1.2 n landed later hlt
      exact ⟨t, f.extend hlt hw, fun j => by
        rw [show k1 + k2 + 2 + j = k1 + 2 + (k2 + j) by omega]; exact r _⟩
    · obtain ⟨m, rfl⟩ : ∃ m, n = b1.length + m := ⟨n - b1.length, by omega⟩
      obtain ⟨t, r1, w1, a1, m1⟩ := h1.1 (List.replicate m .ok ++ .fail landed :: later)
      obtain ⟨u, f, r⟩ := (h2 _ m1).2 m landed later (by rw [List.length_append] at hn; omega)
      have ht : answering (List.replicate m .ok ++ .fail landed :: later) (answering [] t) = t := by rw [← a1]; rfl
      rw [ht] at r
      refine ⟨u, FailedAt.after w1 ⟨f.stream, f.others, f.trace, f.rsp, f.err, f.st, f.handle, f.seq, f.sinkAnswers, f.op,
        f.w, f.h, f.pathtok, f.outside⟩ hw, fun j => ?_⟩
      rw [List.replicate_add, List.append_assoc, show k1 + k2 + 2 + j = k1 + (k2 + 2 + j) by omega, r1]
      exact r j

theorem Segment.mono {k : Nat} {s : State} {bytes : List Byte} {ops : List PortOp} {post post' : State → Prop}
    (h : Segment k s bytes ops post) (hp : ∀ u, post u → post' u) : Segment k s bytes ops post' := by
  refine ⟨fun later => ?_, h.2⟩
  obtain ⟨t, r, w, a, p⟩ := h.1 later
  exact ⟨t, r, w, a, hp _ p⟩

/-! ### One record -/

/-- `f` touches neither the ports nor what `Keeps` lists. -/
structure Quiet (f : State → State) : Prop where
  keeps : ∀ u, Keeps u (f u)
  streams : ∀ u, (f u).streams = u.streams
  trace : ∀ u, (f u).trace = u.trace
  sinkAnswers : ∀ u, (f u).sinkAnswers = u.sinkAnswers

theorem keeps_wrote (bytes : List Byte) (later : List SinkAnswer) (s : State) : Keeps s (wrote bytes later s) :=
  ⟨rfl, rfl, rfl, rfl, rfl, rfl, rfl, rfl, rfl, rfl, rfl⟩

theorem beforeWrite_acceptedWrites (bytes : List Byte) : ∀ n, n < bytes.length →
    beforeWrite n (acceptedWrites bytes) = acceptedWrites (bytes.take n) := by
  induction bytes with
  | nil => intro n hn; simp at hn
  | cons c bytes ih =>
    intro n hn
    cases n with
    | zero => rfl
    | succ n =>
      have := ih n (by simpa using hn)
      simp only [acceptedWrites, List.map_cons, List.take_succ_cons, beforeWrite] at this ⊢
      rw [this]

/-- How a command ends whose record meets a refused byte (R204, R249). -/
theorem failedAt_record {bytes : List Byte} {n : Nat} {landed : Bool} {later : List SinkAnswer} {f : State → State}
    (s : State) (hn : n < bytes.length) (hf : countersOnly f) :
    FailedAt bytes (acceptedWrites bytes) n landed later s
      (writeFailed (raise .writeFailure
        (f (rejected bytes[n] landed later (wrote (bytes.take n) (.fail landed :: later) s))))) := by
  obtain ⟨hp, mp, k, hcc⟩ := hf (rejected bytes[n] landed later (wrote (bytes.take n) (.fail landed :: later) s))
  have hg : bytes[n]? = some bytes[n] := List.getElem?_eq_getElem hn
  rw [hcc]
  unfold writeFailed
  constructor
  · rw [respond_stream, goTo_stream, closeSink_stream, raise_stream, hg]
    have h1 := stream_rejected bytes[n] landed later (wrote (bytes.take n) (.fail landed :: later) s)
    have h2 := stream_wrote (bytes.take n) (.fail landed :: later) s
    exact h1.trans (congrArg (· ++ _) h2)
  · intro other ho
    rw [respond_stream, goTo_stream, closeSink_stream, raise_stream]
    have h1 := stream_rejected_other bytes[n] landed later (wrote (bytes.take n) (.fail landed :: later) s)
      (tok := other) ho
    exact h1.trans (stream_wrote_other (bytes.take n) (.fail landed :: later) s ho)
  · rw [beforeWrite_acceptedWrites _ _ hn, hg]
    simp [responseBytes, Status.code]
  · simp [responseBytes, Status.code]
  · simp
  · simp
  · simp
  · simp
  · simp
  · simp
  · simp
  · simp
  · simp
  · simp [keepsOutside]

/-- A record that goes to the open sink is a stretch of one action. -/
theorem segment_record {bytes : List Byte} {save : Nat → State → State} {next : State → State} {s : State}
    {post : State → Prop} (hne : bytes ≠ []) (hh : s.handle = true) (hi : s.seq ≠ .idle)
    (ht : ∀ answers, tick (answering answers s) = emitRecord bytes save next (answering answers s))
    (hb : ∀ a answers, blocked (answering (a :: answers) s) = false) (hc : ∀ left, countersOnly (save left))
    (hq : Quiet next) (hp : ∀ later, post (answering [] (next (wrote bytes later s)))) :
    Segment 1 s bytes (acceptedWrites bytes) post := by
  constructor
  · intro later
    have he : emitRecord bytes save next (answering (List.replicate bytes.length .ok ++ later) s)
        = .next (next (wrote bytes later s)) := emitRecord_ok (s := answering _ s) hh rfl
    refine ⟨next (wrote bytes later s), ?_, ⟨?_, ?_, ?_, ?_⟩, ?_, hp later⟩
    · obtain ⟨b, rest, rfl⟩ := List.exists_cons_of_ne_nil hne
      exact Runs.one hi (hb _ _) ((ht _).trans he)
    · exact (keeps_wrote _ _ _).trans (hq.keeps _)
    · rw [← stream_wrote bytes later s]; simp only [State.stream, hq.streams]
    · intro other ho
      rw [← stream_wrote_other bytes later s ho]; simp only [State.stream, hq.streams]
    · rw [hq.trace]; rfl
    · rw [hq.sinkAnswers]; rfl
  · intro n landed later hn
    refine ⟨_, failedAt_record s hn (hc (bytes.length - n)), fun j => ?_⟩
    rw [show 1 + 2 + j = 2 + j + 1 by omega, runCommand, if_neg, ht, emitRecord_fail (landed := landed) (later := later)
      (s := answering (List.replicate n SinkAnswer.ok ++ SinkAnswer.fail landed :: later) s) hh hn rfl]
    · exact (runs_failing rfl).ends (by simp [writeFailed]) _
    · rintro (h | h)
      · exact hi h
      · cases n with
        | zero => exact absurd h (by rw [List.replicate_zero, List.nil_append, hb]; decide)
        | succ n => rw [List.replicate_succ, List.cons_append, hb] at h; cases h

end Sys2Proof.Machine
end

