-- ==== Sys2Proof/Laws/Write.lean ====
section
/-! SUPPORT. The steps of a WRITE as stretches: header, the pixels of a row, a scanline, the rows (R194 to R210). -/

namespace Sys2Proof.Machine

/-! ### Updates that touch no port -/

theorem quiet_goTo (position : Position) : Quiet (goTo position) :=
  ⟨fun _ => ⟨rfl, rfl, rfl, rfl, rfl, rfl, rfl, rfl, rfl, rfl, rfl⟩, fun _ => rfl, fun _ => rfl, fun _ => rfl⟩

theorem quiet_setHp (v : Nat) : Quiet (setHp v) :=
  ⟨fun _ => ⟨rfl, rfl, rfl, rfl, rfl, rfl, rfl, rfl, rfl, rfl, rfl⟩, fun _ => rfl, fun _ => rfl, fun _ => rfl⟩

theorem quiet_enterRows : Quiet enterRows :=
  ⟨fun _ => ⟨rfl, rfl, rfl, rfl, rfl, rfl, rfl, rfl, rfl, rfl, rfl⟩, fun _ => rfl, fun _ => rfl, fun _ => rfl⟩

theorem quiet_firstPlane : Quiet firstPlane :=
  ⟨fun _ => ⟨rfl, rfl, rfl, rfl, rfl, rfl, rfl, rfl, rfl, rfl, rfl⟩, fun _ => rfl, fun _ => rfl, fun _ => rfl⟩

theorem quiet_startScanline : Quiet startScanline :=
  ⟨fun _ => ⟨rfl, rfl, rfl, rfl, rfl, rfl, rfl, rfl, rfl, rfl, rfl⟩, fun _ => rfl, fun _ => rfl, fun _ => rfl⟩

theorem Quiet.comp {f g : State → State} (hf : Quiet f) (hg : Quiet g) : Quiet (fun u => f (g u)) :=
  ⟨fun u => (hg.keeps u).trans (hf.keeps _), fun u => (hf.streams _).trans (hg.streams u),
    fun u => (hf.trace _).trans (hg.trace u), fun u => (hf.sinkAnswers _).trans (hg.sinkAnswers u)⟩

theorem quiet_advance (n : Nat) : Quiet (advance n) := by
  have h : ∀ s, Keeps s (advance n s) ∧ (advance n s).streams = s.streams ∧ (advance n s).trace = s.trace
      ∧ (advance n s).sinkAnswers = s.sinkAnswers := by
    intro s
    rcases advance_cases n s with ⟨-, e⟩ | ⟨-, -, e⟩ | ⟨-, -, -, e⟩ | ⟨-, -, -, -, e⟩ | ⟨-, -, -, -, e⟩ <;> rw [e] <;>
      exact ⟨⟨rfl, rfl, rfl, rfl, rfl, rfl, rfl, rfl, rfl, rfl, rfl⟩, rfl, rfl, rfl⟩
  exact ⟨fun s => (h s).1, fun s => (h s).2.1, fun s => (h s).2.2.1, fun s => (h s).2.2.2⟩

/-! ### Where a WRITE stands -/

/-- A WRITE of these dimensions runs with its sink open, on this image; `draws` values have been drawn. -/
structure InJob (w h : Half) (img : Memory Pixel) (draws : Nat) (u : State) : Prop where
  op : u.op = Config.opWrite
  handle : u.handle = true
  w : u.w = w
  h : u.h = h
  img : u.img = img
  imgAnswers : u.imgAnswers = true
  draws : u.draws = draws

theorem InJob.of_keeps {w h : Half} {img : Memory Pixel} {d : Nat} {s t : State} (hs : InJob w h img d s) (hk : Keeps s t)
    (hd : t.draws = s.draws) : InJob w h img d t :=
  ⟨hk.op.trans hs.op, hk.handle.trans hs.handle, hk.w.trans hs.w, hk.h.trans hs.h, hk.img.trans hs.img,
    hk.imgAnswers.trans hs.imgAnswers, hd.trans hs.draws⟩

/-! ### The header (R194, R195) -/

/-- One header line from its first byte. -/
theorem segment_header {line : List Byte} {start : Nat} {next : State → State} {s : State} {post : State → Prop}
    (hne : line ≠ []) (hh : s.handle = true) (hhp : s.hp.toNat = start) (hi : s.seq ≠ .idle)
    (ht : ∀ answers, tick (answering answers s) = headerRecord line start next (answering answers s))
    (hb : ∀ a answers, blocked (answering (a :: answers) s) = false) (hq : Quiet next)
    (hp : ∀ later, post (answering [] (next (setHp (start + line.length) (wrote line later s))))) :
    Segment 1 s line (acceptedWrites line) post := by
  refine segment_record (save := fun left t => setHp (start + line.length - left) t) hne hh hi (fun answers => (ht answers).trans ?_) hb (fun left => countersOnly_setHp _)
    (hq.comp (quiet_setHp (start + line.length))) hp
  rw [headerRecord]
  have h0 : (answering answers s).hp.toNat = start := hhp
  rw [h0, Nat.sub_self, List.drop_zero]

theorem acceptedWrites_append (a b : List Byte) : acceptedWrites (a ++ b) = acceptedWrites a ++ acceptedWrites b := by
  simp [acceptedWrites]

/-- Step HEADER: the header block and the resolution line, then the row loop's entry (R194 to R196, R205). -/
theorem segment_headers {w h : Half} {img : Memory Pixel} {d : Nat} {s : State} (hj : InJob w h img d s)
    (hseq : s.seq = .header1) (hhp : s.hp = 0#7) :
    Segment 5 s (headerBytes w h) (acceptedWrites (headerBytes w h))
      (fun u => InJob w h img d u ∧ u.seq = .quantizing ∧ u.x = 0#16 ∧ u.y = h - 1#16) := by
  have hk : ∀ (u : State) (line : List Byte) (later : List SinkAnswer) (n : Nat) (next : State → State), Quiet next →
      (∀ v, (next v).draws = v.draws) → InJob w h img d u →
      InJob w h img d (answering [] (next (setHp n (wrote line later u)))) := by
    intro u line later n next hq hd hu
    refine hu.of_keeps ?_ (hd _)
    have := (keeps_wrote line later u).trans (((quiet_setHp n).keeps _).trans (hq.keeps _))
    exact ⟨this.op, this.w, this.h, this.pathtok, this.img, this.imgAnswers, this.cmd, this.resetReq, this.rsp, this.handle,
      this.payload⟩
  have h1 : Segment 1 s Config.headerLine1 (acceptedWrites Config.headerLine1)
      (fun u => InJob w h img d u ∧ u.seq = .header2 ∧ u.hp = 11#7) :=
    segment_header (start := 0) (by decide) hj.handle (by rw [hhp]; rfl) (by simp [hseq])
      (fun answers => by simp only [tick, answering, hseq]; rfl) (fun a answers => by simp [blocked, answering, hseq])
      (quiet_goTo .header2) (fun later => ⟨hk _ _ _ _ _ (quiet_goTo _) (fun _ => rfl) hj, rfl, rfl⟩)
  have h2 : ∀ u, InJob w h img d u ∧ u.seq = .header2 ∧ u.hp = 11#7 →
      Segment 1 u Config.headerLine2 (acceptedWrites Config.headerLine2)
        (fun u => InJob w h img d u ∧ u.seq = .header3 ∧ u.hp = 42#7) := fun u ⟨hu, hs, hp⟩ =>
    segment_header (start := 11) (by decide) hu.handle (by rw [hp]; rfl) (by simp [hs])
      (fun answers => by simp only [tick, answering, hs]; rfl) (fun a answers => by simp [blocked, answering, hs])
      (quiet_goTo .header3) (fun later => ⟨hk _ _ _ _ _ (quiet_goTo _) (fun _ => rfl) hu, rfl, rfl⟩)
  have h3 : ∀ u, InJob w h img d u ∧ u.seq = .header3 ∧ u.hp = 42#7 →
      Segment 1 u Config.headerLine3 (acceptedWrites Config.headerLine3)
        (fun u => InJob w h img d u ∧ u.seq = .header4 ∧ u.hp = 65#7) := fun u ⟨hu, hs, hp⟩ =>
    segment_header (start := 42) (by decide) hu.handle (by rw [hp]; rfl) (by simp [hs])
      (fun answers => by simp only [tick, answering, hs]; rfl) (fun a answers => by simp [blocked, answering, hs])
      (quiet_goTo .header4) (fun later => ⟨hk _ _ _ _ _ (quiet_goTo _) (fun _ => rfl) hu, rfl, rfl⟩)
  have h4 : ∀ u, InJob w h img d u ∧ u.seq = .header4 ∧ u.hp = 65#7 →
      Segment 1 u Config.headerLine4 (acceptedWrites Config.headerLine4)
        (fun u => InJob w h img d u ∧ u.seq = .resolution ∧ u.hp = 101#7) := fun u ⟨hu, hs, hp⟩ =>
    segment_header (start := 65) (by decide) hu.handle (by rw [hp]; rfl) (by simp [hs])
      (fun answers => by simp only [tick, answering, hs]; rfl) (fun a answers => by simp [blocked, answering, hs])
      (quiet_goTo .resolution) (fun later => ⟨hk _ _ _ _ _ (quiet_goTo _) (fun _ => rfl) hu, rfl, rfl⟩)
  have h5 : ∀ u, InJob w h img d u ∧ u.seq = .resolution ∧ u.hp = 101#7 →
      Segment 1 u (reslineBytes h w) (acceptedWrites (reslineBytes h w))
        (fun u => InJob w h img d u ∧ u.seq = .quantizing ∧ u.x = 0#16 ∧ u.y = h - 1#16) := fun u ⟨hu, hs, hp⟩ =>
    segment_header (start := 101) (next := enterRows) (by rw [← List.length_pos_iff, length_reslineBytes]; omega) hu.handle
      (by rw [hp]; rfl) (by simp [hs])
      (fun answers => by
        have e1 : (answering answers u).h = h := hu.h
        have e2 : (answering answers u).w = w := hu.w
        have e3 : (answering answers u).seq = .resolution := hs
        simp only [tick, e3, e1, e2]; rfl)
      (fun a answers => by simp [blocked, answering, hs])
      quiet_enterRows (fun later => ⟨hk _ _ _ _ _ quiet_enterRows (fun _ => rfl) hu, rfl, rfl, by
        show u.h - 1#16 = _; rw [hu.h]⟩)
  have hall := h1.trans (by simp) fun u hu => (h2 u hu).trans (by simp) fun u hu => (h3 u hu).trans (by simp) fun u hu =>
    (h4 u hu).trans (by simp) h5
  have hbytes : headerBytes w h = Config.headerLine1 ++ (Config.headerLine2 ++ (Config.headerLine3
      ++ (Config.headerLine4 ++ reslineBytes h w))) := by
    simp only [headerBytes, Config.hdrRom, List.append_assoc]
  rw [hbytes]
  simp only [acceptedWrites_append]
  exact hall

end Sys2Proof.Machine
end

