-- ==== Sys2Proof/Laws/Rows.lean ====
section
/-! SUPPORT. A row step of a WRITE as a stretch: the reads of a row, its scanline, and the rows one after another (R205 to
R210). -/

namespace Sys2Proof.Machine

/-! ### A scanline at the open sink -/

/-- A WRITE that encodes row `y`, whose quantization `row` is in `SLB`. -/
structure Encoding (w h : Half) (img : Memory Pixel) (d : Nat) (y : Half) (row : List Quad) (u : State) : Prop where
  job : InJob w h img d u
  y : u.y = y
  holds : holdsRow u.slb row
  length : row.length = w.toNat

/-- In plane `p` at element `x`, with `rem` elements left. -/
structure InPlane (w h : Half) (img : Memory Pixel) (d : Nat) (y : Half) (row : List Quad) (p : BitVec 2) (x rem : Half)
    (u : State) : Prop where
  encoding : Encoding w h img d y row u
  seq : u.seq = .chunking
  p : u.p = p
  x : u.x = x
  rem : u.rem = rem
  k : u.k = 0#7

/-- Where a row step ends (R210): CLOSE after row 0, else the next row's first pixel. -/
def afterRow (w h : Half) (img : Memory Pixel) (d : Nat) (y : Half) (u : State) : Prop :=
  InJob w h img d u ∧ u.st = .rowWritten
    ∧ ((y = 0#16 ∧ u.y = 0#16 ∧ u.seq = .closing) ∨ (y ≠ 0#16 ∧ u.seq = .quantizing ∧ u.x = 0#16 ∧ u.y = y - 1#16))

/-- What follows a plane: the next one, or the end of the row step. -/
def afterPlane (w h : Half) (img : Memory Pixel) (d : Nat) (y : Half) (row : List Quad) (p : BitVec 2) (u : State) : Prop :=
  (p ≠ 3#2 ∧ InPlane w h img d y row (p + 1#2) 0#16 w u) ∨ (p = 3#2 ∧ afterRow w h img d y u)

theorem Encoding.of_keeps {w h : Half} {img : Memory Pixel} {d : Nat} {y : Half} {row : List Quad} {s t : State}
    (hs : Encoding w h img d y row s) (hk : Keeps s t) (hd : t.draws = s.draws) (hy : t.y = s.y) (hb : t.slb = s.slb) :
    Encoding w h img d y row t :=
  ⟨hs.job.of_keeps hk hd, hy.trans hs.y, by rw [hb]; exact hs.holds, hs.length⟩

theorem keeps_answering (answers : List SinkAnswer) (s : State) : Keeps s (answering answers s) :=
  ⟨rfl, rfl, rfl, rfl, rfl, rfl, rfl, rfl, rfl, rfl, rfl⟩

/-- The marker (R161). -/
theorem segment_marker {w h : Half} {img : Memory Pixel} {d : Nat} {y : Half} {row : List Quad} {s : State}
    (hs : Encoding w h img d y row s) (hseq : s.seq = .marking) (hmp : s.mp = 0#2) :
    Segment 1 s (markerBytes w) (acceptedWrites (markerBytes w)) (InPlane w h img d y row 0#2 0#16 w) := by
  have hop : s.op ≠ Config.opEncsl := by rw [hs.job.op]; decide
  refine segment_record (save := fun left t => setMp (4 - left) t) (next := firstPlane)
    (by simp [markerBytes]) hs.job.handle (by simp [hseq]) (fun answers => ?_) (fun a answers => ?_)
    (fun left => countersOnly_setMp _) quiet_firstPlane (fun later => ?_)
  · have e1 : (answering answers s).seq = .marking := hseq
    have e2 : (answering answers s).w = w := hs.job.w
    have e3 : (answering answers s).mp = 0#2 := hmp
    simp only [tick, e1, e2]
    rw [execMark, emitScanlineRecord_write (s := answering answers s) hop, e3]
    rfl
  · simp [blocked, answering, hseq]
  · exact ⟨hs.of_keeps ((keeps_wrote _ later s).trans ((quiet_firstPlane.keeps _).trans (keeps_answering _ _))) rfl rfl rfl,
      rfl, rfl, rfl, hs.job.w, rfl⟩

/-- One chunk (R163 to R165). -/
theorem segment_chunk {w h : Half} {img : Memory Pixel} {d : Nat} {y : Half} {row : List Quad} {p : BitVec 2} {x rem : Half}
    {s : State} (hs : InPlane w h img d y row p x rem s) (hx : x.toNat + rem.toNat = w.toNat) (hrem : rem ≠ 0#16) :
    Segment 1 s (chunkBytes (((planeOf p row).drop x.toNat).take (chunkLength rem)))
      (acceptedWrites (chunkBytes (((planeOf p row).drop x.toNat).take (chunkLength rem))))
      (fun u => (rem.toNat ≤ 127 ∧ afterPlane w h img d y row p u)
        ∨ (127 < rem.toNat ∧ InPlane w h img d y row p (x + 127#16) (rem - 127#16) u)) := by
  obtain ⟨he, hseq, hp, hsx, hsr, hk⟩ := hs
  have hop : s.op ≠ Config.opEncsl := by rw [he.job.op]; decide
  have hpos : rem.toNat ≠ 0 := fun h => hrem (BitVec.eq_of_toNat_eq (by simpa using h))
  have hwl := w.isLt
  have hlen : (((planeOf p row).drop x.toNat).take (chunkLength rem)).length = chunkLength rem := by
    simp [chunkLength, he.length]; omega
  have hcl : 1 ≤ chunkLength rem ∧ chunkLength rem ≤ Config.chunkMax := by simp [chunkLength, Config.chunkMax]; omega
  refine segment_record (save := setK (chunkLength rem)) (next := advance (chunkLength rem))
    (by simp [chunkBytes]) he.job.handle (by simp [hseq]) (fun answers => ?_) (fun a answers => ?_)
    (fun left => countersOnly_setK _ _) (quiet_advance _) (fun later => ?_)
  · have hd : chunkData (answering answers s) = .ok (((planeOf p row).drop x.toNat).take (chunkLength rem)) := by
      have : chunkData (answering answers s) = readPlane s.slb s.p s.x.toNat (chunkLength s.rem) := rfl
      rw [this, hp, hsx, hsr]
      exact readPlane_row (x := x.toNat) (n := chunkLength rem) he.holds
        (by rw [he.length, chunkLength, Config.chunkMax]; omega) (by rw [he.length, Config.slbCap]; omega)
    have e1 : (answering answers s).seq = .chunking := hseq
    simp only [tick, e1, hd]
    rw [execLit, if_pos (by rw [hlen]; exact hcl), emitScanlineRecord_write (s := answering answers s) hop, hlen]
    rw [chunkRest, if_pos (show (answering answers s).k = 0#7 from hk)]
  · simp [blocked, answering, hseq]
  · generalize hu : wrote (chunkBytes (((planeOf p row).drop x.toNat).take (chunkLength rem))) later s = u
    have hue : Encoding w h img d y row u := by
      rw [← hu]; exact he.of_keeps (keeps_wrote _ later s) rfl rfl rfl
    have h1 : u.p = p := by rw [← hu]; exact hp
    have h2 : u.x = x := by rw [← hu]; exact hsx
    have h3 : u.rem = rem := by rw [← hu]; exact hsr
    have h4 : u.op ≠ Config.opEncsl := by rw [hue.job.op]; decide
    have hkeep : Keeps u (answering [] (advance (chunkLength rem) u)) :=
      ((quiet_advance _).keeps u).trans (keeps_answering _ _)
    have hzero : rem - BitVec.ofNat 16 (chunkLength rem) = 0#16 ↔ rem.toNat ≤ 127 := by
      constructor
      · intro h
        have := congrArg BitVec.toNat h
        simp only [BitVec.toNat_sub, BitVec.toNat_ofNat, chunkLength, Config.chunkMax] at this
        have := rem.isLt
        omega
      · intro h
        have : chunkLength rem = rem.toNat := by simp [chunkLength, Config.chunkMax]; omega
        rw [this]; simp
    rcases advance_cases (chunkLength rem) u with ⟨hz, e⟩ | ⟨hz, hp3, e⟩ | ⟨-, -, ho, -⟩ | ⟨hz, hp3, -, hy0, e⟩
        | ⟨hz, hp3, -, hy0, e⟩
    · rw [h3] at hz
      have hlt : 127 < rem.toNat := by
        have := mt hzero.mpr hz; omega
      have hc : chunkLength rem = 127 := by simp [chunkLength, Config.chunkMax]; omega
      refine Or.inr ⟨hlt, ⟨hue.of_keeps hkeep ?_ ?_ ?_, ?_, ?_, ?_, ?_, ?_⟩⟩ <;> rw [e] <;> simp [answering, hc, h1, h2, h3]
    · rw [h3] at hz
      refine Or.inl ⟨hzero.mp hz, Or.inl ⟨by rw [← h1]; exact hp3, ⟨hue.of_keeps hkeep ?_ ?_ ?_, ?_, ?_, ?_, ?_, ?_⟩⟩⟩ <;> rw [e]
        <;> simp [answering, h1, hue.job.w]
    · exact absurd ho h4
    · rw [h3] at hz
      rw [hue.y] at hy0
      refine Or.inl ⟨hzero.mp hz, Or.inr ⟨by rw [← h1]; exact hp3, hue.job.of_keeps hkeep ?_, ?_, Or.inl ⟨hy0, ?_, ?_⟩⟩⟩ <;> rw [e]
        <;> simp [answering, hue.y, hy0]
    · rw [h3] at hz
      rw [hue.y] at hy0
      refine Or.inl ⟨hzero.mp hz, Or.inr ⟨by rw [← h1]; exact hp3, hue.job.of_keeps hkeep ?_, ?_, Or.inr ⟨hy0, ?_, ?_, ?_⟩⟩⟩ <;> rw [e]
        <;> simp [answering, hue.y]

/-- The rest of a plane (R163 to R165). -/
theorem segment_plane {w h : Half} {img : Memory Pixel} {d : Nat} {y : Half} {row : List Quad} {p : BitVec 2} (n : Nat) :
    ∀ (s : State) (x rem : Half), rem.toNat = n → InPlane w h img d y row p x rem s → x.toNat + rem.toNat = w.toNat →
    rem ≠ 0#16 →
    Segment ((rem.toNat + 126) / 127) s (planeRecord ((planeOf p row).drop x.toNat))
      (acceptedWrites (planeRecord ((planeOf p row).drop x.toNat))) (afterPlane w h img d y row p) := by
  induction n using Nat.strong_induction_on with
  | _ n ih =>
    intro s x rem hn hs hx hrem
    have hpos : rem.toNat ≠ 0 := fun h => hrem (BitVec.eq_of_toNat_eq (by simpa using h))
    have hwl := w.isLt
    have hpl : ((planeOf p row).drop x.toNat).length = rem.toNat := by simp [hs.encoding.length]; omega
    have hne : (planeOf p row).drop x.toNat ≠ [] := fun h => by rw [h] at hpl; simp at hpl; omega
    have htake : ((planeOf p row).drop x.toNat).take Config.chunkMax
        = ((planeOf p row).drop x.toNat).take (chunkLength rem) := by
      rcases Nat.le_total rem.toNat 127 with h | h
      · rw [List.take_of_length_le (by rw [hpl]; exact h), List.take_of_length_le (by
          rw [hpl, chunkLength, Config.chunkMax]; omega)]
      · rw [chunkLength, Config.chunkMax, Nat.min_eq_left h]
    have hrec := planeRecord_cons hne
    rw [htake] at hrec
    have hone := segment_chunk hs hx hrem
    by_cases hlast : rem.toNat ≤ 127
    · have hdrop : ((planeOf p row).drop x.toNat).drop Config.chunkMax = [] :=
        List.drop_eq_nil_of_le (by rw [hpl]; exact hlast)
      rw [show (rem.toNat + 126) / 127 = 1 by omega, hrec, hdrop, planeRecord_nil, List.append_nil]
      refine hone.mono fun u hu => ?_
      rcases hu with ⟨-, hu⟩ | ⟨h, -⟩
      · exact hu
      · omega
    · have h127 : (127#16).toNat = 127 := rfl
      have hrem' : (rem - 127#16).toNat = rem.toNat - 127 := by
        rw [BitVec.toNat_sub_of_le (by rw [BitVec.le_def, h127]; omega), h127]
      have hx' : (x + 127#16).toNat = x.toNat + 127 := by
        rw [BitVec.toNat_add, h127]; omega
      have hne' : rem - 127#16 ≠ 0#16 := fun h => by
        have := congrArg BitVec.toNat h; rw [hrem'] at this; simp at this; omega
      have hdd : ((planeOf p row).drop x.toNat).drop Config.chunkMax = (planeOf p row).drop (x + 127#16).toNat := by
        rw [List.drop_drop, hx']
      rw [hrec, hdd, acceptedWrites_append, show (rem.toNat + 126) / 127 = 1 + (rem.toNat - 127 + 126) / 127 by omega]
      refine hone.trans (by simp) fun u hu => ?_
      rcases hu with ⟨h, -⟩ | ⟨-, hu⟩
      · omega
      · have := ih (rem - 127#16).toNat (by omega) u (x + 127#16) (rem - 127#16) rfl hu (by omega) hne'
        rw [hrem'] at this
        exact this

/-- A whole scanline at the sink (R160, R209, R210). -/
theorem segment_scanline {w h : Half} {img : Memory Pixel} {d : Nat} {y : Half} {row : List Quad} {s : State}
    (hs : Encoding w h img d y row s) (hw : w ≠ 0#16) (hseq : s.seq = .marking) (hmp : s.mp = 0#2) :
    Segment (scanlineActions w.toNat) s (encodeScanline w row) (acceptedWrites (encodeScanline w row))
      (afterRow w h img d y) := by
  have hplane : ∀ (p : BitVec 2) (u : State), InPlane w h img d y row p 0#16 w u →
      Segment ((w.toNat + 126) / 127) u (planeRecord (planeOf p row)) (acceptedWrites (planeRecord (planeOf p row)))
        (afterPlane w h img d y row p) := fun p u hu => by
    have := segment_plane w.toNat u 0#16 w rfl hu (by simp) hw
    simpa using this
  have next : ∀ (p : BitVec 2) (u : State), p ≠ 3#2 → afterPlane w h img d y row p u →
      InPlane w h img d y row (p + 1#2) 0#16 w u := by
    rintro p u hp (⟨-, hu⟩ | ⟨h3, -⟩)
    · exact hu
    · exact absurd h3 hp
  have hall := (segment_marker hs hseq hmp).trans (by simp) fun u hu => (hplane 0#2 u hu).trans (by simp) fun u hu =>
    (hplane 1#2 u (next 0#2 u (by decide) hu)).trans (by simp) fun u hu =>
    (hplane 2#2 u (next 1#2 u (by decide) hu)).trans (by simp) fun u hu => hplane 3#2 u (next 2#2 u (by decide) hu)
  have hbytes : encodeScanline w row = markerBytes w ++ (planeRecord (planeOf 0#2 row) ++ (planeRecord (planeOf 1#2 row)
      ++ (planeRecord (planeOf 2#2 row) ++ planeRecord (planeOf 3#2 row)))) := by
    simp only [encodeScanline, List.append_assoc]
  rw [hbytes]
  simp only [acceptedWrites_append]
  rw [scanlineActions, show 1 + 4 * ((w.toNat + 126) / 127)
    = 1 + ((w.toNat + 126) / 127 + ((w.toNat + 126) / 127 + ((w.toNat + 126) / 127 + (w.toNat + 126) / 127))) by omega]
  refine hall.mono ?_
  rintro u (⟨h3, -⟩ | ⟨-, hu⟩)
  · exact absurd rfl h3
  · exact hu

/-! ### Actions without a write -/

/-- An action that writes nothing to the sink and waits for no answer of it. -/
theorem segment_silent {s t : State} {ops : List PortOp} {post : State → Prop} (hi : s.seq ≠ .idle)
    (hb : ∀ answers, blocked (answering answers s) = false)
    (ht : ∀ answers, tick (answering answers s) = .next (answering answers t)) (hk : Keeps s t)
    (hs : t.streams = s.streams) (htr : t.trace = s.trace ++ ops) (hp : post (answering [] t)) : Segment 1 s [] ops post := by
  refine ⟨fun later => ⟨answering later t, Runs.one hi (hb _) (ht _), ⟨hk.trans (keeps_answering _ _), ?_, ?_, htr⟩, rfl, hp⟩,
    fun n landed later hn => absurd hn (by simp)⟩
  · simp [State.stream, answering, hs]
  · intro other _; simp [State.stream, answering, hs]

/-- No action. -/
theorem segment_none {s : State} {post : State → Prop} (hp : post (answering [] s)) : Segment 0 s [] [] post := by
  refine ⟨fun later => ⟨answering later s, Runs.refl _, ⟨keeps_answering _ _, by simp [State.stream, answering],
    fun _ _ => rfl, by simp [answering]⟩, rfl, hp⟩, fun n landed later hn => absurd hn (by simp)⟩

/-! ### The quantization of a row (R208) -/

/-- The quantization of pixels in order, `d` values having been drawn before (R130, R141). -/
def drawnRow : Nat → List Pixel → List Quad
  | _, [] => []
  | d, pixel :: rest =>
    if validPixel pixel then quantizeValid pixel :: drawnRow d rest else Config.drawnQuad d :: drawnRow (d + 1) rest

/-- How many values have been drawn after them. -/
def drawnAfter : Nat → List Pixel → Nat
  | d, [] => d
  | d, pixel :: rest => if validPixel pixel then drawnAfter d rest else drawnAfter (d + 1) rest

@[simp] theorem length_drawnRow (pixels : List Pixel) : ∀ d, (drawnRow d pixels).length = pixels.length := by
  induction pixels with
  | nil => intro d; rfl
  | cons pixel rest ih => intro d; rw [drawnRow]; split <;> simp [ih]

/-- A valid pixel's entry is its quantization, whatever was drawn. -/
theorem getElem?_drawnRow {pixel : Pixel} (pixels : List Pixel) : ∀ (d i : Nat), pixels[i]? = some pixel →
    validPixel pixel = true → (drawnRow d pixels)[i]? = some (quantizeValid pixel) := by
  induction pixels with
  | nil => intro d i h; simp at h
  | cons p rest ih =>
    intro d i h hv
    cases i with
    | zero =>
      obtain rfl : p = pixel := by simpa using h
      simp [drawnRow, hv]
    | succ i =>
      have h' : rest[i]? = some pixel := by simpa using h
      rw [drawnRow]; split <;> simp [ih _ _ h' hv]

theorem pixelIndex_toNat {w y x : Half} (h : x.toNat < w.toNat) :
    (pixelIndex w y x).toNat = y.toNat * w.toNat + x.toNat := by
  have h1 := w.isLt
  have h2 := y.isLt
  have : y.toNat * w.toNat ≤ 65535 * 65535 := Nat.mul_le_mul (by omega) (by omega)
  simp [pixelIndex, BitVec.toNat_add, BitVec.toNat_mul]
  omega

theorem holdsRow_snoc {slb : Memory Quad} {row : List Quad} {quad : Quad} (h : holdsRow slb row) :
    holdsRow (Memory.set slb row.length quad) (row ++ [quad]) := by
  intro j hj
  rw [List.length_append, List.length_singleton] at hj
  by_cases he : j = row.length
  · subst he; simp
  · rw [get?_set_other _ he, h j (by omega), List.getElem?_append_left (by omega)]

theorem quantizeStep_answering (answers : List SinkAnswer) (s : State) :
    quantizeStep (answering answers s) = answering answers (quantizeStep s) := by
  have h : (answering answers s).pix = s.pix := rfl
  unfold quantizeStep
  rw [h]
  split <;> rfl

/-- The load and quantization of one pixel (R208). -/
theorem tick_pixel {pixel : Pixel} {s : State} (hseq : s.seq = .quantizing) (hx : s.x.toNat < s.w.toNat)
    (hi : s.imgAnswers = true) (hp : Memory.get? s.img (pixelIndex s.w s.y s.x).toNat = some pixel) :
    tick s = .next (storePixel (quantizeStep (latchPixel (pixelIndex s.w s.y s.x) pixel s))) := by
  simp only [tick, hseq]
  rw [stepQuantize, if_pos hx, if_pos hi, memRead, hp]

/-- A WRITE that quantizes row `y`; the entries `done` are in `SLB`. -/
structure Quantizing (w h : Half) (img : Memory Pixel) (d : Nat) (y : Half) (done : List Quad) (u : State) : Prop where
  job : InJob w h img d u
  seq : u.seq = .quantizing
  y : u.y = y
  x : u.x.toNat = done.length
  holds : holdsRow u.slb done

/-- One pixel (R208). -/
theorem segment_pixel {w h : Half} {img : Memory Pixel} {d : Nat} {y : Half} {done : List Quad} {pixel : Pixel} {s : State}
    (hs : Quantizing w h img d y done s) (hx : done.length < w.toNat)
    (hp : Memory.get? img (y.toNat * w.toNat + done.length) = some pixel) :
    Segment 1 s [] [.memRead (BitVec.ofNat 32 (y.toNat * w.toNat + done.length))] (fun u =>
      (validPixel pixel = true ∧ Quantizing w h img d y (done ++ [quantizeValid pixel]) u)
      ∨ (validPixel pixel = false ∧ Quantizing w h img (d + 1) y (done ++ [Config.drawnQuad d]) u)) := by
  obtain ⟨hj, hseq, hy, hsx, hh⟩ := hs
  have hlt : s.x.toNat < s.w.toNat := by rw [hsx, hj.w]; exact hx
  have hidx : (pixelIndex s.w s.y s.x).toNat = y.toNat * w.toNat + done.length := by
    rw [pixelIndex_toNat hlt, hsx, hj.w, hy]
  have hidx' : pixelIndex s.w s.y s.x = BitVec.ofNat 32 (y.toNat * w.toNat + done.length) := by
    rw [← hidx, BitVec.ofNat_toNat, BitVec.setWidth_eq]
  have hwl := w.isLt
  have hx1 : (s.x + 1#16).toNat = done.length + 1 := by
    rw [BitVec.toNat_add, hsx]
    have : (1#16).toNat = 1 := rfl
    rw [this]; omega
  generalize hl : latchPixel (pixelIndex s.w s.y s.x) pixel s = l
  have e1 : l.pix = pixel := by rw [← hl]; rfl
  have hdone : ∀ (quad : Quad) (n : Nat),
      Quantizing w h img n y (done ++ [quad]) (answering [] (storePixel { l with q := quad, draws := n })) := by
    intro quad n
    subst hl
    refine ⟨⟨hj.op, hj.handle, hj.w, hj.h, hj.img, hj.imgAnswers, rfl⟩, hseq, hy, ?_, ?_⟩
    · rw [List.length_append, List.length_singleton]; exact hx1
    · show holdsRow (Memory.set s.slb s.x.toNat quad) _
      rw [hsx]; exact holdsRow_snoc hh
  refine segment_silent (t := storePixel (quantizeStep l)) (by simp [hseq]) (fun answers => ?_) (fun answers => ?_) ?_ ?_ ?_ ?_
  · simp [blocked, answering, hseq, hj.imgAnswers]
  · have ht := tick_pixel (s := answering answers s) (pixel := pixel) hseq hlt hj.imgAnswers (by
      show Memory.get? s.img (pixelIndex s.w s.y s.x).toNat = _
      rw [hidx, hj.img, hp])
    have h1 : latchPixel (pixelIndex (answering answers s).w (answering answers s).y (answering answers s).x) pixel
        (answering answers s) = answering answers l := by rw [← hl]; rfl
    have h2 : ∀ t, storePixel (answering answers t) = answering answers (storePixel t) := fun t => rfl
    rw [ht, h1, quantizeStep_answering, h2]
  · subst hl
    rcases quantizeStep_cases (latchPixel (pixelIndex s.w s.y s.x) pixel s) with ⟨-, e⟩ | ⟨-, e⟩ <;> rw [e] <;>
      exact ⟨rfl, rfl, rfl, rfl, rfl, rfl, rfl, rfl, rfl, rfl, rfl⟩
  · subst hl
    rcases quantizeStep_cases (latchPixel (pixelIndex s.w s.y s.x) pixel s) with ⟨-, e⟩ | ⟨-, e⟩ <;> rw [e] <;> rfl
  · subst hl
    rw [← hidx']
    rcases quantizeStep_cases (latchPixel (pixelIndex s.w s.y s.x) pixel s) with ⟨-, e⟩ | ⟨-, e⟩ <;> rw [e] <;> rfl
  · have hd : l.draws = d := by rw [← hl]; exact hj.draws
    rcases quantizeStep_cases l with ⟨hv, e⟩ | ⟨hv, e⟩ <;> rw [e1] at hv
    · refine Or.inl ⟨hv, ?_⟩
      rw [e, e1, setQ]
      have := hdone (quantizeValid pixel) l.draws
      rw [hd] at this ⊢
      exact this
    · refine Or.inr ⟨hv, ?_⟩
      rw [e, drawQ, hd]
      exact hdone _ _

/-- The rest of a row's pixels, left to right (R208). -/
theorem segment_pixels {w h : Half} {img : Memory Pixel} {y : Half} (pixels : List Pixel) :
    ∀ (d : Nat) (done : List Quad) (s : State), Quantizing w h img d y done s → done.length + pixels.length = w.toNat →
    (∀ i pixel, pixels[i]? = some pixel → Memory.get? img (y.toNat * w.toNat + (done.length + i)) = some pixel) →
    Segment pixels.length s []
      ((List.range' done.length pixels.length).map fun x => .memRead (BitVec.ofNat 32 (y.toNat * w.toNat + x)))
      (Quantizing w h img (drawnAfter d pixels) y (done ++ drawnRow d pixels)) := by
  induction pixels with
  | nil =>
    intro d done s hs hlen _
    refine segment_none ?_
    simp only [drawnRow, List.append_nil]
    exact ⟨hs.job.of_keeps (keeps_answering _ _) rfl, hs.seq, hs.y, hs.x, hs.holds⟩
  | cons pixel rest ih =>
    intro d done s hs hlen himg
    rw [List.length_cons] at hlen
    have hone := segment_pixel hs (by omega) (himg 0 pixel rfl)
    have himg' : ∀ (quad : Quad) (i : Nat) (p : Pixel), rest[i]? = some p →
        Memory.get? img (y.toNat * w.toNat + ((done ++ [quad]).length + i)) = some p := by
      intro quad i p hp
      rw [List.length_append, List.length_singleton, show done.length + 1 + i = done.length + (i + 1) by omega]
      exact himg (i + 1) p (by simpa using hp)
    rw [List.length_cons, Nat.add_comm rest.length 1, Nat.add_comm 1 rest.length, List.range'_succ, List.map_cons,
      Nat.add_comm rest.length 1]
    refine hone.trans (b2 := []) (o2 := (List.range' (done.length + 1) rest.length).map
      fun x => .memRead (BitVec.ofNat 32 (y.toNat * w.toNat + x))) (by simp [writes]) fun u hu => ?_
    rcases hu with ⟨hv, hu⟩ | ⟨hv, hu⟩
    · have := ih d _ u hu (by rw [List.length_append, List.length_singleton]; omega) (himg' _)
      simp only [drawnRow, drawnAfter, hv, if_true]
      simpa using this
    · have := ih (d + 1) _ u hu (by rw [List.length_append, List.length_singleton]; omega) (himg' _)
      simp only [drawnRow, drawnAfter, hv, Bool.false_eq_true, if_false]
      simpa using this

/-! ### The row loop (R205 to R210) -/

theorem getElem?_imageRow {img : Memory Pixel} {w h : Half} (hc : imageComplete img w h) {y : Nat} (hy : y < h.toNat) {x : Nat}
    {pixel : Pixel} (hx : (imageRow img w.toNat y)[x]? = some pixel) :
    Memory.get? img (y * w.toNat + x) = some pixel := by
  have hlt : x < w.toNat := by
    by_contra hn
    rw [List.getElem?_eq_none (by simp [imageRow]; omega)] at hx
    cases hx
  have hi : y * w.toNat + x < w.toNat * h.toNat := by
    have : (y + 1) * w.toNat ≤ h.toNat * w.toNat := Nat.mul_le_mul_right _ hy
    rw [Nat.succ_mul] at this
    rw [Nat.mul_comm w.toNat]; omega
  obtain ⟨p, hp⟩ := Option.isSome_iff_exists.mp (hc _ hi)
  rw [imageRow, List.getElem?_map, List.getElem?_range hlt] at hx
  simp only [Option.map_some, hp, Option.getD_some, Option.some.injEq] at hx
  rw [hp, hx]

/-- A whole row step (R206, R208 to R210). -/
theorem segment_row {w h : Half} {img : Memory Pixel} {d : Nat} {y : Half} {s : State} (hw : w ≠ 0#16)
    (hc : imageComplete img w h) (hy : y.toNat < h.toNat) (hs : Quantizing w h img d y [] s) :
    Segment (w.toNat + 1 + scanlineActions w.toNat) s (encodeScanline w (drawnRow d (imageRow img w.toNat y.toNat)))
      (rowReads w y.toNat ++ acceptedWrites (encodeScanline w (drawnRow d (imageRow img w.toNat y.toNat))))
      (afterRow w h img (drawnAfter d (imageRow img w.toNat y.toNat)) y) := by
  have hlen : (imageRow img w.toNat y.toNat).length = w.toNat := by simp [imageRow]
  have h1 := segment_pixels (imageRow img w.toNat y.toNat) d [] s hs (by simp [hlen])
    (fun i pixel hp => by simpa using getElem?_imageRow hc hy hp)
  rw [hlen, List.length_nil, List.nil_append, ← List.range_eq_range'] at h1
  have hturn : ∀ u, Quantizing w h img (drawnAfter d (imageRow img w.toNat y.toNat)) y
        (drawnRow d (imageRow img w.toNat y.toNat)) u →
      Segment 1 u [] [] (fun v => Encoding w h img (drawnAfter d (imageRow img w.toNat y.toNat)) y
        (drawnRow d (imageRow img w.toNat y.toNat)) v ∧ v.seq = .marking ∧ v.mp = 0#2) := by
    rintro u ⟨hj, hseq, hy, hx, hh⟩
    have hnot : ¬ u.x.toNat < u.w.toNat := by rw [hx, hj.w, length_drawnRow, hlen]; omega
    refine segment_silent (t := startScanline u) (by simp [hseq]) (fun answers => ?_) (fun answers => ?_)
      (quiet_startScanline.keeps u) rfl (by simp) ⟨⟨hj.of_keeps ((quiet_startScanline.keeps u).trans (keeps_answering _ _)) rfl,
        hy, hh, by rw [length_drawnRow, hlen]⟩, rfl, rfl⟩
    · have e1 : (answering answers u).x = u.x := rfl
      have e2 : (answering answers u).w = u.w := rfl
      simp [blocked, show (answering answers u).seq = .quantizing from hseq, e1, e2, hnot]
    · simp only [tick, show (answering answers u).seq = .quantizing from hseq]
      rw [stepQuantize, if_neg (show ¬ (answering answers u).x.toNat < (answering answers u).w.toNat from hnot)]
      rfl
  have h2 := h1.trans (b2 := encodeScanline w (drawnRow d (imageRow img w.toNat y.toNat)))
    (o2 := acceptedWrites (encodeScanline w (drawnRow d (imageRow img w.toNat y.toNat)))) (k2 := 1 + scanlineActions w.toNat)
    (post := afterRow w h img (drawnAfter d (imageRow img w.toNat y.toNat)) y)
    (by
      have : ∀ l : List Nat, writes (l.map fun x => PortOp.memRead (BitVec.ofNat 32 (y.toNat * w.toNat + x))) = 0 := by
        intro l; induction l with
        | nil => rfl
        | cons a l ih => simpa [writes] using ih
      rw [this]; rfl)
    (fun u hu => by
      have := (hturn u hu).trans (by simp [writes]) fun v hv => segment_scanline hv.1 hw hv.2.1 hv.2.2
      simpa using this)
  rw [Nat.add_assoc]
  simpa [rowReads] using h2

/-- The rows from `n - 1` down to 0: for some quantization of each of them, their bytes go out in this order (R205 to R210). -/
theorem segment_rows {w h : Half} {img : Memory Pixel} (hw : w ≠ 0#16) (hc : imageComplete img w h) (n : Nat) : n ≤ h.toNat →
    ∀ d, ∃ rows : Nat → List Quad,
      (∀ y, y < n → (rows y).length = w.toNat ∧ ∀ x pixel, x < w.toNat → Memory.get? img (y * w.toNat + x) = some pixel →
        validPixel pixel = true → (rows y)[x]? = some (quantizeValid pixel))
      ∧ ∀ (y : Half) (s : State), y.toNat + 1 = n → Quantizing w h img d y [] s →
        Segment (n * (w.toNat + 1 + scanlineActions w.toNat)) s
          ((rowOrder n).flatMap fun y => encodeScanline w (rows y))
          ((rowOrder n).flatMap fun y => rowReads w y ++ acceptedWrites (encodeScanline w (rows y)))
          (fun u => ∃ d', InJob w h img d' u ∧ u.st = .rowWritten ∧ u.y = 0#16 ∧ u.seq = .closing) := by
  induction n with
  | zero =>
    intro _ d
    exact ⟨fun _ => [], fun y hy => absurd hy (Nat.not_lt_zero y), fun y s hy => absurd hy (Nat.succ_ne_zero _)⟩
  | succ n ih =>
    intro hn d
    have hlen : (imageRow img w.toNat n).length = w.toNat := by simp [imageRow]
    obtain ⟨rows, hrows, hseg⟩ := ih (by omega) (drawnAfter d (imageRow img w.toNat n))
    refine ⟨fun y => if y = n then drawnRow d (imageRow img w.toNat n) else rows y, ?_, ?_⟩
    · intro y hy
      by_cases he : y = n
      · subst he
        simp only [if_true]
        refine ⟨by rw [length_drawnRow, hlen], fun x pixel hx hp hv => getElem?_drawnRow _ _ _ ?_ hv⟩
        rw [imageRow, List.getElem?_map, List.getElem?_range hx]
        simp [hp]
      · simp only [if_neg he]
        exact hrows y (by omega)
    · intro y s hy hs
      have hyn : y.toNat = n := by omega
      have hrow := segment_row hw hc (y := y) (by omega) hs
      rw [hyn] at hrow
      have hbytes : ∀ f : Nat → List Quad, ((rowOrder n).flatMap fun y => encodeScanline w (if y = n then f n else rows y))
          = (rowOrder n).flatMap fun y => encodeScanline w (rows y) := by
        intro f
        rw [List.flatMap_congr]
        intro y hy
        have : y < n := by simpa [rowOrder] using hy
        rw [if_neg (by omega)]
      have hops : ∀ f : Nat → List Quad, ((rowOrder n).flatMap fun y => rowReads w y
            ++ acceptedWrites (encodeScanline w (if y = n then f n else rows y)))
          = (rowOrder n).flatMap fun y => rowReads w y ++ acceptedWrites (encodeScanline w (rows y)) := by
        intro f
        rw [List.flatMap_congr]
        intro y hy
        have : y < n := by simpa [rowOrder] using hy
        rw [if_neg (by omega)]
      have hsplit : rowOrder (n + 1) = n :: rowOrder n := by simp [rowOrder, List.range_succ]
      rw [hsplit, List.flatMap_cons, List.flatMap_cons]
      beta_reduce
      rw [if_pos rfl, hbytes fun n => drawnRow d (imageRow img w.toNat n), hops fun n => drawnRow d (imageRow img w.toNat n),
        Nat.succ_mul, Nat.add_comm]
      refine hrow.trans (by
        rw [writes_append, writes_acceptedWrites]
        have : writes (rowReads w n) = 0 := by
          unfold rowReads
          induction List.range w.toNat with
          | nil => rfl
          | cons a l ih => simpa [writes] using ih
        omega) fun u hu => ?_
      obtain ⟨hj, hst, ⟨hy0, huy, hus⟩ | ⟨hy0, hus, hux, huy⟩⟩ := hu
      · -- row 0 was the last
        have h0 : n = 0 := by rw [← hyn, hy0]; rfl
        subst h0
        simp only [Nat.zero_mul, rowOrder, List.range_zero, List.reverse_nil, List.flatMap_nil]
        exact segment_none ⟨_, hj.of_keeps (keeps_answering _ _) rfl, hst, huy, hus⟩
      · have hpos : y.toNat ≠ 0 := fun h => hy0 (BitVec.eq_of_toNat_eq (by simpa using h))
        have h1 : (y - 1#16).toNat = y.toNat - 1 := by
          have e1 : (1#16).toNat = 1 := rfl
          rw [BitVec.toNat_sub_of_le (by rw [BitVec.le_def, e1]; omega), e1]
        exact hseg (y - 1#16) u (by omega) ⟨hj, hus, huy, by rw [hux]; rfl, fun j hj => absurd hj (by simp)⟩

end Sys2Proof.Machine
end

