-- ==== Sys2Proof/Laws/Job.lean ====
section
/-! SUPPORT. A whole WRITE as a stretch: OPEN, the header and the rows, CLOSE and the response (R190). -/

namespace Sys2Proof.Machine

theorem length_headerBytes (w h : Half) :
    (headerBytes w h).length = 101 + 8 + (dec h.toNat).length + (dec w.toNat).length := by
  have : Config.hdrRom.length = 101 := by decide
  simp [headerBytes, reslineBytes, this]
  omega

/-- From the header's first byte to CLOSE, for some quantization of the image: its file goes out (R194 to R210). -/
theorem segment_write {w h : Half} {img : Memory Pixel} (hw : w ≠ 0#16) (hh : h ≠ 0#16) (hc : imageComplete img w h)
    (d : Nat) : ∃ rows, quantizesImage img w h rows ∧
      ∀ s, InJob w h img d s → s.seq = .header1 → s.hp = 0#7 →
        Segment (5 + h.toNat * (w.toNat + 1 + scanlineActions w.toNat)) s (fileOf rows w h) (emissionOps rows w h)
          (fun u => ∃ d', InJob w h img d' u ∧ u.st = .rowWritten ∧ u.y = 0#16 ∧ u.seq = .closing) := by
  obtain ⟨rows, hq, hs⟩ := segment_rows hw hc h.toNat (Nat.le_refl _) d
  have hpos : h.toNat ≠ 0 := fun e => hh (BitVec.eq_of_toNat_eq (by simpa using e))
  have h1 : (h - 1#16).toNat + 1 = h.toNat := by
    have e1 : (1#16).toNat = 1 := rfl
    rw [BitVec.toNat_sub_of_le (by rw [BitVec.le_def, e1]; omega), e1]; omega
  refine ⟨rows, hq, fun s hj hseq hhp => ?_⟩
  exact (segment_headers hj hseq hhp).trans (by simp) fun u ⟨hu, hus, hx, hy⟩ =>
    hs (h - 1#16) u h1 ⟨hu, hus, hy, by rw [hx]; rfl, fun j hj => absurd hj (by simp)⟩

/-! ### Step OPEN -/

/-- The state in which the header starts, when the sink has answered `ok` and gives `answers` next (R192). -/
def opened (w h : Half) (pathtok : Word) (answers : List SinkAnswer) (s : State) : State :=
  startHeader (openSink answers (goTo .opening (acceptWrite w h pathtok s)))

theorem runs_open {w h : Half} {pathtok : Word} {answers : List SinkAnswer} {s : State}
    (ha : s.sinkAnswers = .ok :: answers) :
    Runs 1 (goTo .opening (acceptWrite w h pathtok s)) (opened w h pathtok answers s) := by
  refine Runs.one (by simp) (by simp [blocked, ha]) ?_
  simp only [tick, goTo_seq, stepOpen]
  rw [show (goTo .opening (acceptWrite w h pathtok s)).sinkAnswers = .ok :: answers by simpa using ha]
  rfl

theorem opened_job {w h : Half} {pathtok : Word} {answers : List SinkAnswer} {s : State} (hi : s.imgAnswers = true) :
    InJob w h s.img s.draws (opened w h pathtok answers s) :=
  ⟨rfl, rfl, rfl, rfl, rfl, hi, rfl⟩

/-- The answers to come are those after the one to `SinkOpen`. -/
theorem opened_answering (w h : Half) (pathtok : Word) (answers : List SinkAnswer) (s : State) :
    answering answers (opened w h pathtok answers s) = opened w h pathtok answers s := rfl

/-- The opened stream is empty, whatever it held before (R65). -/
theorem stream_opened (w h : Half) (pathtok : Word) (answers : List SinkAnswer) (s : State) :
    State.stream (opened w h pathtok answers s) pathtok = [] := by
  show (Memory.get? (Memory.set s.streams pathtok.toNat []) pathtok.toNat).getD [] = []
  rw [get?_set_same]; rfl

theorem stream_opened_other (w h : Half) {pathtok : Word} (answers : List SinkAnswer) (s : State) {other : Word}
    (ho : other ≠ pathtok) : State.stream (opened w h pathtok answers s) other = State.stream s other := by
  show (Memory.get? (Memory.set s.streams pathtok.toNat []) other.toNat).getD [] = _
  rw [get?_set_other _ (toNat_ne ho)]; rfl

/-! ### Step CLOSE and the response -/

theorem runs_close {w h : Half} {img : Memory Pixel} {d : Nat} {u : State} (hj : InJob w h img d u) (hs : u.seq = .closing)
    (hp : u.payload = []) : Runs 2 u (respond .ok [] (goTo .responding (closeSink u))) := by
  refine (Runs.one (t := goTo .responding (closeSink u)) (by simp [hs]) (by simp [blocked, hs]) ?_).trans
    (Runs.one (by simp) (by simp [blocked]) ?_)
  · simp only [tick, hs, stepClose]
    rw [if_pos hj.handle]
  · simp only [tick, goTo_seq]
    show Host.Outcome.next (respond .ok _ _) = _
    rw [show (goTo .responding (closeSink u)).payload = u.payload from rfl, hp]

end Sys2Proof.Machine
end

