-- ==== Sys2Proof/Laws/PerInstr.lean ====
section
/-! SUPPORT. The per-instruction family: how many bytes each row of the opcode table has. -/

namespace Sys2Proof.Laws.EncodedLength

/-- The length the opcode table gives a row, in bytes (R94 to R97, R101 to R112). -/
def tableLength : Instr → Nat
  | .quant _ _ _ => 25
  | .encsl w _ => 3 + 4 * w.toNat
  | .write _ _ _ => 9
  | .reservedCommand descriptor => descriptor.length
  | .hdrline1 => 11
  | .hdrline2 => 31
  | .hdrline3 => 23
  | .hdrline4 => 36
  | .resline h w => 8 + (dec h.toNat).length + (dec w.toNat).length
  | .mark _ => 4
  | .lit data => 1 + data.length
  | .run _ _ => 2
  | .rsp _ payload => 1 + payload.length

/-- A well-formed instruction's encoding has the length its table row gives. -/
def Statement (i : Instr) : Prop :=
  i.wellFormed = true → (encode i).length = tableLength i

theorem quant (red green blue : F64) : Statement (.quant red green blue) := fun _ => rfl

theorem encsl (w : Half) (row : List Quad) : Statement (.encsl w row) := by
  intro hwf
  have hlen : row.length = w.toNat := by simpa [Instr.wellFormed] using hwf
  simp only [encode, tableLength, List.length_cons, List.length_append, length_halfBytes, length_flatMap_quadBytes, hlen]
  omega

theorem write (w h : Half) (pathtok : Word) : Statement (.write w h pathtok) := fun _ => rfl

theorem reservedCommand (descriptor : List Byte) : Statement (.reservedCommand descriptor) := fun _ => rfl

theorem hdrline1 : Statement .hdrline1 := fun _ => rfl

theorem hdrline2 : Statement .hdrline2 := fun _ => rfl

theorem hdrline3 : Statement .hdrline3 := fun _ => rfl

theorem hdrline4 : Statement .hdrline4 := fun _ => rfl

theorem resline (h w : Half) : Statement (.resline h w) := by
  intro _
  simp only [encode, tableLength, length_reslineBytes, length_dec]

theorem mark (w : Half) : Statement (.mark w) := fun _ => rfl

theorem lit (data : List Byte) : Statement (.lit data) := by
  intro _
  simp only [encode, tableLength, length_chunkBytes]
  omega

theorem run (n : BitVec 7) (v : Byte) : Statement (.run n v) := fun _ => rfl

theorem rsp (status : Status) (payload : List Byte) : Statement (.rsp status payload) := by
  intro _
  simp only [encode, tableLength, List.length_cons]
  omega

end Sys2Proof.Laws.EncodedLength
end

