-- ==== Sys2Proof/Laws/Quantizer.lean ====
section
/-! SUPPORT. The quantizer's exact arithmetic: values as rationals, the frexp exponent, the mantissa bytes before narrowing. -/

namespace Sys2Proof.Machine

/-- The largest component of a pixel, in units of 2^-1074 (R132). -/
def maxMagnitude (pixel : Pixel) : Nat :=
  max (magnitude pixel.red) (max (magnitude pixel.green) (magnitude pixel.blue))

theorem unit_pos : (0 : ℚ) < 2 ^ 1074 := by positivity

/-- The magnitude as a product (R144). -/
theorem magnitude_eq (f : F64) : magnitude f = significand f * 2 ^ (scaleExp f - 1) := Nat.shiftLeft_eq _ _

theorem val_le_iff (f g : F64) : val f ≤ val g ↔ magnitude f ≤ magnitude g := by
  rw [val, val, div_le_div_iff_of_pos_right unit_pos, Nat.cast_le]

theorem val_lt_iff (f g : F64) : val f < val g ↔ magnitude f < magnitude g := by
  rw [← not_le, val_le_iff, not_le]

theorem pixelMax_eq (pixel : Pixel) : pixelMax pixel = (maxMagnitude pixel : ℚ) / 2 ^ 1074 := by
  simp only [pixelMax, val, maxMagnitude, Nat.cast_max, max_div_div_right unit_pos.le]

/-- Above the floor, in integers (R131). -/
theorem aboveFloor_iff (pixel : Pixel) : aboveFloor pixel ↔ magnitude Config.floorBits < maxMagnitude pixel := by
  rw [aboveFloor, pixelMax_eq, val, div_lt_div_iff_of_pos_right unit_pos, Nat.cast_lt]

theorem quantizeValid_black {pixel : Pixel} (h : ¬ aboveFloor pixel) :
    quantizeValid pixel = ⟨0x00#8, 0x00#8, 0x00#8, 0x00#8⟩ := by
  rw [aboveFloor_iff, Nat.not_lt] at h
  exact if_pos h

theorem quantizeValid_above {pixel : Pixel} (h : aboveFloor pixel) :
    quantizeValid pixel = ⟨mantissaByte (maxMagnitude pixel) (magnitude pixel.red),
      mantissaByte (maxMagnitude pixel) (magnitude pixel.green), mantissaByte (maxMagnitude pixel) (magnitude pixel.blue),
      exponentByte (maxMagnitude pixel)⟩ := by
  rw [aboveFloor_iff] at h
  exact if_neg (Nat.not_le.mpr h)

/-- `d` lies in [2^(e-1), 2^e), in units (R133). -/
theorem frexpExp_bounds {d : Nat} (h : d ≠ 0) : 2 ^ (frexpExp d - 1) ≤ d ∧ d < 2 ^ frexpExp d :=
  ⟨Nat.log2_self_le h, Nat.lt_log2_self⟩

/-- The frexp exponent of a positive value (R133). -/
theorem isFrexpExp_frexpExp {d : Nat} (h : d ≠ 0) : isFrexpExp ((d : ℚ) / 2 ^ 1074) ((frexpExp d : ℤ) - 1074) := by
  obtain ⟨h1, h2⟩ := frexpExp_bounds h
  have he : frexpExp d = (frexpExp d - 1) + 1 := rfl
  have hz : (2 : ℚ) ^ ((frexpExp d : ℤ) - 1074) = 2 ^ frexpExp d / 2 ^ 1074 := by
    rw [zpow_sub₀ (by norm_num)]; norm_cast
  constructor
  · rw [hz, ← mul_div_assoc, div_le_div_iff_of_pos_right unit_pos]
    have : (2 : ℚ) ^ frexpExp d = 2 * 2 ^ (frexpExp d - 1) := by
      conv_lhs => rw [he]
      rw [pow_succ, mul_comm]
    rw [this, ← mul_assoc, show (1 / 2 : ℚ) * 2 = 1 by norm_num, one_mul]
    exact_mod_cast h1
  · rw [hz, div_lt_div_iff_of_pos_right unit_pos]
    exact_mod_cast h2

theorem isFrexpExp_le {d : ℚ} {a b : ℤ} (ha : isFrexpExp d a) (hb : isFrexpExp d b) : a ≤ b := by
  by_contra h
  have h1 : (2 : ℚ) ^ b ≤ 2 ^ (a - 1) := zpow_le_zpow_right₀ (by norm_num) (by omega)
  have h2 : (2 : ℚ) ^ (a - 1) = 1 / 2 * 2 ^ a := by
    rw [zpow_sub₀ (by norm_num), zpow_one]; ring
  exact absurd (lt_of_lt_of_le hb.2 (h1.trans (h2 ▸ ha.1))) (lt_irrefl _)

/-- The frexp exponent is unique (R133). -/
theorem isFrexpExp_unique {d : ℚ} {a b : ℤ} (ha : isFrexpExp d a) (hb : isFrexpExp d b) : a = b :=
  le_antisymm (isFrexpExp_le ha hb) (isFrexpExp_le hb ha)

/-- A mantissa byte needs no clamp: its component is at most `d` (R136). -/
theorem mantissaByte_toNat {d c : Nat} (h : c ≤ d) :
    (mantissaByte d c).toNat = c * 256 / 2 ^ frexpExp d := by
  have hlt : c * 256 / 2 ^ frexpExp d < 256 := by
    rw [Nat.div_lt_iff_lt_mul (by positivity)]
    have : d < 2 ^ frexpExp d := Nat.lt_log2_self
    omega
  rw [mantissaByte, BitVec.toNat_ofNat, Nat.shiftRight_eq_div_pow]
  exact Nat.mod_eq_of_lt hlt

/-- `c · 2^(8-e)` in units: the quotient the mantissa byte is the floor of (R134, R135). -/
theorem scaled_eq (d c : Nat) :
    (c : ℚ) / 2 ^ 1074 * 2 ^ (8 - ((frexpExp d : ℤ) - 1074)) = ((c * 256 : Nat) : ℚ) / ((2 ^ frexpExp d : Nat) : ℚ) := by
  rw [show (8 : ℤ) - ((frexpExp d : ℤ) - 1074) = 8 + 1074 - (frexpExp d : ℤ) by ring,
    zpow_sub₀ (by norm_num), zpow_add₀ (by norm_num), zpow_natCast]
  have h1 : (2 : ℚ) ^ (8 : ℤ) = 256 := by norm_num
  have h2 : (2 : ℚ) ^ (1074 : ℤ) = 2 ^ (1074 : ℕ) := zpow_ofNat 2 1074
  rw [h1, h2, Nat.cast_mul, Nat.cast_pow]
  have := unit_pos.ne'
  field_simp
  push_cast
  ring

/-- A mantissa byte is the floor R135 says. -/
theorem mantissaByte_floor {d c : Nat} (h : c ≤ d) :
    ((mantissaByte d c).toNat : ℤ) = ⌊(c : ℚ) / 2 ^ 1074 * 2 ^ (8 - ((frexpExp d : ℤ) - 1074))⌋ := by
  rw [mantissaByte_toNat h, scaled_eq, Rat.floor_natCast_div_natCast]
  norm_cast

/-! ### Decoding a quadruple (R114) -/

/-- With `E` = 0 a component reads as 0, whatever its mantissa byte. -/
@[simp] theorem decoded_zero (mantissa : Byte) : decoded mantissa 0x00#8 = 0 := if_pos rfl

theorem decoded_of_ne {mantissa exponent : Byte} (h : exponent ≠ 0x00#8) :
    decoded mantissa exponent = (mantissa.toNat : ℚ) / 256 * 2 ^ ((exponent.toNat : ℤ) - 128) := if_neg h

/-- A mantissa byte of 0 reads as 0. -/
@[simp] theorem decoded_mantissa_zero (exponent : Byte) : decoded 0x00#8 exponent = 0 := by
  unfold decoded
  split <;> simp

/-- With `E` = 0 the pixel is exactly (0, 0, 0). -/
theorem decodedPixel_of_zero {quad : Quad} (h : quad.e = 0x00#8) : decodedPixel quad = (0, 0, 0) := by
  simp [decodedPixel, h]

end Sys2Proof.Machine
end

