-- ==== Sys2Proof/Tests/Slice0.lean ====
section
/-! SUPPORT. Tests. Expected values come from spec/95_test_vectors.md (the vector is named), from the rule named, or from hand
calculation out of it. The second half witnesses the hypotheses of the statements. -/

namespace Sys2Proof.Tests

open Sys2Proof.Machine

/-! ### Small states and what a test looks at -/

/-- What `look` sees of the next state; nothing where the machine stops. -/
def after {α : Type} (look : State → α) : Host.Outcome State Fault Refusal → Option α
  | .next s => some (look s)
  | .fault _ => none
  | .refused _ => none

/-- The responses given, and what of `STATUS` a host samples after them (R39). -/
def seen (s : State) : List (List Byte) × Byte := (s.rsp, s.statusWord)

/-- The stream of selector 1, the responses, and `STATUS`. -/
def written (s : State) : List Byte × List (List Byte) × Byte := (s.stream 1#32, s.rsp, s.statusWord)

/-- A reset block to which one descriptor has been sent. -/
def sent (descriptor : List Byte) : State := { State.reset with cmd := [descriptor] }

/-- A WRITE 1x1 to selector 1 in the middle of its command, with the sink open. -/
def atSink (seq : Position) (answers : List SinkAnswer) : State :=
  { State.reset with
    op := 0x03#8, w := 1#16, h := 1#16, pathtok := 1#32, st := .opened, handle := true, seq := seq, sinkAnswers := answers }

/-- A sink that accepts the next `n` operations. -/
def accepts (n : Nat) : List SinkAnswer := List.replicate n .ok

/-- `IMG[0]` = (1.0, 0.5, 0.0), the image of vector W1. -/
def imageW1 : Memory Pixel := [(0, ⟨0x3FF0000000000000#64, 0x3FE0000000000000#64, 0#64⟩)]

/-- The image of vector W2. -/
def imageW2 : Memory Pixel :=
  [(0, ⟨0x3FF0000000000000#64, 0x3FE0000000000000#64, 0#64⟩), (1, ⟨0#64, 0#64, 0#64⟩),
   (2, ⟨0x4008000000000000#64, 0x4000000000000000#64, 0x3FF0000000000000#64⟩),
   (3, ⟨0x3FB999999999999A#64, 0x3FC999999999999A#64, 0x3FD3333333333333#64⟩)]

/-! ### WellFormed: one ill-formed term for each check -/

theorem test_wf_encsl_row_shorter_than_width : (Instr.encsl 2#16 [⟨1#8, 2#8, 3#8, 4#8⟩]).wellFormed = false := by decide
theorem test_wf_encsl_row_longer_than_width : (Instr.encsl 0#16 [⟨1#8, 2#8, 3#8, 4#8⟩]).wellFormed = false := by decide
theorem test_wf_reserved_that_is_quant :
    (Instr.reservedCommand (0x01#8 :: List.replicate 24 0#8)).wellFormed = false := by decide
theorem test_wf_reserved_that_is_encsl : (Instr.reservedCommand [0x02#8, 0#8, 0#8]).wellFormed = false := by decide
theorem test_wf_reserved_that_is_write :
    (Instr.reservedCommand (0x03#8 :: List.replicate 8 0#8)).wellFormed = false := by decide
theorem test_wf_lit_empty : (Instr.lit []).wellFormed = false := by decide
theorem test_wf_lit_of_128 : (Instr.lit (List.replicate 128 0#8)).wellFormed = false := by simp [Instr.wellFormed]
theorem test_wf_rsp_error_with_payload : (Instr.rsp .writeFailure [0#8]).wellFormed = false := by decide
theorem test_wf_accepts_the_rest :
    (Instr.lit (List.replicate 127 0#8)).wellFormed = true ∧ (Instr.rsp .ok [0#8]).wellFormed = true
      ∧ (Instr.encsl 1#16 [⟨1#8, 2#8, 3#8, 4#8⟩]).wellFormed = true ∧ (Instr.reservedCommand []).wellFormed = true :=
  ⟨by simp [Instr.wellFormed], by decide, by decide, by decide⟩

/-! ### Decoding: words written out from the spec's encodings -/

/-- Format Q (R94), vector Q1's descriptor. -/
theorem test_decode_quant :
    decode [0x01#8, 0x3F#8, 0xF0#8, 0#8, 0#8, 0#8, 0#8, 0#8, 0#8, 0x3F#8, 0xE0#8, 0#8, 0#8, 0#8, 0#8, 0#8, 0#8, 0#8, 0#8, 0#8,
        0#8, 0#8, 0#8, 0#8, 0#8]
      = .quant 0x3FF0000000000000#64 0x3FE0000000000000#64 0#64 := by decide

/-- Format E (R95), vectors X14 and X7. -/
theorem test_decode_encsl :
    decode [0x02#8, 0x00#8, 0x01#8, 0x80#8, 0x40#8, 0x00#8, 0x81#8] = .encsl 1#16 [⟨0x80#8, 0x40#8, 0x00#8, 0x81#8⟩]
      ∧ decode [0x02#8, 0x00#8, 0x00#8] = .encsl 0#16 [] := by decide

/-- Format W (R96), vector X15. -/
theorem test_decode_write :
    decode [0x03#8, 0x01#8, 0x2C#8, 0x00#8, 0x0A#8, 0x00#8, 0x00#8, 0x00#8, 0x2A#8] = .write 300#16 10#16 42#32 := by decide

/-- Vectors X1 to X6, X8, X11 and X12: reserved by opcode or by length (R99). -/
theorem test_decode_reserved :
    decode [] = .reservedCommand [] ∧ decode [0x00#8] = .reservedCommand [0x00#8] ∧ decode [0x04#8] = .reservedCommand [0x04#8]
      ∧ decode [0xFF#8] = .reservedCommand [0xFF#8]
      ∧ decode (0x01#8 :: List.replicate 23 0#8) = .reservedCommand (0x01#8 :: List.replicate 23 0#8)
      ∧ decode (0x01#8 :: List.replicate 25 0#8) = .reservedCommand (0x01#8 :: List.replicate 25 0#8)
      ∧ decode [0x02#8, 0x00#8, 0x01#8, 0x80#8, 0x40#8, 0x00#8]
        = .reservedCommand [0x02#8, 0x00#8, 0x01#8, 0x80#8, 0x40#8, 0x00#8]
      ∧ decode [0x02#8, 0x00#8] = .reservedCommand [0x02#8, 0x00#8]
      ∧ decode (0x03#8 :: List.replicate 7 0#8) = .reservedCommand (0x03#8 :: List.replicate 7 0#8)
      ∧ decode [0x02#8, 0x00#8, 0x01#8, 0x80#8, 0x40#8, 0x00#8, 0x81#8, 0x00#8]
        = .reservedCommand [0x02#8, 0x00#8, 0x01#8, 0x80#8, 0x40#8, 0x00#8, 0x81#8, 0x00#8] := by decide

/-- R101: `#?RADIANCE` and `LF`. -/
theorem test_decode_hdrline1 :
    decodeRecord [0x23#8, 0x3F#8, 0x52#8, 0x41#8, 0x44#8, 0x49#8, 0x41#8, 0x4E#8, 0x43#8, 0x45#8, 0x0A#8] = .ok .hdrline1 := by
  decide

/-- R102: `# Made with 100% pure HDR Shop` and `LF`. -/
theorem test_decode_hdrline2 :
    decodeRecord [0x23#8, 0x20#8, 0x4D#8, 0x61#8, 0x64#8, 0x65#8, 0x20#8, 0x77#8, 0x69#8, 0x74#8, 0x68#8, 0x20#8, 0x31#8, 0x30#8,
      0x30#8, 0x25#8, 0x20#8, 0x70#8, 0x75#8, 0x72#8, 0x65#8, 0x20#8, 0x48#8, 0x44#8, 0x52#8, 0x20#8, 0x53#8, 0x68#8, 0x6F#8,
      0x70#8, 0x0A#8] = .ok .hdrline2 := by decide

/-- R103: `FORMAT=32-bit_rle_rgbe` and `LF`. -/
theorem test_decode_hdrline3 :
    decodeRecord [0x46#8, 0x4F#8, 0x52#8, 0x4D#8, 0x41#8, 0x54#8, 0x3D#8, 0x33#8, 0x32#8, 0x2D#8, 0x62#8, 0x69#8, 0x74#8, 0x5F#8,
      0x72#8, 0x6C#8, 0x65#8, 0x5F#8, 0x72#8, 0x67#8, 0x62#8, 0x65#8, 0x0A#8] = .ok .hdrline3 := by decide

/-- R103, R105: `EXPOSURE=          1.0000000000000` and two `LF`. -/
theorem test_decode_hdrline4 :
    decodeRecord [0x45#8, 0x58#8, 0x50#8, 0x4F#8, 0x53#8, 0x55#8, 0x52#8, 0x45#8, 0x3D#8, 0x20#8, 0x20#8, 0x20#8, 0x20#8, 0x20#8,
      0x20#8, 0x20#8, 0x20#8, 0x20#8, 0x20#8, 0x31#8, 0x2E#8, 0x30#8, 0x30#8, 0x30#8, 0x30#8, 0x30#8, 0x30#8, 0x30#8, 0x30#8,
      0x30#8, 0x30#8, 0x30#8, 0x30#8, 0x30#8, 0x0A#8, 0x0A#8] = .ok .hdrline4 := by decide

/-- Vectors H5 and H7: height first. -/
theorem test_decode_resline :
    decodeRecord [0x2D#8, 0x59#8, 0x20#8, 0x31#8, 0x20#8, 0x2B#8, 0x58#8, 0x20#8, 0x31#8, 0x0A#8] = .ok (.resline 1#16 1#16)
      ∧ decodeRecord [0x2D#8, 0x59#8, 0x20#8, 0x34#8, 0x38#8, 0x30#8, 0x20#8, 0x2B#8, 0x58#8, 0x20#8, 0x36#8, 0x34#8, 0x30#8,
        0x0A#8] = .ok (.resline 480#16 640#16) := by decide

/-- Table E-LEN: the markers of widths 300 and 32768. -/
theorem test_decode_mark :
    decodeRecord [0x02#8, 0x02#8, 0x01#8, 0x2C#8] = .ok (.mark 300#16)
      ∧ decodeRecord [0x02#8, 0x02#8, 0x80#8, 0x00#8] = .ok (.mark 32768#16) := by decide

/-- R110; the chunks of vector E2's plane R and of a one-pixel plane. -/
theorem test_decode_lit :
    decodeRecord [0x03#8, 0x80#8, 0xC0#8, 0x33#8] = .ok (.lit [0x80#8, 0xC0#8, 0x33#8])
      ∧ decodeRecord [0x01#8, 0x80#8] = .ok (.lit [0x80#8]) := by decide

/-- R112: `1nnnnnnn vvvvvvvv`. -/
theorem test_decode_run : decodeRecord [0x85#8, 0x2A#8] = .ok (.run 5#7 0x2A#8) := by decide

/-- R97: the five status bytes. -/
theorem test_decode_rsp :
    decodeRecord [0x00#8, 0x80#8, 0x40#8, 0x00#8, 0x81#8] = .ok (.rsp .ok [0x80#8, 0x40#8, 0x00#8, 0x81#8])
      ∧ decodeRecord [0x01#8] = .ok (.rsp .pathUnwritable []) ∧ decodeRecord [0x02#8] = .ok (.rsp .writeFailure [])
      ∧ decodeRecord [0x03#8] = .ok (.rsp .degenerateInput []) ∧ decodeRecord [0x04#8] = .ok (.rsp .illegalCommand []) := by
  decide

/-- The rows of spec/opcode_table.json read by their words: opcode bytes, the marker word, the high bit of RUN. -/
theorem test_table_words :
    decodeTableWord 8 0x01 = some (.quant 0#64 0#64 0#64) ∧ decodeTableWord 8 0x02 = some (.encsl 0#16 [])
      ∧ decodeTableWord 8 0x03 = some (.write 0#16 0#16 0#32) ∧ decodeTableWord 32 0x02020000 = some (.mark 0#16)
      ∧ decodeTableWord 8 0x80 = some (.run 0#7 0#8) ∧ decodeTableWord 8 0x00 = some (.reservedCommand [0x00#8]) := by decide

/-- A table word placed where the step fetches is executed by the next step: an all-zero QUANT gives black (vector Q2). -/
theorem test_with_fetch_word :
    after seen (step (State.withFetchWord State.reset 8 0x01)) = some ([[0x00#8, 0#8, 0#8, 0#8, 0#8]], 0x00#8) := by decide

/-! ### The commands -/

/-- Vector Q8, descriptor and response: truncation. -/
theorem test_quant_truncates :
    after seen (exec (.quant 0x3FDFFE5C91D14E3C#64 0x3FE0000000000000#64 0x3FD0000000000000#64) State.reset)
      = some ([[0x00#8, 0x7F#8, 0x80#8, 0x40#8, 0x80#8]], 0x00#8) := by decide +kernel

/-- Vectors Q4 (one datum above the floor), Q19 (the exponent byte wraps), Q21 (the largest finite value), Q32 (`-0`). -/
theorem test_quantize_vectors :
    quantizeValid ⟨0x3949F623D5A8A734#64, 0#64, 0#64⟩ = ⟨0xCF#8, 0x00#8, 0x00#8, 0x16#8⟩
      ∧ quantizeValid ⟨0x47E0000000000000#64, 0x47D0000000000000#64, 0#64⟩ = ⟨0x80#8, 0x40#8, 0x00#8, 0x00#8⟩
      ∧ quantizeValid ⟨0x7FEFFFFFFFFFFFFF#64, 0#64, 0#64⟩ = ⟨0xFF#8, 0x00#8, 0x00#8, 0x80#8⟩
      ∧ validPixel ⟨0x8000000000000000#64, 0#64, 0x3FF0000000000000#64⟩ = true
      ∧ quantizeValid ⟨0x8000000000000000#64, 0#64, 0x3FF0000000000000#64⟩ = ⟨0x00#8, 0x00#8, 0x80#8, 0x81#8⟩ := by decide +kernel

/-- S1: the quadruple of vector Q1 decodes to (1.0, 0.5, 0) exactly. -/
theorem test_decoded_Q1 : decodedPixel ⟨0x80#8, 0x40#8, 0x00#8, 0x81#8⟩ = (1, 1 / 2, 0) := by
  simp only [decodedPixel, decoded_of_ne (exponent := 0x81#8) (by decide)]
  norm_num

/-- R139, R114: the wrapped quadruple of vector Q19 reads as black. -/
theorem test_decoded_Q19 : decodedPixel ⟨0x80#8, 0x40#8, 0x00#8, 0x00#8⟩ = (0, 0, 0) :=
  decodedPixel_of_zero rfl

/-- Vector E2, from its descriptor: planar order. -/
theorem test_encsl_planes :
    after seen (step (sent [0x02#8, 0x00#8, 0x03#8, 0x80#8, 0x40#8, 0x00#8, 0x81#8, 0xC0#8, 0x80#8, 0x40#8, 0x82#8, 0x33#8,
        0x66#8, 0x99#8, 0x7F#8]))
      = some ([[0x00#8, 0x02#8, 0x02#8, 0x00#8, 0x03#8, 0x03#8, 0x80#8, 0xC0#8, 0x33#8, 0x03#8, 0x40#8, 0x80#8, 0x66#8, 0x03#8,
          0x00#8, 0x40#8, 0x99#8, 0x03#8, 0x81#8, 0x82#8, 0x7F#8]], 0x00#8) := by decide

/-- Vector X7: width 0. -/
theorem test_encsl_width_zero :
    after seen (step (sent [0x02#8, 0x00#8, 0x00#8])) = some ([[0x03#8]], 0x18#8) := by decide

/-- Vector W1: its 123 bytes after a response `00`, `STATUS` = 04. -/
theorem test_write_one_pixel :
    after written (exec (.write 1#16 1#16 1#32) { State.reset with img := imageW1, sinkAnswers := accepts 124 })
      = some (Config.hdrRom ++ [0x2D#8, 0x59#8, 0x20#8, 0x31#8, 0x20#8, 0x2B#8, 0x58#8, 0x20#8, 0x31#8, 0x0A#8]
          ++ [0x02#8, 0x02#8, 0x00#8, 0x01#8, 0x01#8, 0x80#8, 0x01#8, 0x40#8, 0x01#8, 0x00#8, 0x01#8, 0x81#8],
        [[0x00#8]], 0x04#8) := by decide +kernel

/-- Vector W11: with write number 126 refused, only row 1 has been read. -/
theorem test_write_failure_in_row_1 :
    after (fun s => (s.trace.filter (fun op => match op with
        | .memRead _ => true | .memWrite _ _ => false | .sinkOpen _ _ => false | .sinkClose => true | .respond _ => true),
        s.statusWord))
      (exec (.write 2#16 2#16 1#32) { State.reset with img := imageW2, sinkAnswers := accepts 127 ++ [.fail false] })
      = some ([.memRead 2#32, .memRead 3#32, .sinkClose, .respond [0x02#8]], 0x14#8) := by decide +kernel

/-- P4 step 1 and vector X1: `OP` takes the first byte, and keeps its value where there is none. -/
theorem test_reserved_command :
    after (fun s => (s.op, seen s)) (exec (.reservedCommand [0x07#8]) State.reset) = some (0x07#8, [[0x04#8]], 0x20#8)
      ∧ after (fun s => (s.op, seen s)) (exec (.reservedCommand []) State.reset) = some (0x00#8, [[0x04#8]], 0x20#8) := by decide

/-! ### The records -/

/-- R101, R194: 11 bytes, then header line 2. -/
theorem test_hdrline1 :
    after (fun s => (s.stream 1#32, s.hp, s.seq)) (exec .hdrline1 (atSink .header1 (accepts 11)))
      = some ([0x23#8, 0x3F#8, 0x52#8, 0x41#8, 0x44#8, 0x49#8, 0x41#8, 0x4E#8, 0x43#8, 0x45#8, 0x0A#8], 11#7, .header2) := by
  decide

/-- Vector W6 and P3a: the first byte refused (here it landed all the same), the close, the response. -/
theorem test_hdrline1_refused :
    after (fun s => (written s, s.trace)) (times tick 3 (atSink .header1 [.fail true]))
      = some (([0x23#8], [[0x02#8]], 0x14#8), [.memWrite 0x23#8 false, .sinkClose, .respond [0x02#8]]) := by decide

/-- R36, R102: line 2 from `HP` = 40, its last two bytes `p` and `LF`. -/
theorem test_hdrline2_resumed :
    after (fun s => (s.stream 1#32, s.hp, s.seq)) (exec .hdrline2 { atSink .header2 (accepts 2) with hp := 40#7 })
      = some ([0x70#8, 0x0A#8], 42#7, .header3) := by decide

/-- R103: line 3 with one answer only: the block waits in it. -/
theorem test_hdrline3_waits :
    after (fun s => (s.stream 1#32, s.hp, s.seq)) (exec .hdrline3 { atSink .header3 (accepts 1) with hp := 42#7 })
      = some ([0x46#8], 43#7, .header3) := by decide

/-- Vector H1: the block ends in `30 30 30 0A 0A`. -/
theorem test_hdrline4_end :
    after (fun s => (s.stream 1#32, s.hp, s.seq)) (exec .hdrline4 { atSink .header4 (accepts 5) with hp := 96#7 })
      = some ([0x30#8, 0x30#8, 0x30#8, 0x0A#8, 0x0A#8], 101#7, .resolution) := by decide

/-- Vector H6, R196, R205: 13 bytes, `HEADER_WRITTEN`, `Y` = `H` - 1. -/
theorem test_resline :
    after (fun s => (s.stream 1#32, s.hp, s.st, s.y, s.seq))
      (exec (.resline 10#16 300#16) { atSink .resolution (accepts 13) with hp := 101#7, h := 10#16, w := 300#16 })
      = some ([0x2D#8, 0x59#8, 0x20#8, 0x31#8, 0x30#8, 0x20#8, 0x2B#8, 0x58#8, 0x20#8, 0x33#8, 0x30#8, 0x30#8, 0x0A#8], 114#7,
        .headerWritten, 9#16, .quantizing) := by decide

/-- Table E-LEN: the marker of width 300, to the response payload. -/
theorem test_mark :
    after (fun s => (s.payload, s.p, s.x, s.rem))
      (exec (.mark 300#16) { State.reset with op := 0x02#8, w := 300#16, seq := .marking })
      = some ([0x02#8, 0x02#8, 0x01#8, 0x2C#8], 0#2, 0#16, 300#16) := by decide

/-- P5: the first chunk of a plane of 128 elements is followed by a chunk of 1. -/
theorem test_lit_of_127 :
    after (fun s => (s.payload.length, s.x, s.rem, s.p, s.seq))
      (exec (.lit (List.replicate 127 0x55#8)) { State.reset with op := 0x02#8, w := 128#16, rem := 128#16, seq := .chunking })
      = some (128, 127#16, 1#16, 0#2, .chunking) := by decide +kernel

/-- R210: the last chunk of plane E of row 0 leads to CLOSE. -/
theorem test_lit_ends_row_0 :
    after (fun s => (s.stream 1#32, s.st, s.seq))
      (exec (.lit [0x81#8]) { atSink .chunking (accepts 2) with st := .headerWritten, rem := 1#16, p := 3#2 })
      = some ([0x01#8, 0x81#8], .rowWritten, .closing) := by decide

/-- R112. -/
theorem test_run_stops : exec (.run 5#7 0x2A#8) State.reset = .refused .repeatRunReserved := by rfl

/-- R97: only an `OK` response carries the payload. -/
theorem test_rsp :
    after (·.rsp) (exec (.rsp .ok [0x80#8]) State.reset) = some [[0x00#8, 0x80#8]]
      ∧ after (·.rsp) (exec (.rsp .writeFailure [0x80#8]) State.reset) = some [[0x02#8]] := by decide

/-! ### Steps without a row of the table -/

/-- W5: a refused open. -/
theorem test_open_refused :
    after (fun s => (written s, s.trace)) (exec (.write 1#16 1#16 1#32) { State.reset with
        streams := [(1, [0x55#8])], sinkAnswers := [.fail false] })
      = some (([0x55#8], [[0x01#8]], 0x08#8), [.sinkOpen 1#32 false, .respond [0x01#8]]) := by decide

/-- R281: reset in mid-command sends no response and leaves the stream. -/
theorem test_reset_in_mid_command :
    after (fun s => (written s, s.seq, s.trace)) (step { atSink .header1 [] with resetReq := some 0, streams := [(1, [0x23#8])] })
      = some (([0x23#8], [], 0x00#8), .idle, []) := by decide

/-- R281: a reset between the acceptance of a QUANT and its response. -/
theorem test_reset_before_response :
    after (fun s => (seen s, s.op, s.cmd, s.trace))
      (times step 2 { sent (0x01#8 :: List.replicate 24 0#8) with resetReq := some 1 })
      = some (([], 0x00#8), 0x00#8, [], []) := by decide

/-- R281: a reset after a refused write and before its `SinkClose`: the sink is not closed by the block. -/
theorem test_reset_on_fail_path :
    after (fun s => (written s, s.trace)) (times step 2 { atSink .header1 [.fail false] with resetReq := some 1 })
      = some (([], [], 0x00#8), [.memWrite 0x23#8 false]) := by decide

/-- R281: a reset between two bytes of header line 1, whose answers were all there. -/
theorem test_reset_between_bytes :
    after (fun s => (written s, s.trace.length, s.sinkAnswers)) (times step 3 { atSink .header1 (accepts 11) with resetReq := some 2 })
      = some (([0x23#8, 0x3F#8], [], 0x00#8), 2, accepts 9) := by decide

/-! ### Witnesses: for every statement with hypotheses, values that meet them -/

/-- Vector Q1's pixel. -/
def pixelQ1 : Pixel := ⟨0x3FF0000000000000#64, 0x3FE0000000000000#64, 0#64⟩

/-- Vector Q4's pixel, one datum above the floor. -/
def pixelQ4 : Pixel := ⟨0x3949F623D5A8A734#64, 0#64, 0#64⟩

/-- DecodeEncodeAgree. -/
theorem witness_DecodeEncodeAgree :
    (Instr.lit [0xFF#8]).wellFormed = true ∧ (Instr.reservedCommand []).wellFormed = true := by decide

/-- StepRunsDecodedCommand. -/
theorem witness_StepRunsDecodedCommand :
    (sent [0x01#8]).resetReq = none ∧ (sent [0x01#8]).seq = .idle ∧ (sent [0x01#8]).cmd = [0x01#8] :: [] := by decide

/-- StepRunsRecordAtPosition: every clause. -/
theorem witness_StepRunsRecordAtPosition :
    (∀ seq, (atSink seq []).resetReq = none ∧ (atSink seq []).seq = seq)
      ∧ chunkData { atSink .chunking [] with rem := 1#16, slb := [(0, ⟨0x80#8, 0x40#8, 0x00#8, 0x81#8⟩)] } = .ok [0x80#8] :=
  ⟨fun _ => ⟨rfl, rfl⟩, rfl⟩

/-- No state named here holds a scanline entry, so that the capacity bound holds of it. -/
theorem memoriesOk_of_empty {s : State} (h1 : s.slb = []) (h2 : Memory.wf s.img = true) (h3 : Memory.wf s.streams = true) :
    memoriesOk s := ⟨by rw [h1]; rfl, h2, h3, fun i _ => by rw [h1]; rfl⟩

/-- WaitingChangesNothing: waiting for a descriptor, for the sink, for the image. -/
theorem witness_WaitingChangesNothing :
    (State.reset.resetReq = none ∧ State.reset.seq = .idle ∧ State.reset.cmd = [])
      ∧ (Inv (atSink .header1 []) ∧ blocked (atSink .header1 []) = true)
      ∧ (Inv { atSink .quantizing [] with st := .headerWritten, imgAnswers := false }
        ∧ blocked { atSink .quantizing [] with st := .headerWritten, imgAnswers := false } = true) := by
  refine ⟨⟨rfl, rfl, rfl⟩, ⟨⟨memoriesOk_of_empty rfl rfl rfl, ?_⟩, rfl⟩, ⟨⟨memoriesOk_of_empty rfl rfl rfl, ?_⟩, rfl⟩⟩
  · exact ⟨⟨rfl, by decide, by decide, rfl⟩, rfl, by decide, by decide⟩
  · exact ⟨⟨⟨rfl, by decide, by decide, rfl⟩, Or.inl rfl, by decide⟩, by decide, fun i hi => absurd hi (Nat.not_lt_zero i)⟩

/-- QuantRespondsQuantizedPixel, QuantizeIsExactFormula, FloorTestGivesBlack and the statements about valid pixels. -/
theorem witness_validPixel : validPixel pixelQ1 = true ∧ validPixel pixelQ4 = true
    ∧ validPixel ⟨0x3949F623D5A8A733#64, 0#64, 0#64⟩ = true ∧ validPixel ⟨0x7FEFFFFFFFFFFFFF#64, 0#64, 0#64⟩ = true := by decide

/-- QuantOfInvalidPixelResponds: vectors Q40, Q42 and Q44. -/
theorem witness_invalidPixel : validPixel ⟨0xBFF0000000000000#64, 0x3FE0000000000000#64, 0x3FD0000000000000#64⟩ = false
    ∧ validPixel ⟨0x7FF8000000000000#64, 0#64, 0#64⟩ = false
    ∧ validPixel ⟨0x8000000000000001#64, 0#64, 0x3FF0000000000000#64⟩ = false := by decide

/-- Vector Q13's pixel, twice vector Q1's. -/
def pixelQ13 : Pixel := ⟨0x4000000000000000#64, 0x3FF0000000000000#64, 0#64⟩

/-- What the witnesses below need of the magnitudes, in units of 2^-1074. -/
theorem magnitudes :
    (magnitude Config.floorBits < maxMagnitude pixelQ4 ∧ magnitude Config.floorBits < maxMagnitude pixelQ1
        ∧ magnitude Config.floorBits < maxMagnitude pixelQ13
        ∧ ¬ magnitude Config.floorBits < maxMagnitude ⟨0x3949F623D5A8A733#64, 0#64, 0#64⟩)
      ∧ (maxMagnitude pixelQ4 ≠ 0 ∧ frexpExp (maxMagnitude pixelQ4) = 968)
      ∧ magnitude 0x4000000000000000#64 = 2 * magnitude 0x3FF0000000000000#64
      ∧ magnitude 0x3FF0000000000000#64 = 2 * magnitude 0x3FE0000000000000#64
      ∧ maxMagnitude pixelQ1 = 1 <<< 1074 := by decide +kernel

theorem aboveFloor_Q4 : aboveFloor pixelQ4 := (aboveFloor_iff _).mpr magnitudes.1.1
theorem aboveFloor_Q1 : aboveFloor pixelQ1 := (aboveFloor_iff _).mpr magnitudes.1.2.1

/-- FloorTestGivesBlack, the other side: `d` = `FLOOR` (vector Q3). -/
theorem witness_not_aboveFloor : ¬ aboveFloor ⟨0x3949F623D5A8A733#64, 0#64, 0#64⟩ :=
  fun h => magnitudes.1.2.2.2 ((aboveFloor_iff _).mp h)

/-- QuantizeIsExactFormula (with FrexpExponentIsUniqueAndBounded, NonBlackHasLeadingMantissa): vector Q4, `e` = -106, the least
exponent. -/
theorem witness_QuantizeIsExactFormula :
    validPixel pixelQ4 = true ∧ aboveFloor pixelQ4 ∧ isFrexpExp (pixelMax pixelQ4) (-106) := by
  refine ⟨by decide, aboveFloor_Q4, ?_⟩
  have h := isFrexpExp_frexpExp magnitudes.2.1.1
  rw [magnitudes.2.1.2] at h
  rw [pixelMax_eq]
  exact h

/-- ScalingByPowersOfTwo: vectors Q1 and Q13, `n` = 1. -/
theorem witness_ScalingByPowersOfTwo :
    validPixel pixelQ1 = true ∧ validPixel pixelQ13 = true ∧ aboveFloor pixelQ1 ∧ aboveFloor pixelQ13
      ∧ val 0x4000000000000000#64 = val 0x3FF0000000000000#64 * 2 ^ (1 : ℤ)
      ∧ val 0x3FF0000000000000#64 = val 0x3FE0000000000000#64 * 2 ^ (1 : ℤ) ∧ val 0#64 = val 0#64 * 2 ^ (1 : ℤ) := by
  have twice : ∀ m k : Nat, ((2 * m : Nat) : ℚ) / 2 ^ k = (m : ℚ) / 2 ^ k * 2 ^ (1 : ℤ) := fun m k => by push_cast; ring
  refine ⟨by decide, by decide, aboveFloor_Q1, (aboveFloor_iff _).mpr magnitudes.1.2.2.1, ?_, ?_, ?_⟩
  · rw [val, val, magnitudes.2.2.1]; exact twice _ _
  · rw [val, val, magnitudes.2.2.2.1]; exact twice _ _
  · have h1 : magnitude 0#64 = 0 := by decide
    rw [val, h1]; simp

/-- ReconstructionErrorIsBounded: vector Q1, and its largest component. -/
theorem witness_ReconstructionErrorIsBounded :
    validPixel pixelQ1 = true ∧ aboveFloor pixelQ1 ∧ pixelMax pixelQ1 < 2 ^ 127 := by
  refine ⟨by decide, aboveFloor_Q1, ?_⟩
  have one : ∀ k : Nat, ((1 <<< k : Nat) : ℚ) / 2 ^ k = 1 := fun k => by
    rw [Nat.one_shiftLeft]; push_cast; exact div_self (by positivity)
  rw [pixelMax_eq, magnitudes.2.2.2.2, one]
  norm_num

/-- Vector Q19's pixel, `d` = 2^127, the first whose exponent byte wraps. -/
def pixelQ19 : Pixel := ⟨0x47E0000000000000#64, 0x47D0000000000000#64, 0#64⟩

/-- The pixel with the largest `d` below 2^128. -/
def pixelBelow128 : Pixel := ⟨0x47EFFFFFFFFFFFFF#64, 0#64, 0#64⟩

/-- The magnitudes of the two, in units of 2^-1074. -/
theorem wrapped_magnitudes :
    maxMagnitude pixelQ19 = 1 <<< (127 + 1074) ∧ 1 <<< (127 + 1074) ≤ maxMagnitude pixelBelow128
      ∧ maxMagnitude pixelBelow128 < 1 <<< (128 + 1074) := by decide +kernel

/-- WrappedExponentReadsAsBlack: both ends of [2^127, 2^128). -/
theorem witness_WrappedExponentReadsAsBlack :
    (validPixel pixelQ19 = true ∧ 2 ^ 127 ≤ pixelMax pixelQ19 ∧ pixelMax pixelQ19 < 2 ^ 128)
      ∧ validPixel pixelBelow128 = true ∧ 2 ^ 127 ≤ pixelMax pixelBelow128 ∧ pixelMax pixelBelow128 < 2 ^ 128 := by
  have le : ∀ m n k : Nat, 1 <<< (n + k) ≤ m → (2 : ℚ) ^ n ≤ (m : ℚ) / 2 ^ k := fun m n k h => by
    rw [Nat.one_shiftLeft, pow_add] at h
    rw [le_div_iff₀ (by positivity)]
    exact_mod_cast h
  have lt : ∀ m n k : Nat, m < 1 <<< (n + k) → (m : ℚ) / 2 ^ k < (2 : ℚ) ^ n := fun m n k h => by
    rw [Nat.one_shiftLeft, pow_add] at h
    rw [div_lt_iff₀ (by positivity)]
    exact_mod_cast h
  obtain ⟨h1, h2, h3⟩ := wrapped_magnitudes
  simp only [pixelMax_eq]
  exact ⟨⟨by decide, le _ _ _ h1.ge, lt _ _ _ (h1.trans_lt (h2.trans_lt h3))⟩, by decide, le _ _ _ h2, lt _ _ _ h3⟩

/-- EncslReturnsEncodedScanline, EncslResponseLengthIsExact: the smallest and the largest width. -/
theorem witness_Encsl :
    ([⟨0x80#8, 0x40#8, 0x00#8, 0x81#8⟩] : List Quad).length = (1#16).toNat ∧ (1#16 : Half) ≠ 0#16
      ∧ (List.replicate 65535 (⟨0#8, 0#8, 0#8, 0#8⟩ : Quad)).length = (65535#16).toNat ∧ (65535#16 : Half) ≠ 0#16 :=
  ⟨rfl, by decide, List.length_replicate, by decide⟩

/-- MarkEmitsMarker: ENCSL, and WRITE at the first and at the last marker byte. -/
theorem witness_MarkEmitsMarker :
    ({ State.reset with op := 0x02#8, seq := .marking } : State).op = 0x02#8
      ∧ (∃ s : State, s.op ≠ 0x02#8 ∧ s.handle = true ∧ s.mp = 0#2 ∧ answersOk s (4 - s.mp.toNat) [])
      ∧ ∃ s : State, s.op ≠ 0x02#8 ∧ s.handle = true ∧ s.mp = 3#2 ∧ answersOk s (4 - s.mp.toNat) [] :=
  ⟨rfl, ⟨atSink .marking (accepts 4), by decide, rfl, rfl, rfl⟩,
    { atSink .marking (accepts 1) with mp := 3#2 }, by decide, rfl, rfl, rfl⟩

/-- LitExtendsPayload: a chunk that does not end its plane (127 of 128), one that does (127 of 127), and the last of plane E. -/
theorem witness_LitExtendsPayload :
    let full : List Byte := List.replicate 127 0#8
    let at' : Half → BitVec 2 → State := fun rem p => { State.reset with op := 0x02#8, w := 128#16, rem := rem, p := p }
    (1 ≤ full.length ∧ full.length ≤ 127 ∧ full.length ≤ (at' 128#16 0#2).rem.toNat ∧ (at' 128#16 0#2).op = 0x02#8
        ∧ full.length < (at' 128#16 0#2).rem.toNat)
      ∧ (full.length ≤ (at' 127#16 2#2).rem.toNat ∧ (at' 127#16 2#2).op = 0x02#8
        ∧ full.length = (at' 127#16 2#2).rem.toNat ∧ (at' 127#16 2#2).p ≠ 3#2)
      ∧ (1 ≤ ([0#8] : List Byte).length ∧ ([0#8] : List Byte).length ≤ (at' 1#16 3#2).rem.toNat ∧ (at' 1#16 3#2).op = 0x02#8
        ∧ ([0#8] : List Byte).length = (at' 1#16 3#2).rem.toNat ∧ (at' 1#16 3#2).p = 3#2) := by decide +kernel

/-- LitWritesChunk: for each clause a state at a WRITE's chunk of one byte; `Y` = 0 and `Y` = 65534 end differently. -/
theorem witness_LitWritesChunk :
    let at' : Half → BitVec 2 → Half → State := fun rem p y =>
      { atSink .chunking (accepts 2) with st := .headerWritten, w := 2#16, rem := rem, p := p, y := y }
    (∀ rem p y, answersOk (at' rem p y) (recordRest (.lit [0#8]) (at' rem p y)).length [] ∧ (at' rem p y).handle = true
        ∧ (at' rem p y).op ≠ 0x02#8)
      ∧ ([0#8] : List Byte).length < (at' 2#16 0#2 0#16).rem.toNat
      ∧ (([0#8] : List Byte).length = (at' 1#16 2#2 0#16).rem.toNat ∧ (at' 1#16 2#2 0#16).p ≠ 3#2)
      ∧ (([0#8] : List Byte).length = (at' 1#16 3#2 0#16).rem.toNat ∧ (at' 1#16 3#2 0#16).p = 3#2 ∧ (at' 1#16 3#2 0#16).y = 0#16)
      ∧ (([0#8] : List Byte).length = (at' 1#16 3#2 65534#16).rem.toNat ∧ (at' 1#16 3#2 65534#16).p = 3#2
        ∧ (at' 1#16 3#2 65534#16).y ≠ 0#16) :=
  ⟨fun _ _ _ => ⟨rfl, rfl, by simp [atSink]⟩, by decide, by decide, by decide, by decide⟩

/-- DecimalNumeralsAreExact: both ends. -/
theorem witness_DecimalNumeralsAreExact : (0 : Nat) < 65536 ∧ (65535 : Nat) < 65536 := by decide

/-- HeaderLinesComplete: each line from its first byte and from its last. -/
theorem witness_HeaderLinesComplete :
    answersOk { atSink .header1 (accepts 11) with hp := 0#7 } (11 - (0#7).toNat) []
      ∧ answersOk { atSink .header1 (accepts 1) with hp := 10#7 } (11 - (10#7).toNat) []
      ∧ answersOk { atSink .header2 (accepts 31) with hp := 11#7 } (42 - (11#7).toNat) []
      ∧ answersOk { atSink .header2 (accepts 1) with hp := 41#7 } (42 - (41#7).toNat) []
      ∧ answersOk { atSink .header3 (accepts 23) with hp := 42#7 } (65 - (42#7).toNat) []
      ∧ answersOk { atSink .header3 (accepts 1) with hp := 64#7 } (65 - (64#7).toNat) []
      ∧ answersOk { atSink .header4 (accepts 36) with hp := 65#7 } (101 - (65#7).toNat) []
      ∧ answersOk { atSink .header4 (accepts 1) with hp := 100#7 } (101 - (100#7).toNat) []
      ∧ ∀ seq answers, (atSink seq answers).handle = true :=
  ⟨rfl, rfl, rfl, rfl, rfl, rfl, rfl, rfl, fun _ _ => rfl⟩

/-- ReslineCompletes: the shortest line from its first byte, the longest from its last. -/
theorem witness_ReslineCompletes :
    (∃ s : State, s.handle = true ∧ 101 ≤ s.hp.toNat ∧ s.hp.toNat < 109 + (dec (1#16).toNat).length + (dec (1#16).toNat).length
        ∧ answersOk s (109 + (dec (1#16).toNat).length + (dec (1#16).toNat).length - s.hp.toNat) [])
      ∧ ∃ s : State, s.handle = true ∧ 101 ≤ s.hp.toNat
        ∧ s.hp.toNat < 109 + (dec (65535#16).toNat).length + (dec (65535#16).toNat).length
        ∧ answersOk s (109 + (dec (65535#16).toNat).length + (dec (65535#16).toNat).length - s.hp.toNat) [] :=
  ⟨⟨{ atSink .resolution (accepts 10) with hp := 101#7 }, rfl, by decide, by decide, rfl⟩,
    { atSink .resolution (accepts 1) with hp := 118#7 }, rfl, by decide, by decide, rfl⟩

/-- ResumedRecordIsSameRecord: a marker of which the sink accepts one byte first. -/
theorem witness_ResumedRecordIsSameRecord :
    (Instr.mark 1#16).wellFormed = true ∧ (atSink .marking [.ok]).op = 0x03#8 ∧ (atSink .marking [.ok]).handle = true
      ∧ recordPlace (.mark 1#16) (atSink .marking [.ok]) ∧ 1 < (recordRest (.mark 1#16) (atSink .marking [.ok])).length
      ∧ answersOk (atSink .marking [.ok]) 1 []
      ∧ ∃ t, exec (.mark 1#16) (atSink .marking [.ok]) = .next t :=
  ⟨rfl, rfl, rfl, trivial, by decide, rfl, _, rfl⟩

/-- RefusedByteClosesSink: the first and the last byte of header line 1. -/
theorem witness_RefusedByteClosesSink :
    0 < (recordRest .hdrline1 (atSink .header1 [.fail true])).length ∧ Instr.hdrline1.wellFormed = true
      ∧ (atSink .header1 [.fail true]).op = 0x03#8 ∧ (atSink .header1 [.fail true]).handle = true
      ∧ answersFailAt (atSink .header1 [.fail true]) 0 true []
      ∧ 10 < (recordRest .hdrline1 (atSink .header1 (accepts 10 ++ [.fail false]))).length
      ∧ answersFailAt (atSink .header1 (accepts 10 ++ [.fail false])) 10 false [] :=
  ⟨by decide, rfl, rfl, rfl, rfl, by decide, rfl⟩

/-- WriteOfNoPixelsIsDegenerate: vectors W12 and W13. -/
theorem witness_WriteOfNoPixelsIsDegenerate :
    ((0#16 : Half) = 0#16 ∨ (5#16 : Half) = 0#16) ∧ ((5#16 : Half) = 0#16 ∨ (0#16 : Half) = 0#16) := by decide

/-- RefusedOpenIsPathUnwritable: vector W5. -/
theorem witness_RefusedOpenIsPathUnwritable :
    (1#16 : Half) ≠ 0#16 ∧ ({ State.reset with sinkAnswers := [.fail false] } : State).sinkAnswers = .fail false :: [] := by decide

/-- Vector W1's image is complete and valid. -/
theorem imageW1_ok : imageComplete imageW1 1#16 1#16 ∧ imageValid imageW1 1#16 1#16 := by
  have h0 : ∀ i, i < (1#16).toNat * (1#16).toNat → i = 0 := by intro i hi; simpa using hi
  refine ⟨fun i hi => ?_, fun i pixel hi hp => ?_⟩
  · obtain rfl := h0 i hi; rfl
  · obtain rfl := h0 i hi
    obtain rfl : imageW1.head!.2 = pixel := by injection hp
    decide

/-- The reset block of vector W1, with a sink that gives these answers. -/
def beforeW1 (answers : List SinkAnswer) : State := { State.reset with img := imageW1, sinkAnswers := answers }

/-- Vector W1: 123 bytes. -/
theorem length_fileW1 : (fileBytes imageW1 1#16 1#16).length = 123 := by decide +kernel

/-- WriteProducesFile: vector W1. -/
theorem witness_WriteProducesFile :
    (1#16 : Half) ≠ 0#16 ∧ imageComplete (beforeW1 (accepts 124)).img 1#16 1#16 ∧ (beforeW1 (accepts 124)).imgAnswers = true
      ∧ answersOk (beforeW1 (accepts 124)) (1 + (101 + 8 + (dec (1#16).toNat).length + (dec (1#16).toNat).length
          + (1#16).toNat * (4 + 4 * (((1#16).toNat + 126) / 127 + (1#16).toNat)))) [] :=
  ⟨by decide, imageW1_ok.1, rfl, rfl⟩

/-- WriteOfValidImageIsItsFile: vector W1. -/
theorem witness_WriteOfValidImageIsItsFile :
    (1#16 : Half) ≠ 0#16 ∧ imageComplete (beforeW1 (accepts 124)).img 1#16 1#16
      ∧ imageValid (beforeW1 (accepts 124)).img 1#16 1#16 ∧ (beforeW1 (accepts 124)).imgAnswers = true
      ∧ answersOk (beforeW1 (accepts 124)) (1 + (fileBytes (beforeW1 (accepts 124)).img 1#16 1#16).length) [] :=
  ⟨by decide, imageW1_ok.1, imageW1_ok.2, rfl,
    by rw [show (fileBytes (beforeW1 (accepts 124)).img 1#16 1#16).length = 123 from length_fileW1]; rfl⟩

/-- FailedWriteKeepsPrefix: vectors W6 and W9, the first and the last write refused. -/
theorem witness_FailedWriteKeepsPrefix :
    (1#16 : Half) ≠ 0#16 ∧ (∀ answers, imageComplete (beforeW1 answers).img 1#16 1#16 ∧ (beforeW1 answers).imgAnswers = true)
      ∧ (beforeW1 [.ok, .fail true]).sinkAnswers = .ok :: (List.replicate 0 .ok ++ .fail true :: [])
      ∧ (beforeW1 (accepts 123 ++ [.fail false])).sinkAnswers = .ok :: (List.replicate 122 .ok ++ .fail false :: [])
      ∧ ∀ n, n = 0 ∨ n = 122 → n < 101 + 8 + (dec (1#16).toNat).length + (dec (1#16).toNat).length
          + (1#16).toNat * (4 + 4 * (((1#16).toNat + 126) / 127 + (1#16).toNat)) :=
  ⟨by decide, fun _ => ⟨imageW1_ok.1, rfl⟩, rfl, rfl, by rintro n (rfl | rfl) <;> decide⟩

/-- FailedWriteKeepsPrefix of an image that is not valid (vector Q40's pixel): the premises ask for no more than a complete
image. -/
theorem witness_FailedWriteKeepsPrefix_invalid :
    imageComplete [(0, ⟨0xBFF0000000000000#64, 0x3FE0000000000000#64, 0x3FD0000000000000#64⟩)] 1#16 1#16 := by
  intro i hi
  obtain rfl : i = 0 := by simpa using hi
  rfl

/-- FileLengthIsExact: the quantization of vector W1's image. -/
theorem witness_FileLengthIsExact : quantizesImage imageW1 1#16 1#16 (quantizedRow imageW1 1#16) := by
  intro y hy
  obtain rfl : y = 0 := by simpa using hy
  refine ⟨rfl, fun x pixel hx hp _ => ?_⟩
  obtain rfl : x = 0 := by simpa using hx
  obtain rfl : imageW1.head!.2 = pixel := by injection hp
  rfl

/-- RowStepQuantizesPixel: vector W1's pixel, the first and last of its row. -/
theorem witness_RowStepQuantizesPixel :
    let s : State := { atSink .quantizing [] with st := .headerWritten, img := imageW1 }
    s.resetReq = none ∧ s.seq = .quantizing ∧ s.x.toNat < s.w.toNat ∧ s.imgAnswers = true
      ∧ Memory.get? s.img (pixelIndex s.w s.y s.x).toNat = some pixelQ1 := by decide

/-- ResetAbandonsCommand. -/
theorem witness_ResetAbandonsCommand : ({ atSink .header1 [] with resetReq := some 0 } : State).resetReq = some 0 := rfl

/-- StepBeforeReset, ResetFallsBetweenAcceptanceAndResponse: a reset one operation after a reserved descriptor's acceptance. -/
theorem witness_ResetFallsBetweenAcceptanceAndResponse :
    let s : State := { sent [0x07#8] with resetReq := some (0 + 1) }
    s.seq = .idle ∧ s.cmd = [0x07#8] :: [] ∧ s.resetReq = some 1 := ⟨rfl, rfl, rfl⟩

/-- ResetFallsAfterAnyOperation: none, an acceptance, an acceptance and a response. -/
theorem witness_ResetFallsAfterAnyOperation :
    (∃ t, times atomicStep 0 (sent [0x07#8]) = .next t) ∧ (∃ t, times atomicStep 1 (sent [0x07#8]) = .next t)
      ∧ ∃ t, times atomicStep 2 (sent [0x07#8]) = .next t := ⟨⟨_, rfl⟩, ⟨_, rfl⟩, _, rfl⟩

/-- CommandIsItsOperations, OperationsAreSingle: a reserved descriptor, from its acceptance on. -/
theorem witness_CommandIsItsOperations :
    Inv (sent [0x07#8]) ∧ (sent [0x07#8]).seq = .idle ∧ (sent [0x07#8]).cmd = [0x07#8] :: []
      ∧ (∃ t, exec (decode [0x07#8]) { sent [0x07#8] with cmd := [] } = .next t)
      ∧ ∃ t, atomicStep (sent [0x07#8]) = .next t :=
  ⟨⟨memoriesOk_of_empty rfl rfl rfl, ⟨⟨rfl, Or.inl rfl⟩, rfl⟩⟩, rfl, rfl, ⟨_, rfl⟩, _, rfl⟩

/-- The invariant holds of a reset block with a descriptor to come: StepKeepsInvariant, InvariantStepsDoNotStop,
StepKeepsMemoriesCanonical, StepOnlyAppendsToTrace. -/
theorem witness_StepKeepsInvariant : Inv (sent [0x07#8]) ∧ ∃ t, step (sent [0x07#8]) = .next t :=
  ⟨⟨memoriesOk_of_empty rfl rfl rfl, ⟨⟨rfl, Or.inl rfl⟩, rfl⟩⟩, _, rfl⟩

/-- ActionsOnlyAppendToStream, ActionsKeepLatches: an action that writes, and another selector. -/
theorem witness_ActionsOnlyAppendToStream :
    (∃ t, tick (atSink .header1 (accepts 11)) = .next t) ∧ (2#32 : Word) ≠ (atSink .header1 (accepts 11)).pathtok
      ∧ (atSink .header1 (accepts 11)).seq ≠ .opening :=
  ⟨⟨_, rfl⟩, by decide, by decide⟩

/-- WriterStateTransitions. -/
theorem witness_WriterStateTransitions :
    Inv (atSink .header1 (accepts 11)) ∧ ∃ t, tick (atSink .header1 (accepts 11)) = .next t :=
  ⟨⟨memoriesOk_of_empty rfl rfl rfl, ⟨rfl, by decide, by decide, rfl⟩, rfl, by decide, by decide⟩, _, rfl⟩

end Sys2Proof.Tests
end

section
/-! PROOFS. What holds of every step, by looking at resets, acceptances and actions alone; the frame of an action; the
memories stay canonical. -/

namespace Sys2Proof.Machine

/-! ### Descriptors -/

/-- The row of an ENCSL descriptor is as long as its width field says (R95, R98). -/
theorem length_row_of_decode {c : List Byte} {w : Half} {row : List Quad} (h : decode c = .encsl w row) :
    row.length = w.toNat := by
  unfold decode at h
  split_ifs at h with _ he
  obtain ⟨rfl, rfl⟩ := Instr.encsl.inj h
  simp only [isEncsl, Bool.and_eq_true, beq_iff_eq, decide_eq_true_eq] at he
  have hfield : widthField c < 2 ^ 16 := by
    have hhi := (c.getD 1 0).isLt
    have hlo := (c.getD 2 0).isLt
    unfold widthField
    omega
  rw [length_quadsOf (widthField c) _ (by rw [List.length_drop]; omega), BitVec.toNat_ofNat, Nat.mod_eq_of_lt hfield]

/-! ### Every step -/

/-- A predicate of states that sees neither the sink's answers to come nor the reset request is kept by every step, if
resets, acceptances and actions keep it. -/
theorem step_keeps {P : State → Prop} (hreset : ∀ s, P s → P (resetBlock s))
    (haccept : ∀ s c later, P s → s.seq = .idle → P (accept (decode c) { s with cmd := later }))
    (htick : ∀ s t, P s → tick s = .next t → P t) (hbehind : ∀ f r s, P (behind f r s) ↔ P s) {s t : State}
    (hs : P s) (h : step s = .next t) : P t := by
  rcases step_next h with ⟨-, rfl⟩ | ⟨n, u, -, hu, rfl⟩ | ⟨-, -, -, rfl⟩ | ⟨c, later, -, hi, -, he⟩ | ⟨-, -, ht⟩
  · exact hreset s hs
  · refine (hbehind id (fun _ => some n) u).mpr ?_
    rcases atomicStep_next hu with ⟨-, -, rfl⟩ | ⟨c, later, hi, -, rfl⟩ | ⟨-, v, hv, rfl⟩
    · exact hs
    · exact haccept s c later hs hi
    · have hone : P (oneAnswer s) := (hbehind (List.take 1) id s).mpr hs
      exact (hbehind (· ++ s.sinkAnswers.drop 1) id v).mpr (htick _ v hone hv)
  · exact hs
  · obtain ⟨k, hk⟩ := exec_command (onCommandPort_decode c)
    rw [hk] at he
    exact runCommand_induction (P := fun a b => P a → P b) (fun _ ha => ha) (fun h1 h2 ha => h2 (h1 ha))
      (fun ht ha => htick _ _ ha ht) _ he (haccept s c later hs hi)
  · exact htick s t hs ht

/-! ### What an emission touches -/

/-- `u` is `s` but for the streams, the sink's answers, the response payload and the record of port operations, and its
streams are canonical if those of `s` are: what the bytes of a record can change. -/
def PortsOnly (s u : State) : Prop :=
  ∃ streams answers payload trace,
    u = { s with streams := streams, sinkAnswers := answers, payload := payload, trace := trace }
      ∧ (Memory.wf s.streams = true → Memory.wf streams = true)

theorem portsOnly_addPayload (bytes : List Byte) (s : State) : PortsOnly s (addPayload bytes s) :=
  ⟨_, _, _, _, rfl, id⟩

theorem portsOnly_wrote (bytes : List Byte) (later : List SinkAnswer) (s : State) : PortsOnly s (wrote bytes later s) := by
  refine ⟨_, _, _, _, rfl, fun hw => ?_⟩
  split
  · exact hw
  · exact wf_set hw _ _

theorem portsOnly_rejected {s u : State} (h : PortsOnly s u) (b : Byte) (landed : Bool) (later : List SinkAnswer) :
    PortsOnly s (rejected b landed later u) := by
  obtain ⟨streams, answers, payload, trace, rfl, hwf⟩ := h
  refine ⟨_, _, _, _, rfl, fun hw => ?_⟩
  split
  · exact wf_set (hwf hw) _ _
  · exact hwf hw

/-- A record that goes to the sink ends in one of three ways: complete, waiting with some bytes left, or refused with some
bytes left. -/
def SinkOutcome (bytes : List Byte) (save : Nat → State → State) (next : State → State) (s t : State) : Prop :=
  ∃ u, PortsOnly s u ∧ (t = next u ∨ ∃ left, 1 ≤ left ∧ left ≤ bytes.length
    ∧ (t = save left u ∨ t = goTo .failing (save left u)))

theorem sinkOutcome_of_leadsTo {bytes : List Byte} {save : Nat → State → State} {next : State → State} {s t : State}
    (h : recordLeadsTo bytes save next s t) : SinkOutcome bytes save next s t := by
  rcases h with ⟨later, -, rfl⟩ | ⟨n, hn, -, rfl⟩ | ⟨n, landed, later, hn, -, rfl⟩
  · exact ⟨_, portsOnly_wrote _ _ s, .inl rfl⟩
  · exact ⟨_, portsOnly_wrote _ _ s, .inr ⟨_, by omega, by omega, .inl rfl⟩⟩
  · exact ⟨_, portsOnly_rejected (portsOnly_wrote _ _ s) _ landed later, .inr ⟨_, by omega, by omega, .inr rfl⟩⟩

/-- One line of step HEADER (R194, R204). -/
theorem headerRecord_outcome {line : List Byte} {start : Nat} {next : State → State} {s t : State}
    (h : headerRecord line start next s = .next t) :
    SinkOutcome (line.drop (s.hp.toNat - start)) (fun left u => setHp (start + line.length - left) u)
      (fun u => next (setHp (start + line.length) u)) s t :=
  sinkOutcome_of_leadsTo (emitRecord_next h).2

/-- An encoder record: all of ENCSL's bytes go out, WRITE's go to the sink (R160, R209). -/
theorem emitScanlineRecord_outcome {bytes : List Byte} {save : Nat → State → State} {next : State → State} {s t : State}
    (h : emitScanlineRecord bytes save next s = .next t) :
    (s.op = Config.opEncsl ∧ ∃ u, PortsOnly s u ∧ t = next u)
    ∨ (s.op ≠ Config.opEncsl ∧ SinkOutcome bytes save next s t) := by
  rcases emitScanlineRecord_next h with ⟨ho, rfl⟩ | ⟨ho, -, hl⟩
  · exact .inl ⟨ho, _, portsOnly_addPayload bytes s, rfl⟩
  · exact .inr ⟨ho, sinkOutcome_of_leadsTo hl⟩

/-- `P` holds at a record's end, if its bytes give it and the counters, the FAIL path and what follows the record keep it. -/
theorem SinkOutcome.keeps {P : State → Prop} {bytes : List Byte} {save : Nat → State → State} {next : State → State}
    {s t : State} (h : SinkOutcome bytes save next s t) (hports : ∀ u, PortsOnly s u → P u)
    (hsave : ∀ left u, P u → P (save left u)) (hfail : ∀ u, P u → P (goTo .failing u))
    (hnext : ∀ u, P u → P (next u)) : P t := by
  obtain ⟨u, hu, rfl | ⟨left, -, -, rfl | rfl⟩⟩ := h
  · exact hnext u (hports u hu)
  · exact hsave left u (hports u hu)
  · exact hfail _ (hsave left u (hports u hu))

theorem emitScanlineRecord_keeps {P : State → Prop} {bytes : List Byte} {save : Nat → State → State}
    {next : State → State} {s t : State} (h : emitScanlineRecord bytes save next s = .next t)
    (hports : ∀ u, PortsOnly s u → P u) (hsave : ∀ left u, P u → P (save left u))
    (hfail : ∀ u, P u → P (goTo .failing u)) (hnext : ∀ u, P u → P (next u)) : P t := by
  rcases emitScanlineRecord_outcome h with ⟨-, u, hu, rfl⟩ | ⟨-, ho⟩
  · exact hnext u (hports u hu)
  · exact ho.keeps hports hsave hfail hnext

/-! ### What one action leaves alone -/

/-- The operand latches and the outside world are as before (R21 to R24, R44). -/
def keepsLatches (s t : State) : Prop :=
  t.op = s.op ∧ t.w = s.w ∧ t.h = s.h ∧ t.pathtok = s.pathtok ∧ keepsOutside s t

/-- The frame of an action: the latches stay, the streams stay canonical, and `SLB` stays, or is unwritten again, or takes
one entry, that of the next pixel of the row. -/
def ActionFrame (s t : State) : Prop :=
  keepsLatches s t ∧ (Memory.wf s.streams = true → Memory.wf t.streams = true)
    ∧ (t.slb = s.slb ∨ t.slb = [] ∨ (s.x.toNat < s.w.toNat ∧ ∃ quad, t.slb = Memory.set s.slb s.x.toNat quad))

theorem actionFrame_refl (s : State) : ActionFrame s s :=
  ⟨⟨rfl, rfl, rfl, rfl, rfl, rfl, rfl, rfl⟩, id, .inl rfl⟩

theorem actionFrame_ports {s u : State} (h : PortsOnly s u) : ActionFrame s u := by
  obtain ⟨_, _, _, _, rfl, hwf⟩ := h
  exact ⟨⟨rfl, rfl, rfl, rfl, rfl, rfl, rfl, rfl⟩, hwf, .inl rfl⟩

theorem actionFrame_openSink (later : List SinkAnswer) (s : State) : ActionFrame s (openSink later s) :=
  ⟨⟨rfl, rfl, rfl, rfl, rfl, rfl, rfl, rfl⟩, fun hw => wf_set hw _ _, .inl rfl⟩

theorem actionFrame_advance (n : Nat) {s u : State} (h : ActionFrame s u) : ActionFrame s (advance n u) := by
  rcases advance_cases n u with ⟨-, e⟩ | ⟨-, -, e⟩ | ⟨-, -, -, e⟩ | ⟨-, -, -, -, e⟩ | ⟨-, -, -, -, e⟩ <;> rw [e] <;> exact h

/-- A quantization writes nothing but `Q` and the count of draws (R130, R141). -/
theorem quantizeStep_writes (s : State) : ∃ quad draws, quantizeStep s = { s with q := quad, draws := draws } := by
  rcases quantizeStep_cases s with ⟨-, e⟩ | ⟨-, e⟩
  · exact ⟨_, s.draws, e⟩
  · exact ⟨_, _, e⟩

theorem actionFrame_quantizeStep (s : State) : ActionFrame s (quantizeStep s) := by
  obtain ⟨quad, draws, e⟩ := quantizeStep_writes s
  rw [e]
  exact actionFrame_refl s

theorem actionFrame_storePixel {idx : Word} {pixel : Pixel} {s : State} (hx : s.x.toNat < s.w.toNat) :
    ActionFrame s (storePixel (quantizeStep (latchPixel idx pixel s))) := by
  obtain ⟨quad, draws, e⟩ := quantizeStep_writes (latchPixel idx pixel s)
  rw [e]
  exact ⟨⟨rfl, rfl, rfl, rfl, rfl, rfl, rfl, rfl⟩, id, .inr (.inr ⟨hx, quad, rfl⟩)⟩

/-- A response leaves `SLB` unwritten, or as it is after QUANT (R28, R140). -/
theorem respond_slb_cases (status : Status) (payload : List Byte) (s : State) :
    (respond status payload s).slb = s.slb ∨ (respond status payload s).slb = [] := by
  unfold respond
  split
  · by_cases ho : s.op = Config.opQuant
    · exact .inl (if_pos ho)
    · exact .inr (if_neg ho)
  · exact .inl rfl

theorem actionFrame_respond (status : Status) (payload : List Byte) {s u : State} (h : ActionFrame s u) :
    ActionFrame s (respond status payload u) := by
  obtain ⟨⟨hop, hw, hh, hp, hout⟩, hwf, hslb⟩ := h
  refine ⟨?_, by simpa using hwf, ?_⟩
  · simp only [keepsLatches, keepsOutside, respond_op, respond_w, respond_h, respond_pathtok, respond_img,
      respond_imgAnswers, respond_cmd, respond_resetReq]
    exact ⟨hop, hw, hh, hp, hout⟩
  · rcases respond_slb_cases status payload u with e | e <;> rw [e]
    · exact hslb
    · exact .inr (.inl rfl)

/-- Every action keeps within the frame. -/
theorem tick_frame {s t : State} (h : tick s = .next t) : ActionFrame s t := by
  have hs := actionFrame_refl s
  rcases tick_next h with ⟨-, rfl⟩ | ⟨-, ho⟩ | ⟨_, line, start, next, hline, -, hh⟩ | ⟨-, hq⟩ | ⟨-, hm⟩ | ⟨-, data, -, hl⟩
    | ⟨-, hc⟩ | ⟨-, rfl⟩ | ⟨-, rfl⟩ | ⟨-, rfl⟩ | ⟨exception, -, rfl⟩
  · exact hs
  · rcases stepOpen_next ho with ⟨-, rfl⟩ | ⟨later, -, rfl⟩ | ⟨_, later, -, rfl⟩
    · exact hs
    · exact actionFrame_openSink later s
    · exact hs
  · refine (headerRecord_outcome hh).keeps (fun _ => actionFrame_ports) (fun _ _ => id) (fun _ => id) (fun u hu => ?_)
    rcases hline with ⟨-, -, -, rfl⟩ | ⟨-, -, -, rfl⟩ | ⟨-, -, -, rfl⟩ | ⟨-, -, -, rfl⟩ | ⟨-, -, -, rfl⟩ <;> exact hu
  · rcases stepQuantize_next hq with ⟨-, -, rfl⟩ | ⟨hx, -, pixel, -, rfl⟩ | ⟨-, rfl⟩
    · exact hs
    · exact actionFrame_storePixel hx
    · exact hs
  · exact emitScanlineRecord_keeps hm (fun _ => actionFrame_ports) (fun _ _ => id) (fun _ => id) (fun _ => id)
  · exact emitScanlineRecord_keeps (execLit_next hl).2 (fun _ => actionFrame_ports) (fun _ _ => id) (fun _ => id)
      (fun _ => actionFrame_advance data.length)
  · obtain ⟨-, rfl⟩ := stepClose_next hc
    exact hs
  · exact actionFrame_respond _ _ hs
  · exact actionFrame_respond _ _ (actionFrame_quantizeStep s)
  · exact hs
  · exact actionFrame_respond _ _ hs

/-- Settles O50: the latches are in the frame of every action. -/
theorem actionsKeepLatches : Obligations.ActionsKeepLatches :=
  fun _ _ h => (tick_frame h).1

/-! ### The memories -/

/-- With `SLB` as it was, or unwritten, the memories are as canonical as before. -/
theorem memoriesOk_of_slb {s t : State} (h : memoriesOk s) (himg : t.img = s.img)
    (hstreams : Memory.wf s.streams = true → Memory.wf t.streams = true) (hslb : t.slb = s.slb ∨ t.slb = []) :
    memoriesOk t := by
  obtain ⟨h1, h2, h3, h4⟩ := h
  rcases hslb with e | e
  · exact ⟨e ▸ h1, himg ▸ h2, hstreams h3, e ▸ h4⟩
  · exact ⟨e ▸ rfl, himg ▸ h2, hstreams h3, fun _ _ => e ▸ rfl⟩

/-- What stays within an action's frame keeps the memories canonical: the entry of a pixel is within the capacity, for a row
has at most 65535 pixels (R28, R208). -/
theorem memoriesOk_of_frame {s t : State} (hf : ActionFrame s t) (h : memoriesOk s) : memoriesOk t := by
  obtain ⟨⟨-, -, -, -, himg, -⟩, hstreams, hslb | hslb | ⟨hx, quad, hslb⟩⟩ := hf
  · exact memoriesOk_of_slb h himg hstreams (.inl hslb)
  · exact memoriesOk_of_slb h himg hstreams (.inr hslb)
  · obtain ⟨h1, h2, h3, h4⟩ := h
    have hw := s.w.isLt
    refine ⟨hslb ▸ wf_set h1 _ _, himg ▸ h2, hstreams h3, fun i hi => ?_⟩
    rw [hslb, get?_set_other _ (by rw [Config.slbCap] at hi; omega)]
    exact h4 i hi

/-- The descriptor load of ENCSL stays within the capacity (R28, R95). -/
theorem memoriesOk_acceptEncsl {w : Half} {row : List Quad} {s : State} (h : memoriesOk s) (hrow : row.length = w.toNat) :
    memoriesOk (acceptEncsl w row s) := by
  obtain ⟨h1, h2, h3, h4⟩ := h
  have hw := w.isLt
  refine ⟨wf_slbLoad row _ _ h1, h2, h3, fun i hi => ?_⟩
  rw [acceptEncsl_slb, get?_slbLoad, if_neg (by rw [Config.slbCap] at hi; omega)]
  exact h4 i hi

theorem accept_keeps_memoriesOk {s : State} (c : List Byte) (h : memoriesOk s) : memoriesOk (accept (decode c) s) := by
  rcases accept_cases (onCommandPort_decode c) s with ⟨_, _, _, -, e⟩ | ⟨row, hd, e⟩ | ⟨w, row, hd, -, e⟩
    | ⟨_, _, _, -, -, e⟩ | ⟨_, _, _, -, -, -, e⟩ | ⟨_, -, e⟩ <;> rw [e]
  · exact h
  · exact memoriesOk_acceptEncsl h (length_row_of_decode hd)
  · exact memoriesOk_acceptEncsl h (length_row_of_decode hd)
  · exact h
  · exact h
  · exact h

theorem resetBlock_keeps_memoriesOk {s : State} (h : memoriesOk s) : memoriesOk (resetBlock s) :=
  memoriesOk_of_slb h rfl id (.inr rfl)

/-- Settles O47: resets, acceptances and actions keep the canonical form. -/
theorem stepKeepsMemoriesCanonical : Obligations.StepKeepsMemoriesCanonical :=
  fun _ _ => step_keeps (P := memoriesOk) (fun _ => resetBlock_keeps_memoriesOk)
    (fun _ c _ hs _ => accept_keeps_memoriesOk c hs) (fun _ _ hs ht => memoriesOk_of_frame (tick_frame ht) hs)
    (fun _ _ _ => Iff.rfl)

end Sys2Proof.Machine
end

section
/-! PROOFS. The invariant: acceptances, actions and resets keep it. -/

namespace Sys2Proof.Machine

/-! ### The clauses of the invariant under the updates of an action -/

/-- What the encoder's chunk step needs: a full row in `SLB`, a rest of the plane, and a chunk no longer than what `K`
counts (R35, R36, R162). -/
def AtChunk (s : State) : Prop :=
  inScanline s ∧ s.rem ≠ 0#16 ∧ s.x.toNat + s.rem.toNat = s.w.toNat ∧ s.k.toNat ≤ chunkLength s.rem

theorem positionOk_chunking {s : State} (h : s.seq = .chunking) : positionOk s ↔ AtChunk s := by
  rw [positionOk, h]
  exact Iff.rfl

theorem inScanline_encsl {s : State} (h : inScanline s) (ho : s.op = Config.opEncsl) : sinkClosed s := by
  obtain ⟨-, -, ⟨-, hclosed⟩ | ⟨⟨hwrite, -⟩, -⟩⟩ := h
  · exact hclosed
  · rw [hwrite] at ho
    exact absurd ho (by decide)

theorem inScanline_write {s : State} (h : inScanline s) (ho : s.op ≠ Config.opEncsl) : inRow s := by
  obtain ⟨-, -, ⟨hencsl, -⟩ | hrow⟩ := h
  · exact absurd hencsl ho
  · exact hrow

/-- A refused byte in the row step leaves the FAIL path next, with the sink open (R249). -/
theorem positionOk_failing_of_inRow {s : State} (h : inRow s) : positionOk (goTo .failing s) := by
  obtain ⟨hopen, hst, -⟩ := h
  exact ⟨hopen, .inr hst⟩

/-! ### Step HEADER -/

/-- `HP` holds every offset of the header block and the resolution line in its seven bits (R36). -/
theorem inHeader_setHp {u : State} {low high v : Nat} (hopen : writeOpen u) (hst : u.st = .opened) (hlow : low ≤ v)
    (hhigh : v < high) (h128 : v < 128) : inHeader (setHp v u) low high := by
  have hv : (setHp v u).hp.toNat = v := by
    rw [setHp_hp, BitVec.toNat_ofNat]
    exact Nat.mod_eq_of_lt h128
  exact ⟨hopen, hst, hv.symm ▸ hlow, hv.symm ▸ hhigh⟩

/-- A header record keeps the invariant's clause, if the clause of its position is that `HP` is in the line, and what follows
the line meets its own. -/
theorem headerRecord_position {line : List Byte} {start : Nat} {next : State → State} {s t : State}
    (h : headerRecord line start next s = .next t) (hpos : positionOk s)
    (hclause : ∀ u, u.seq = s.seq → u.h = s.h → u.w = s.w → (positionOk u ↔ inHeader u start (start + line.length)))
    (h128 : start + line.length < 128)
    (hnext : ∀ u, writeOpen u → u.st = .opened → positionOk (next (setHp (start + line.length) u))) : positionOk t := by
  obtain ⟨hopen, hst, hlow, hhigh⟩ := (hclause s rfl rfl rfl).mp hpos
  obtain ⟨u, ⟨_, _, _, _, rfl, -⟩, rfl | ⟨left, hleft, hrest, hsave⟩⟩ := headerRecord_outcome h
  · exact hnext _ hopen hst
  · rw [List.length_drop] at hrest
    rcases hsave with rfl | rfl
    · refine (hclause _ ?_ ?_ ?_).mpr (inHeader_setHp hopen hst (by omega) (by omega) (by omega)) <;> rfl
    · exact ⟨hopen, .inl hst⟩

/-- Counting a row down from `H`, or from a row of the image, gives a row of the image (R205, R210). -/
theorem toNat_sub_one_lt {y h : Half} (hy : y ≠ 0#16) (hle : y.toNat ≤ h.toNat) : (y - 1#16).toNat < h.toNat := by
  have hpos : y.toNat ≠ 0 := fun h0 => hy (BitVec.eq_of_toNat_eq (by simpa using h0))
  have hsub : (y - 1#16).toNat = y.toNat - 1 := by bv_omega
  omega

theorem positionOk_enterRows {u : State} (hopen : writeOpen u) : positionOk (enterRows u) := by
  have ⟨_, _, hh, _⟩ := hopen
  exact ⟨⟨hopen, .inl rfl, toNat_sub_one_lt hh (Nat.le_refl _)⟩, Nat.zero_le _, fun i hi => absurd hi (Nat.not_lt_zero i)⟩

theorem length_reslineBytes_bounds (h w : Half) : 0 < (reslineBytes h w).length ∧ (reslineBytes h w).length ≤ 18 := by
  have h1 := decLength_le h.toNat
  have h2 := decLength_le w.toNat
  rw [length_reslineBytes]
  omega

/-! ### The row step -/

/-- The entry of the next pixel is written before `X` passes it (R208). -/
theorem slbWritten_storePixel {s : State} (h : slbWritten s s.x.toNat) {n : Nat} (hn : n ≤ s.x.toNat + 1) :
    slbWritten (storePixel s) n := by
  intro i hi
  rw [storePixel_slb]
  by_cases hix : i = s.x.toNat
  · rw [hix, get?_set_same]
    rfl
  · rw [get?_set_other _ hix]
    exact h i (by omega)

theorem stepQuantize_position {s t : State} (hseq : s.seq = .quantizing) (hrow : inRow s) (hx : s.x.toNat ≤ s.w.toNat)
    (hslb : slbWritten s s.x.toNat) (h : stepQuantize s = .next t) : positionOk t := by
  rcases stepQuantize_next h with ⟨-, -, rfl⟩ | ⟨hlt, -, pixel, -, rfl⟩ | ⟨hge, rfl⟩
  · rw [positionOk, hseq]
    exact ⟨hrow, hx, hslb⟩
  · obtain ⟨quad, draws, e⟩ := quantizeStep_writes (latchPixel (pixelIndex s.w s.y s.x) pixel s)
    have hw := s.w.isLt
    have hx1 : (s.x + 1#16).toNat = s.x.toNat + 1 := by bv_omega
    rw [e, positionOk, storePixel_seq, latchPixel_seq, hseq]
    refine ⟨hrow, ?_, slbWritten_storePixel (s := { latchPixel _ pixel s with q := quad, draws := draws }) hslb hx1.le⟩
    show (s.x + 1#16).toNat ≤ s.w.toNat
    omega
  · have hwx : s.w.toNat = s.x.toNat := by omega
    have ⟨⟨_, hw, _⟩, _⟩ := hrow
    exact ⟨hw, fun i hi => hslb i (hwx ▸ hi), .inr hrow⟩

/-! ### The encoder -/

/-- The start of a plane (R162). -/
theorem atChunk_enterPlane {s : State} (h : inScanline s) : AtChunk (enterPlane s) := by
  have ⟨hw, _⟩ := h
  exact ⟨h, hw, Nat.zero_add _, Nat.zero_le _⟩

theorem execMark_position {s t : State} (hseq : s.seq = .marking) (hs : inScanline s) (h : execMark s.w s = .next t) :
    positionOk t := by
  rcases emitScanlineRecord_outcome h with ⟨-, u, ⟨_, _, _, _, rfl, -⟩, rfl⟩ | ⟨ho, u, ⟨_, _, _, _, rfl, -⟩, hcase⟩
  · exact atChunk_enterPlane hs
  · rcases hcase with rfl | ⟨left, -, -, rfl | rfl⟩
    · exact atChunk_enterPlane hs
    · rw [positionOk, setMp_seq, hseq]
      exact hs
    · exact positionOk_failing_of_inRow (inScanline_write hs ho)

/-- Past a chunk of what `REM` allows the position's clause holds again, in this plane, the next one, or after the scanline
(R165, R166, R210). -/
theorem advance_position {s : State} {n : Nat} (hs : AtChunk s) (hn : n ≤ s.rem.toNat) : positionOk (advance n s) := by
  obtain ⟨hscan, -, hx, -⟩ := hs
  have hw := s.w.isLt
  rcases advance_cases n s with ⟨hrem, e⟩ | ⟨-, -, e⟩ | ⟨-, -, ho, e⟩ | ⟨-, -, ho, -, e⟩ | ⟨-, -, ho, hy, e⟩ <;> rw [e]
  · have hsum : (s.x + BitVec.ofNat 16 n).toNat + (s.rem - BitVec.ofNat 16 n).toNat = s.w.toNat := by bv_omega
    exact ⟨hscan, hrem, hsum, Nat.zero_le _⟩
  · exact atChunk_enterPlane (s := { passChunk n s with p := s.p + 1#2 }) hscan
  · exact ⟨.inl ho, inScanline_encsl hscan ho⟩
  · obtain ⟨hopen, -, -⟩ := inScanline_write hscan ho
    exact ⟨hopen, rfl⟩
  · obtain ⟨hopen, -, hrow⟩ := inScanline_write hscan ho
    exact ⟨⟨hopen, .inr rfl, toNat_sub_one_lt hy hrow.le⟩, Nat.zero_le _, fun i hi => absurd hi (Nat.not_lt_zero i)⟩

theorem length_of_readPlane {slb : Memory Quad} {p : BitVec 2} (n : Nat) : ∀ {i : Nat} {data : List Byte},
    readPlane slb p i n = .ok data → data.length = n := by
  induction n with
  | zero =>
    intro i data h
    cases h
    rfl
  | succ n ih =>
    intro i data h
    rw [readPlane] at h
    split at h
    · cases h
    · split at h
      · cases h
      · rename_i rest hrest
        cases h
        rw [List.length_cons, ih hrest]

theorem setK_toNat_le (n left : Nat) (s : State) : (setK n left s).k.toNat ≤ n := by
  rw [setK_k, BitVec.toNat_ofNat]
  refine (Nat.mod_le _ _).trans ?_
  split <;> omega

theorem execLit_position {data : List Byte} {s t : State} (hseq : s.seq = .chunking) (hs : AtChunk s)
    (hdata : data.length = chunkLength s.rem) (h : execLit data s = .next t) : positionOk t := by
  have hlen : data.length ≤ s.rem.toNat := hdata ▸ Nat.min_le_right _ _
  rcases emitScanlineRecord_outcome (execLit_next h).2 with ⟨-, u, ⟨_, _, _, _, rfl, -⟩, rfl⟩
    | ⟨ho, u, ⟨_, _, _, _, rfl, -⟩, hcase⟩
  · exact advance_position hs hlen
  · have ⟨hscan, hrem, hx, _⟩ := hs
    rcases hcase with rfl | ⟨left, -, -, rfl | rfl⟩
    · exact advance_position hs hlen
    · refine (positionOk_chunking ?_).mpr ⟨hscan, hrem, hx, (setK_toNat_le _ _ _).trans hdata.le⟩
      exact hseq
    · exact positionOk_failing_of_inRow (inScanline_write hscan ho)

/-! ### The end of a command -/

/-- After a response the block waits with `SLB` unwritten (R28, R97). -/
theorem respond_position {status : Status} {payload : List Byte} {s : State} (hclosed : sinkClosed s)
    (hslb : s.slb = [] ∨ (Status.ranCommand status = true ∧ s.op ≠ Config.opQuant)) :
    positionOk (respond status payload s) := by
  have hnil : (respond status payload s).slb = [] := by
    rcases hslb with h | ⟨hran, ho⟩
    · exact (respond_slb_cases status payload s).elim (fun e => e.trans h) id
    · rw [respond, if_pos hran]
      exact if_neg ho
  rw [positionOk, respond_seq]
  exact ⟨by simpa only [sinkClosed, respond_handle, respond_st] using hclosed, hnil⟩

/-! ### Acceptances -/

/-- A waiting block that accepts a descriptor meets the clause of the command's first position (R92, R171, R191). -/
theorem accept_position {s : State} (c : List Byte) (hclosed : sinkClosed s) (hslb : s.slb = []) :
    positionOk (accept (decode c) s) := by
  rcases accept_cases (onCommandPort_decode c) s with ⟨_, _, _, -, e⟩ | ⟨row, hd, e⟩ | ⟨w, row, hd, hw, e⟩
    | ⟨_, _, _, -, -, e⟩ | ⟨_, _, _, -, hw, hh, e⟩ | ⟨_, -, e⟩ <;> rw [e]
  · exact ⟨rfl, hclosed, hslb⟩
  · obtain rfl := List.eq_nil_of_length_eq_zero (length_row_of_decode hd)
    exact ⟨nofun, hclosed, hslb⟩
  · refine ⟨hw, fun i hi => ?_, .inl ⟨rfl, hclosed⟩⟩
    have hi' : i < row.length := (length_row_of_decode hd).symm ▸ hi
    rw [startScanline_slb, acceptEncsl_slb, get?_slbLoad, if_pos ⟨Nat.zero_le i, by omega⟩]
    simpa using hi'
  · exact ⟨nofun, hclosed, hslb⟩
  · exact ⟨rfl, hw, hh, hclosed, hslb⟩
  · exact ⟨nofun, hclosed, hslb⟩

/-! ### Actions -/

theorem stepOpen_position {s t : State} (hseq : s.seq = .opening) (hpos : positionOk s) (h : stepOpen s = .next t) :
    positionOk t := by
  rcases stepOpen_next h with ⟨-, rfl⟩ | ⟨later, -, rfl⟩ | ⟨_, later, -, rfl⟩
  · exact hpos
  all_goals
    rw [positionOk, hseq] at hpos
    obtain ⟨hop, hw, hh, hclosed, hslb⟩ := hpos
  · exact ⟨⟨hop, hw, hh, rfl⟩, rfl, Nat.zero_le _, (by decide : (0#7).toNat < 11)⟩
  · exact ⟨nofun, hclosed, hslb⟩

/-- Every action meets the clause of the position it leads to. -/
theorem tick_position {s t : State} (hpos : positionOk s) (h : tick s = .next t) : positionOk t := by
  have hclause := hpos
  rcases tick_next h with ⟨-, rfl⟩ | ⟨hseq, ho⟩ | ⟨_, line, start, next, hline, -, hh⟩ | ⟨hseq, hq⟩ | ⟨hseq, hm⟩
    | ⟨hseq, data, hd, hl⟩ | ⟨hseq, hc⟩ | ⟨hseq, rfl⟩ | ⟨hseq, rfl⟩ | ⟨hseq, rfl⟩ | ⟨exception, hseq, rfl⟩
  · exact hpos
  · exact stepOpen_position hseq hpos ho
  · rcases hline with ⟨hseq, rfl, rfl, rfl⟩ | ⟨hseq, rfl, rfl, rfl⟩ | ⟨hseq, rfl, rfl, rfl⟩ | ⟨hseq, rfl, rfl, rfl⟩
      | ⟨hseq, rfl, rfl, rfl⟩
    · exact headerRecord_position hh hpos (fun u hu _ _ => by rw [positionOk, hu, hseq]; exact Iff.rfl) (by decide)
        (fun u hopen hst => inHeader_setHp hopen hst (Nat.le_refl _) (by decide) (by decide))
    · exact headerRecord_position hh hpos (fun u hu _ _ => by rw [positionOk, hu, hseq]; exact Iff.rfl) (by decide)
        (fun u hopen hst => inHeader_setHp hopen hst (Nat.le_refl _) (by decide) (by decide))
    · exact headerRecord_position hh hpos (fun u hu _ _ => by rw [positionOk, hu, hseq]; exact Iff.rfl) (by decide)
        (fun u hopen hst => inHeader_setHp hopen hst (Nat.le_refl _) (by decide) (by decide))
    · exact headerRecord_position hh hpos (fun u hu _ _ => by rw [positionOk, hu, hseq]; exact Iff.rfl) (by decide)
        (fun u hopen hst => inHeader_setHp hopen hst (Nat.le_refl _)
          (Nat.lt_add_of_pos_right (length_reslineBytes_bounds u.h u.w).1) (by decide))
    · have hlen := (length_reslineBytes_bounds s.h s.w).2
      exact headerRecord_position hh hpos (fun u hu h1 h2 => by rw [positionOk, hu, hseq, ← h1, ← h2]) (by omega)
        (fun u hopen _ => positionOk_enterRows hopen)
  · rw [positionOk, hseq] at hclause
    obtain ⟨hrow, hx, hslb⟩ := hclause
    exact stepQuantize_position hseq hrow hx hslb hq
  · rw [positionOk, hseq] at hclause
    exact execMark_position hseq hclause hm
  · exact execLit_position hseq ((positionOk_chunking hseq).mp hpos) (length_of_readPlane _ hd) hl
  · rw [positionOk, hseq] at hclause
    obtain ⟨⟨hop, -⟩, -⟩ := hclause
    obtain ⟨-, rfl⟩ := stepClose_next hc
    exact ⟨.inr hop, rfl, .inr rfl⟩
  · rw [positionOk, hseq] at hclause
    obtain ⟨hop, hclosed⟩ := hclause
    refine respond_position hclosed (.inr ⟨rfl, ?_⟩)
    rcases hop with e | e <;> rw [e] <;> decide
  · rw [positionOk, hseq] at hclause
    obtain ⟨-, hclosed, hslb⟩ := hclause
    obtain ⟨quad, draws, e⟩ := quantizeStep_writes s
    rw [e]
    exact respond_position hclosed (.inl hslb)
  · rw [positionOk, hseq] at hclause
    obtain ⟨⟨hop, -⟩, -⟩ := hclause
    exact ⟨nofun, ⟨rfl, .inr rfl⟩, hop⟩
  · rw [positionOk, hseq] at hclause
    obtain ⟨-, hclosed, hexc⟩ := hclause
    refine respond_position hclosed ?_
    split at hexc
    · rename_i he
      exact .inr ⟨he ▸ rfl, by rw [hexc]; decide⟩
    · exact .inl hexc

/-! ### The invariant -/

theorem tick_keeps_inv {s t : State} (hs : Inv s) (h : tick s = .next t) : Inv t := by
  obtain ⟨hmem, hpos⟩ := hs
  exact ⟨memoriesOk_of_frame (tick_frame h) hmem, tick_position hpos h⟩

theorem accept_keeps_inv {s : State} (c : List Byte) (later : List (List Byte)) (hs : Inv s) (hseq : s.seq = .idle) :
    Inv (accept (decode c) { s with cmd := later }) := by
  obtain ⟨hmem, hpos⟩ := hs
  rw [positionOk, hseq] at hpos
  obtain ⟨hclosed, hslb⟩ := hpos
  exact ⟨accept_keeps_memoriesOk c (s := { s with cmd := later }) hmem,
    accept_position c (s := { s with cmd := later }) hclosed hslb⟩

theorem resetBlock_keeps_inv {s : State} (hs : Inv s) : Inv (resetBlock s) :=
  ⟨resetBlock_keeps_memoriesOk hs.1, ⟨rfl, .inl rfl⟩, rfl⟩

/-- The invariant reads neither the sink's answers to come nor the reset request. -/
theorem inv_behind (f : List SinkAnswer → List SinkAnswer) (r : Option Nat → Option Nat) (s : State) :
    Inv (behind f r s) ↔ Inv s := by
  have hpos : positionOk (behind f r s) ↔ positionOk s := by
    unfold positionOk
    rw [show (behind f r s).seq = s.seq from rfl]
    cases s.seq <;> exact Iff.rfl
  exact and_congr Iff.rfl hpos

/-- Settles O45: acceptances, actions and resets keep the invariant, and nothing else a step does is seen by it. -/
theorem stepKeepsInvariant : Obligations.StepKeepsInvariant :=
  fun _ _ => step_keeps (P := Inv) (fun _ => resetBlock_keeps_inv) (fun _ c later hs hi => accept_keeps_inv c later hs hi)
    (fun _ _ => tick_keeps_inv) inv_behind

/-- Settles O44: the memories are empty and the sink is closed. -/
theorem resetSatisfiesInvariant : Obligations.ResetSatisfiesInvariant :=
  ⟨⟨rfl, rfl, rfl, fun _ _ => rfl⟩, ⟨rfl, .inl rfl⟩, rfl⟩

end Sys2Proof.Machine
end

section
/-! PROOFS. From a state with the invariant a step goes on, or reads a pixel the image does not hold; the step at a record's
position; the status word and the reset values. -/

namespace Sys2Proof.Machine

/-- The outcome is a next state, or the refusal of a read of a pixel that `img` does not hold (U7). -/
def GoesOn (img : Memory Pixel) (o : Host.Outcome State Fault Refusal) : Prop :=
  (∃ t, o = .next t) ∨ ∃ i, o = .refused (.imageNotPopulated i) ∧ Memory.get? img i = none

theorem goesOn_onNext {img : Memory Pixel} {o : Host.Outcome State Fault Refusal} (f : State → State) (h : GoesOn img o) :
    GoesOn img (onNext f o) := by
  rcases h with ⟨t, rfl⟩ | ⟨i, rfl, hi⟩
  · exact .inl ⟨f t, rfl⟩
  · exact .inr ⟨i, rfl, hi⟩

/-! ### Actions -/

theorem headerRecord_goesOn {img : Memory Pixel} {s : State} (h : writeOpen s) (line : List Byte) (start : Nat)
    (next : State → State) : GoesOn img (headerRecord line start next s) := by
  obtain ⟨-, -, -, hopen⟩ := h
  exact .inl (emitRecord_open hopen)

theorem emitScanlineRecord_goesOn {img : Memory Pixel} {s : State} (h : inScanline s) (bytes : List Byte)
    (save : Nat → State → State) (next : State → State) : GoesOn img (emitScanlineRecord bytes save next s) := by
  by_cases ho : s.op = Config.opEncsl
  · exact .inl ⟨_, emitScanlineRecord_encsl ho⟩
  · obtain ⟨⟨-, -, -, hopen⟩, -⟩ := inScanline_write h ho
    rw [emitScanlineRecord_write ho]
    exact .inl (emitRecord_open hopen)

theorem stepOpen_goesOn (img : Memory Pixel) (s : State) : GoesOn img (stepOpen s) := by
  unfold stepOpen
  split
  · exact .inl ⟨_, rfl⟩
  · exact .inl ⟨_, rfl⟩
  · exact .inl ⟨_, rfl⟩

/-- The only action that can be refused: a pixel that is not there (R62, U7). -/
theorem stepQuantize_goesOn (s : State) : GoesOn s.img (stepQuantize s) := by
  unfold stepQuantize memRead
  split_ifs
  · cases hp : Memory.get? s.img (pixelIndex s.w s.y s.x).toNat with
    | none => exact .inr ⟨_, rfl, hp⟩
    | some pixel => exact .inl ⟨_, rfl⟩
  · exact .inl ⟨_, rfl⟩
  · exact .inl ⟨_, rfl⟩

/-- The chunk at `X` is written whole, lies within the capacity, and has 1 to 127 bytes (R28, R113, U10). -/
theorem atChunk_chunkData {s : State} (h : AtChunk s) :
    ∃ data, chunkData s = .ok data ∧ 1 ≤ data.length ∧ data.length ≤ Config.chunkMax := by
  obtain ⟨⟨-, hslb, -⟩, hrem, hx, -⟩ := h
  have hw := s.w.isLt
  have hpos : s.rem.toNat ≠ 0 := fun h0 => hrem (BitVec.eq_of_toNat_eq (by simpa using h0))
  have hle : chunkLength s.rem ≤ s.rem.toNat := Nat.min_le_right _ _
  obtain ⟨data, hd, hlen⟩ := readPlane_of_written s.slb s.p (chunkLength s.rem) s.x.toNat (by rw [Config.slbCap]; omega)
    (fun j _ hj => hslb j (by omega))
  refine ⟨data, hd, ?_, ?_⟩ <;> rw [hlen, chunkLength, Config.chunkMax] <;> omega

/-- From a state that meets its position's clause an action goes on. -/
theorem tick_goesOn {s : State} (hpos : positionOk s) : GoesOn s.img (tick s) := by
  unfold positionOk at hpos
  unfold tick
  cases hseq : s.seq <;> rw [hseq] at hpos <;> dsimp only at hpos ⊢
  case idle => exact .inl ⟨_, rfl⟩
  case opening => exact stepOpen_goesOn s.img s
  case header1 => exact headerRecord_goesOn hpos.1 _ _ _
  case header2 => exact headerRecord_goesOn hpos.1 _ _ _
  case header3 => exact headerRecord_goesOn hpos.1 _ _ _
  case header4 => exact headerRecord_goesOn hpos.1 _ _ _
  case resolution => exact headerRecord_goesOn hpos.1 _ _ _
  case quantizing => exact stepQuantize_goesOn s
  case converting => exact .inl ⟨_, rfl⟩
  case marking => exact emitScanlineRecord_goesOn hpos _ _ _
  case chunking =>
    obtain ⟨data, hd, hlen⟩ := atChunk_chunkData hpos
    rw [hd]
    dsimp only
    rw [execLit, if_pos hlen]
    exact emitScanlineRecord_goesOn hpos.1 _ _ _
  case closing =>
    obtain ⟨⟨-, -, -, hopen⟩, -⟩ := hpos
    exact .inl ⟨_, if_pos hopen⟩
  case responding => exact .inl ⟨_, rfl⟩
  case failing => exact .inl ⟨_, rfl⟩
  case raising exception => exact .inl ⟨_, rfl⟩

/-! ### Runs and steps -/

/-- An action neither loses the invariant nor changes the image, so a run of them goes on as each does. -/
theorem runCommand_goesOn (n : Nat) : ∀ {s : State}, Inv s → GoesOn s.img (runCommand n s) := by
  induction n with
  | zero => intro s _; exact .inl ⟨s, rfl⟩
  | succ n ih =>
    intro s hs
    rw [runCommand]
    split
    · exact .inl ⟨s, rfl⟩
    · rcases tick_goesOn hs.2 with ⟨t, ht⟩ | ⟨i, ht, hi⟩ <;> rw [ht]
      · obtain ⟨⟨-, -, -, -, himg, -⟩, -⟩ := tick_frame ht
        exact himg ▸ ih (tick_keeps_inv hs ht)
      · exact .inr ⟨i, rfl, hi⟩

theorem accept_decode_img (c : List Byte) (s : State) : (accept (decode c) s).img = s.img := by
  rcases accept_cases (onCommandPort_decode c) s with ⟨_, _, _, -, e⟩ | ⟨_, -, e⟩ | ⟨_, _, -, -, e⟩
    | ⟨_, _, _, -, -, e⟩ | ⟨_, _, _, -, -, -, e⟩ | ⟨_, -, e⟩ <;> rw [e] <;> rfl

theorem atomicStep_goesOn {s : State} (hs : Inv s) : GoesOn s.img (atomicStep s) := by
  have hone : Inv (oneAnswer s) := (inv_behind (List.take 1) id s).mpr hs
  unfold atomicStep
  split
  · split
    · exact .inl ⟨s, rfl⟩
    · exact .inl ⟨_, rfl⟩
  · exact goesOn_onNext _ (tick_goesOn hone.2)

/-- A command that a waiting block accepts goes on. -/
theorem exec_decode_goesOn {s : State} (hs : Inv s) (hseq : s.seq = .idle) (c : List Byte) (later : List (List Byte)) :
    GoesOn s.img (exec (decode c) { s with cmd := later }) := by
  obtain ⟨k, hk⟩ := exec_command (onCommandPort_decode c)
  have hrun := runCommand_goesOn (k + 1) (accept_keeps_inv c later hs hseq)
  rwa [accept_decode_img, ← hk] at hrun

/-- Settles O46: with the invariant every action goes on, and so does every run of them. -/
theorem invariantStepsDoNotStop : Obligations.InvariantStepsDoNotStop := by
  intro s hs
  show GoesOn s.img (step s)
  unfold step
  split
  · exact .inl ⟨_, rfl⟩
  · exact goesOn_onNext _ (atomicStep_goesOn hs)
  · split
    · rename_i hseq
      split
      · exact .inl ⟨s, rfl⟩
      · exact exec_decode_goesOn hs hseq _ _
    · exact tick_goesOn hs.2

/-! ### The step at a record's position -/

/-- In the middle of a command, with no reset on its way, a step is one action. -/
theorem step_eq_tick {s : State} (hr : s.resetReq = none) (hseq : s.seq ≠ .idle) : step s = tick s := by
  unfold step
  rw [hr]
  exact if_neg hseq

/-- Settles O6: the step is the action at `seq`, and a record's action is that record's execution. -/
theorem stepRunsRecordAtPosition : Obligations.StepRunsRecordAtPosition := by
  intro s hr
  have hstep : s.seq ≠ .idle → step s = tick s := step_eq_tick hr
  refine ⟨?_, ?_, ?_, ?_, ?_, ?_, ?_, ?_, ?_⟩
  case refine_7 =>
    intro data hseq hd
    rw [hstep (by rw [hseq]; decide), tick, hseq]
    dsimp only
    rw [hd]
    rfl
  case refine_9 =>
    intro exception hseq
    rw [hstep (by rw [hseq]; nofun), tick, hseq]
    rfl
  all_goals
    intro hseq
    rw [hstep (by rw [hseq]; decide), tick, hseq]
    rfl

/-! ### The status word and the reset values -/

/-- Settles O41: each field of `STATUS` is cut out of the concatenation that R39 makes of the codes. -/
theorem statusWordFields : Obligations.StatusWordFields := by
  refine ⟨fun s => ⟨?_, ?_, ?_, ?_⟩, rfl⟩
  · rw [State.statusWord, BitVec.extractLsb'_append_eq_right]
    cases s.st <;> rfl
  · rw [State.statusWord, BitVec.extractLsb'_append_eq_of_le (by decide), BitVec.extractLsb'_append_eq_right]
    cases s.err <;> rfl
  · simp only [State.statusWord, BitVec.getLsbD_append]
    cases s.handle <;> rfl
  · simp only [State.statusWord, BitVec.getLsbD_append]
    rfl

/-- Settles O42: each register of the reset state holds the value R45 gives it. -/
theorem resetValues : Obligations.ResetValues :=
  ⟨rfl, rfl, rfl, rfl, rfl, rfl, rfl, rfl, rfl, rfl, rfl, rfl, rfl, fun _ => rfl⟩

end Sys2Proof.Machine
end

section
/-! PROOFS. A record that waits and resumes: the counters `HP`, `mp` and `K` keep its place (R36, R204). -/

namespace Sys2Proof.Machine

/-! ### Emitting in two portions -/

/-- The sink's operations neither read nor write what `g` writes. -/
structure Unseen (g : State → State) : Prop where
  op : ∀ s, (g s).op = s.op
  sinkAnswers : ∀ s, (g s).sinkAnswers = s.sinkAnswers
  handle : ∀ s, (g s).handle = s.handle
  accepted : ∀ b later s, accepted b later (g s) = g (accepted b later s)
  rejected : ∀ b landed later s, rejected b landed later (g s) = g (rejected b landed later s)
  answering : ∀ answers s, answering answers (g s) = g (answering answers s)

theorem unseen_setHp (v : Nat) : Unseen (setHp v) :=
  ⟨fun _ => rfl, fun _ => rfl, fun _ => rfl, fun _ _ _ => rfl, fun _ _ _ _ => rfl, fun _ _ => rfl⟩

theorem unseen_setMp (v : Nat) : Unseen (setMp v) :=
  ⟨fun _ => rfl, fun _ => rfl, fun _ => rfl, fun _ _ _ => rfl, fun _ _ _ _ => rfl, fun _ _ => rfl⟩

theorem unseen_setK (n left : Nat) : Unseen (setK n left) :=
  ⟨fun _ => rfl, fun _ => rfl, fun _ => rfl, fun _ _ _ => rfl, fun _ _ _ _ => rfl, fun _ _ => rfl⟩

theorem emit_unseen {g : State → State} (hg : Unseen g) (bytes : List Byte) : ∀ s,
    emit bytes (g s) = (emit bytes s).map g := by
  induction bytes with
  | nil => intro s; rfl
  | cons b bytes ih =>
    intro s
    simp only [emit, hg.sinkAnswers]
    split
    · rfl
    · rw [hg.accepted, ih]
    · rw [hg.rejected]
      rfl

/-- With answers for the first `n` bytes and then others, the first `n` bytes are accepted and the rest meets the others. -/
theorem emit_resumed (bytes : List Byte) (later : List SinkAnswer) : ∀ (n : Nat) (s : State), n ≤ bytes.length →
    answersOk s n [] →
    emit bytes (answering (s.sinkAnswers ++ later) s) = emit (bytes.drop n) (answering later (wrote (bytes.take n) [] s)) := by
  induction bytes with
  | nil =>
    intro n s hn h
    obtain rfl : n = 0 := Nat.le_zero.mp hn
    rw [List.drop_zero, List.take_zero, wrote_nil, show s.sinkAnswers = [] from h]
    rfl
  | cons b bytes ih =>
    intro n s hn h
    cases n with
    | zero =>
      rw [List.drop_zero, List.take_zero, wrote_nil, show s.sinkAnswers = [] from h]
      rfl
    | succ n =>
      have hs : s.sinkAnswers = .ok :: List.replicate n .ok := by
        simpa only [answersOk, List.replicate_succ, List.append_nil] using h
      have hrest := ih n (accepted b (List.replicate n .ok) s) (Nat.le_of_succ_le_succ hn)
        (by rw [answersOk, accepted_sinkAnswers, List.append_nil])
      rw [accepted_sinkAnswers, wrote_accepted] at hrest
      rw [hs, List.drop_succ_cons, List.take_succ_cons, ← hrest]
      rfl

/-- `save` keeps a record's place by what the sink does not see: a later save replaces an earlier one, and what follows the
record forgets it. -/
structure KeepsPlace (save : Nat → State → State) (next : State → State) : Prop where
  unseen : ∀ left, Unseen (save left)
  again : ∀ left left' s, save left (save left' s) = save left s
  forgotten : ∀ left s, next (save left s) = next s

theorem emitRecord_resumed {bytes : List Byte} {save : Nat → State → State} {next : State → State} {s : State} {n : Nat}
    {later : List SinkAnswer} (hp : KeepsPlace save next) (hn : n < bytes.length) (h : answersOk s n []) :
    emitRecord (bytes.drop n) save next (answering later (save (bytes.length - n) (wrote (bytes.take n) [] s)))
      = emitRecord bytes save next (answering (s.sinkAnswers ++ later) s) := by
  have hg := hp.unseen (bytes.length - n)
  unfold emitRecord
  rw [hg.answering, hg.handle, emit_unseen hg, emit_resumed bytes later n s hn.le h]
  show (if s.handle then _ else _) = if s.handle then _ else _
  congr 1
  cases emit (bytes.drop n) (answering later (wrote (bytes.take n) [] s)) with
  | done u => exact congrArg Host.Outcome.next (hp.forgotten _ u)
  | waiting left u => exact congrArg Host.Outcome.next (hp.again left _ u)
  | failed left u => exact congrArg (fun v => Host.Outcome.next (raise .writeFailure v)) (hp.again left _ u)

/-- A record comes to the same whether it waits after `n` bytes or not, if the place it saves there leaves it all bytes but
those. -/
theorem record_resumed {act : State → Host.Outcome State Fault Refusal} {rest : State → List Byte}
    {save : Nat → State → State} {next : State → State} {s t : State} {n : Nat} {later : List SinkAnswer}
    (hp : KeepsPlace save next) (hact : ∀ u, u.op = s.op → act u = emitRecord (rest u) save next u)
    (hanswers : ∀ answers u, rest (answering answers u) = rest u)
    (hplace : ∀ u, rest (save ((rest s).length - n) u) = (rest s).drop n)
    (hopen : s.handle = true) (hn : n < (rest s).length) (ha : answersOk s n []) (h : act s = .next t) :
    act (answering later t) = act (answering (s.sinkAnswers ++ later) s) := by
  rw [hact s rfl, emitRecord_waiting hopen hn ha] at h
  obtain rfl := Host.Outcome.next.inj h
  have hop := (hp.unseen ((rest s).length - n)).op (wrote ((rest s).take n) [] s)
  rw [hact (answering later _) hop, hact (answering (s.sinkAnswers ++ later) s) rfl, hanswers, hanswers, hplace]
  exact emitRecord_resumed hp hn ha

/-! ### The records -/

/-- A header line: `HP` counts the bytes before the wait. -/
theorem headerRecord_resumed {line : List Byte} {start : Nat} {next : State → State} {s t : State} {n : Nat}
    {later : List SinkAnswer} (hlow : start ≤ s.hp.toNat) (h128 : start + line.length < 128) (hopen : s.handle = true)
    (hn : n < (line.drop (s.hp.toNat - start)).length) (ha : answersOk s n [])
    (h : headerRecord line start next s = .next t) :
    headerRecord line start next (answering later t)
      = headerRecord line start next (answering (s.sinkAnswers ++ later) s) := by
  refine record_resumed (rest := fun u => line.drop (u.hp.toNat - start))
    ⟨fun _ => unseen_setHp _, fun _ _ _ => rfl, fun _ _ => rfl⟩ (fun _ _ => rfl) (fun _ _ => rfl) (fun u => ?_)
    hopen hn ha h
  have hhp := setHp_hp (start + line.length - ((line.drop (s.hp.toNat - start)).length - n)) u
  rw [List.length_drop] at hn hhp
  show line.drop _ = (line.drop _).drop n
  rw [List.length_drop, hhp, List.drop_drop, BitVec.toNat_ofNat]
  congr 1
  omega

/-- The marker: `mp` counts the bytes before the wait. -/
theorem execMark_resumed {w : Half} {s t : State} {n : Nat} {later : List SinkAnswer} (ho : s.op ≠ Config.opEncsl)
    (hopen : s.handle = true) (hn : n < ((markerBytes w).drop s.mp.toNat).length) (ha : answersOk s n [])
    (h : execMark w s = .next t) :
    execMark w (answering later t) = execMark w (answering (s.sinkAnswers ++ later) s) := by
  refine record_resumed (rest := fun u => (markerBytes w).drop u.mp.toNat) (save := fun left u => setMp (4 - left) u)
    ⟨fun _ => unseen_setMp _, fun _ _ _ => rfl, fun _ _ => rfl⟩
    (fun u hu => emitScanlineRecord_write (hu.symm ▸ ho)) (fun _ _ => rfl) (fun u => ?_) hopen hn ha h
  have hmp := setMp_mp (4 - (((markerBytes w).drop s.mp.toNat).length - n)) u
  rw [List.length_drop, length_markerBytes] at hn hmp
  show (markerBytes w).drop _ = ((markerBytes w).drop _).drop n
  rw [List.length_drop, length_markerBytes, hmp, List.drop_drop, BitVec.toNat_ofNat]
  congr 1
  omega

/-- With some bytes left, `K` stands for them: the data bytes left, or all of the record while its length byte is left. -/
theorem chunkRest_setK {data : List Byte} {left : Nat} (h127 : data.length ≤ Config.chunkMax) (hleft : 1 ≤ left)
    (u : State) : chunkRest data (setK data.length left u).k
      = if left ≤ data.length then data.drop (data.length - left) else chunkBytes data := by
  rw [setK_k]
  by_cases hle : left ≤ data.length
  · rw [Config.chunkMax] at h127
    have hk : (BitVec.ofNat 7 left).toNat = left := by
      rw [BitVec.toNat_ofNat]
      exact Nat.mod_eq_of_lt (by omega)
    have hk0 : BitVec.ofNat 7 left ≠ 0#7 := fun h0 => by
      rw [h0] at hk
      exact absurd hk.symm (Nat.ne_of_gt hleft)
    rw [if_pos hle, if_pos hle, chunkRest, if_neg hk0, hk]
  · rw [if_neg hle, if_neg hle]
    rfl

/-- `K`, set when some bytes of a chunk's rest have been accepted, leaves the others (R36). -/
theorem chunkRest_drop {data : List Byte} {k : BitVec 7} {n : Nat} (h127 : data.length ≤ Config.chunkMax)
    (hk : k.toNat ≤ data.length) (hn : n < (chunkRest data k).length) (u : State) :
    chunkRest data (setK data.length ((chunkRest data k).length - n) u).k = (chunkRest data k).drop n := by
  rw [chunkRest_setK h127 (by omega)]
  by_cases hk0 : k = 0#7
  · rw [chunkRest, if_pos hk0, length_chunkBytes] at hn ⊢
    cases n with
    | zero => exact if_neg (by omega)
    | succ n =>
      rw [if_pos (by omega), show data.length - (data.length + 1 - (n + 1)) = n by omega]
      rfl
  · rw [chunkRest, if_neg hk0, List.length_drop] at hn ⊢
    rw [if_pos (by omega), List.drop_drop]
    congr 1
    omega

/-- A literal chunk: `K` counts the data bytes after the wait. -/
theorem execLit_resumed {data : List Byte} {s t : State} {n : Nat} {later : List SinkAnswer}
    (ho : s.op ≠ Config.opEncsl) (hlen : 1 ≤ data.length ∧ data.length ≤ Config.chunkMax) (hk : s.k.toNat ≤ data.length)
    (hopen : s.handle = true) (hn : n < (chunkRest data s.k).length) (ha : answersOk s n [])
    (h : execLit data s = .next t) :
    execLit data (answering later t) = execLit data (answering (s.sinkAnswers ++ later) s) := by
  refine record_resumed (rest := fun u => chunkRest data u.k) (save := setK data.length) (next := advance data.length)
    ⟨fun _ => unseen_setK _ _, fun _ _ _ => rfl, fun _ _ => by unfold advance; rfl⟩ (fun u hu => ?_) (fun _ _ => rfl)
    (chunkRest_drop hlen.2 hk hn) hopen hn ha h
  rw [execLit, if_pos hlen, emitScanlineRecord_write (hu.symm ▸ ho)]

/-- Settles O30: what a record saves when it waits leaves it all bytes but those already accepted. -/
theorem resumedRecordIsSameRecord : Obligations.ResumedRecordIsSameRecord := by
  intro i s t n later hwf hop hopen hplace hn ha h
  have ho : s.op ≠ Config.opEncsl := by rw [hop]; decide
  cases i with
  | hdrline1 => exact headerRecord_resumed (Nat.zero_le _) (by decide) hopen hn ha h
  | hdrline2 => exact headerRecord_resumed hplace.1 (by decide) hopen hn ha h
  | hdrline3 => exact headerRecord_resumed hplace.1 (by decide) hopen hn ha h
  | hdrline4 => exact headerRecord_resumed hplace.1 (by decide) hopen hn ha h
  | resline height w =>
    have hlen := (length_reslineBytes_bounds height w).2
    exact headerRecord_resumed hplace.1 (by omega) hopen hn ha h
  | mark w => exact execMark_resumed ho hopen hn ha h
  | lit data =>
    simp only [Instr.wellFormed, Bool.and_eq_true, decide_eq_true_eq] at hwf
    exact execLit_resumed ho hwf hplace hopen hn ha h
  | quant _ _ _ => exact hplace.elim
  | encsl _ _ => exact hplace.elim
  | write _ _ _ => exact hplace.elim
  | reservedCommand _ => exact hplace.elim
  | run _ _ => exact hplace.elim
  | rsp _ _ => exact hplace.elim

end Sys2Proof.Machine
end

section
/-! PROOFS. What an action does to the sink, the trace and the responses: streams, trace and responses only grow, the trace by
one port operation for each answer taken; the load of one pixel. -/

namespace Sys2Proof.Machine

/-! ### What only grows -/

/-- From `s` to `t` the trace and the responses have only grown, the trace by one operation for each answer the sink gave,
or by one without an answer (R77, R91); no stream but the selected one is touched (R63). -/
structure Appends (s t : State) : Prop where
  operations : ∃ taken ops, s.sinkAnswers = taken ++ t.sinkAnswers ∧ t.trace = s.trace ++ ops
    ∧ ops.length ≤ max 1 taken.length
  rsp : s.rsp <+: t.rsp
  others : keepsOtherStreams s.pathtok s t

/-- The selected stream has only grown, too (R82). -/
structure Extends (s t : State) : Prop extends Appends s t where
  selected : State.stream s s.pathtok <+: State.stream t s.pathtok

theorem stream_of_streams {s t : State} (h : t.streams = s.streams) (tok : Word) : State.stream t tok = State.stream s tok := by
  rw [State.stream, h]
  rfl

/-- An update that uses no sink, records at most one port operation and takes back no response. -/
theorem extends_of_one {s t : State} (ops : List PortOp) (hops : ops.length ≤ 1) (htrace : t.trace = s.trace ++ ops)
    (hrsp : s.rsp <+: t.rsp) (hstreams : t.streams = s.streams) (hanswers : t.sinkAnswers = s.sinkAnswers) :
    Extends s t where
  operations := ⟨[], ops, hanswers.symm, htrace, hops.trans (le_max_left _ _)⟩
  rsp := hrsp
  others _ _ := stream_of_streams hstreams _
  selected := by rw [stream_of_streams hstreams]

/-- What the ports see of `t` is what they see of `s`. -/
structure SamePorts (s t : State) : Prop where
  trace : t.trace = s.trace
  rsp : t.rsp = s.rsp
  streams : t.streams = s.streams
  sinkAnswers : t.sinkAnswers = s.sinkAnswers

theorem SamePorts.extends {s t : State} (h : SamePorts s t) : Extends s t :=
  extends_of_one [] (Nat.zero_le _) (by rw [h.trace, List.append_nil]) (h.rsp ▸ List.prefix_rfl) h.streams h.sinkAnswers

/-- What an update appends stays so when what follows it leaves the ports alone. -/
theorem Extends.trans_samePorts {s u t : State} (h : Extends s u) (hp : SamePorts u t) : Extends s t where
  operations := by
    rw [hp.sinkAnswers, hp.trace]
    exact h.operations
  rsp := hp.rsp ▸ h.rsp
  others other ho := (stream_of_streams hp.streams other).trans (h.others other ho)
  selected := by
    rw [stream_of_streams hp.streams]
    exact h.selected

theorem Quiet.samePorts {f : State → State} (hf : Quiet f) (u : State) : SamePorts u (f u) :=
  ⟨hf.trace u, (hf.keeps u).rsp, hf.streams u, hf.sinkAnswers u⟩

theorem countersOnly.samePorts {f : State → State} (hf : countersOnly f) (u : State) : SamePorts u (f u) := by
  obtain ⟨hp, mp, k, e⟩ := hf u
  rw [e]
  exact ⟨rfl, rfl, rfl, rfl⟩

theorem quantizeStep_samePorts (s : State) : SamePorts s (quantizeStep s) := by
  obtain ⟨quad, draws, e⟩ := quantizeStep_writes s
  rw [e]
  exact ⟨rfl, rfl, rfl, rfl⟩

/-! ### Emissions -/

theorem length_acceptedWrites (bytes : List Byte) : (acceptedWrites bytes).length = bytes.length :=
  List.length_map _

/-- Accepted bytes: an answer and an operation for each (R66). -/
theorem extends_wrote {s : State} {bytes : List Byte} {later : List SinkAnswer} (h : answersOk s bytes.length later) :
    Extends s (wrote bytes later s) where
  operations := by
    refine ⟨_, acceptedWrites bytes, h, rfl, ?_⟩
    rw [length_acceptedWrites, List.length_replicate]
    exact le_max_right _ _
  rsp := List.prefix_rfl
  others _ ho := stream_wrote_other bytes later s ho
  selected := by
    rw [stream_wrote]
    exact List.prefix_append _ _

/-- Accepted bytes and a refused one: an answer and an operation for each of them (R66, U6). -/
theorem extends_rejected {s : State} {bytes : List Byte} {b : Byte} {landed : Bool} {answers later : List SinkAnswer}
    (h : answersFailAt s bytes.length landed later) : Extends s (rejected b landed later (wrote bytes answers s)) where
  operations := by
    refine ⟨List.replicate bytes.length .ok ++ [.fail landed], acceptedWrites bytes ++ [.memWrite b false], ?_, ?_, ?_⟩
    · rw [h, List.append_assoc]
      rfl
    · rw [rejected_trace, wrote_trace, List.append_assoc]
    · rw [List.length_append, List.length_append, length_acceptedWrites, List.length_replicate]
      exact le_max_right _ _
  rsp := List.prefix_rfl
  others _ ho :=
    (stream_rejected_other b landed later (wrote bytes answers s) ho).trans (stream_wrote_other bytes answers s ho)
  selected := by
    have hr := stream_rejected b landed later (wrote bytes answers s)
    rw [wrote_pathtok, stream_wrote, List.append_assoc] at hr
    rw [hr]
    exact List.prefix_append _ _

/-- A record of the sink, whether it ends, waits or is refused (R204). -/
theorem recordLeadsTo.extends {bytes : List Byte} {save : Nat → State → State} {next : State → State} {s t : State}
    (h : recordLeadsTo bytes save next s t) (hsave : ∀ left, countersOnly (save left)) (hnext : Quiet next) :
    Extends s t := by
  rcases h with ⟨later, ha, rfl⟩ | ⟨n, hn, ha, rfl⟩ | ⟨n, landed, later, hn, ha, rfl⟩
  · exact (extends_wrote ha).trans_samePorts (hnext.samePorts _)
  all_goals rw [← List.length_take_of_le hn.le] at ha
  · exact (extends_wrote ha).trans_samePorts ((hsave _).samePorts _)
  · exact ((extends_rejected ha).trans_samePorts ((hsave _).samePorts _)).trans_samePorts ((quiet_goTo .failing).samePorts _)

theorem headerRecord_extends {line : List Byte} {start : Nat} {next : State → State} {s t : State}
    (h : headerRecord line start next s = .next t) (hnext : Quiet next) : Extends s t :=
  (emitRecord_next h).2.extends (fun _ => countersOnly_setHp _) (hnext.comp (quiet_setHp _))

theorem emitScanlineRecord_extends {bytes : List Byte} {save : Nat → State → State} {next : State → State} {s t : State}
    (h : emitScanlineRecord bytes save next s = .next t) (hsave : ∀ left, countersOnly (save left)) (hnext : Quiet next) :
    Extends s t := by
  rcases emitScanlineRecord_next h with ⟨-, rfl⟩ | ⟨-, -, hl⟩
  · have hpayload : SamePorts s (addPayload bytes s) := ⟨rfl, rfl, rfl, rfl⟩
    exact hpayload.extends.trans_samePorts (hnext.samePorts _)
  · exact hl.extends hsave hnext

/-! ### The other actions -/

/-- OPEN takes one answer for its one operation; the selected stream starts anew (R65, R192, R193). -/
theorem stepOpen_appends {s t : State} (h : stepOpen s = .next t) : Appends s t := by
  rcases stepOpen_next h with ⟨-, rfl⟩ | ⟨later, ha, rfl⟩ | ⟨landed, later, ha, rfl⟩
  · exact (SamePorts.extends ⟨rfl, rfl, rfl, rfl⟩).toAppends
  · refine ⟨⟨[.ok], [.sinkOpen s.pathtok true], ha, rfl, Nat.le_refl _⟩, List.prefix_rfl, fun other ho => ?_⟩
    rw [startHeader_stream, State.stream, openSink_streams, get?_set_other _ (toNat_ne ho)]
    rfl
  · exact ⟨⟨[.fail landed], [.sinkOpen s.pathtok false], ha, rfl, Nat.le_refl _⟩, List.prefix_rfl, fun _ _ => rfl⟩

/-- The row step reads one pixel, waits, or turns to the marker (R208). -/
theorem stepQuantize_extends {s t : State} (h : stepQuantize s = .next t) : Extends s t := by
  rcases stepQuantize_next h with ⟨-, -, rfl⟩ | ⟨-, -, pixel, -, rfl⟩ | ⟨-, rfl⟩
  · exact SamePorts.extends ⟨rfl, rfl, rfl, rfl⟩
  · have hread : Extends s (latchPixel (pixelIndex s.w s.y s.x) pixel s) :=
      extends_of_one [.memRead (pixelIndex s.w s.y s.x)] (Nat.le_refl _) rfl List.prefix_rfl rfl rfl
    exact (hread.trans_samePorts (quantizeStep_samePorts _)).trans_samePorts ⟨rfl, rfl, rfl, rfl⟩
  · exact (quiet_startScanline.samePorts s).extends

theorem closeSink_extends (s : State) : Extends s (closeSink s) :=
  extends_of_one [.sinkClose] (Nat.le_refl _) rfl List.prefix_rfl rfl rfl

theorem respond_extends (status : Status) (payload : List Byte) {s u : State} (h : SamePorts s u) :
    Extends s (respond status payload u) := by
  refine extends_of_one [.respond (responseBytes status payload)] (Nat.le_refl _) ?_ ?_ ?_ ?_
  · rw [respond_trace, h.trace]
  · rw [respond_rsp, h.rsp]
    exact List.prefix_append _ _
  · rw [respond_streams, h.streams]
  · rw [respond_sinkAnswers, h.sinkAnswers]

/-- Every action only appends, and all but OPEN to the selected stream as it stands (R63, R77, R82). -/
theorem tick_appends {s t : State} (h : tick s = .next t) : Appends s t ∧ (s.seq ≠ .opening → Extends s t) := by
  have hboth : Extends s t → Appends s t ∧ (s.seq ≠ .opening → Extends s t) := fun he => ⟨he.toAppends, fun _ => he⟩
  rcases tick_next h with ⟨-, rfl⟩ | ⟨hseq, ho⟩ | ⟨_, line, start, next, hline, -, hh⟩ | ⟨-, hq⟩ | ⟨-, hm⟩ | ⟨-, data, -, hl⟩
    | ⟨-, hc⟩ | ⟨-, rfl⟩ | ⟨-, rfl⟩ | ⟨-, rfl⟩ | ⟨exception, -, rfl⟩
  · exact hboth (SamePorts.extends ⟨rfl, rfl, rfl, rfl⟩)
  · exact ⟨stepOpen_appends ho, fun hne => absurd hseq hne⟩
  · refine hboth (headerRecord_extends hh ?_)
    rcases hline with ⟨-, -, -, rfl⟩ | ⟨-, -, -, rfl⟩ | ⟨-, -, -, rfl⟩ | ⟨-, -, -, rfl⟩ | ⟨-, -, -, rfl⟩
    · exact quiet_goTo _
    · exact quiet_goTo _
    · exact quiet_goTo _
    · exact quiet_goTo _
    · exact quiet_enterRows
  · exact hboth (stepQuantize_extends hq)
  · exact hboth (emitScanlineRecord_extends hm (fun _ => countersOnly_setMp _) quiet_firstPlane)
  · exact hboth (emitScanlineRecord_extends (execLit_next hl).2 (countersOnly_setK _) (quiet_advance _))
  · obtain ⟨-, rfl⟩ := stepClose_next hc
    exact hboth ((closeSink_extends s).trans_samePorts ((quiet_goTo _).samePorts _))
  · exact hboth (respond_extends _ _ ⟨rfl, rfl, rfl, rfl⟩)
  · exact hboth (respond_extends _ _ (quantizeStep_samePorts s))
  · exact hboth ((closeSink_extends s).trans_samePorts ((quiet_goTo _).samePorts _))
  · exact hboth (respond_extends _ _ ⟨rfl, rfl, rfl, rfl⟩)

/-! ### Streams, trace and responses -/

/-- Settles O48: every action only appends, OPEN alone to a stream it starts anew. -/
theorem actionsOnlyAppendToStream : Obligations.ActionsOnlyAppendToStream := by
  intro s t h
  obtain ⟨happends, hextends⟩ := tick_appends h
  exact ⟨happends.others, fun hseq => (hextends hseq).selected⟩

/-- Accepting a descriptor is no operation of a port (R92). -/
theorem accept_decode_samePorts (c : List Byte) (s : State) : SamePorts s (accept (decode c) s) := by
  rcases accept_cases (onCommandPort_decode c) s with ⟨_, _, _, -, e⟩ | ⟨_, -, e⟩ | ⟨_, _, -, -, e⟩
    | ⟨_, _, _, -, -, e⟩ | ⟨_, _, _, -, -, -, e⟩ | ⟨_, -, e⟩ <;> rw [e] <;> exact ⟨rfl, rfl, rfl, rfl⟩

/-- Settles O49: resets and acceptances leave the trace and the responses, and actions only append. -/
theorem stepOnlyAppendsToTrace : Obligations.StepOnlyAppendsToTrace := by
  intro s t h
  refine step_keeps (P := fun u => s.trace <+: u.trace ∧ s.rsp <+: u.rsp) (fun _ hu => hu) ?_ ?_ (fun _ _ _ => Iff.rfl)
    ⟨List.prefix_rfl, List.prefix_rfl⟩ h
  · intro u c later hu _
    have hports := accept_decode_samePorts c { u with cmd := later }
    rwa [hports.trace, hports.rsp]
  · intro u v ⟨htrace, hrsp⟩ hv
    obtain ⟨⟨⟨_, ops, -, hops, -⟩, hmore, -⟩, -⟩ := tick_appends hv
    exact ⟨htrace.trans (hops ▸ List.prefix_append _ _), hrsp.trans hmore⟩

/-! ### Operations -/

/-- What is taken of a list shown one element at a time is nothing or its head. -/
theorem taken_of_take_one {α : Type} {l taken rest : List α} (h : l.take 1 = taken ++ rest) :
    taken.length ≤ 1 ∧ (l = rest ++ l.drop 1 ∨ ∃ a, l = a :: (rest ++ l.drop 1)) := by
  have hl : l = taken ++ (rest ++ l.drop 1) := by rw [← List.append_assoc, ← h, List.take_append_drop]
  have hlen : taken.length ≤ 1 :=
    calc taken.length ≤ (l.take 1).length := h ▸ List.length_append ▸ Nat.le_add_right _ _
      _ ≤ 1 := List.length_take_le _ _
  refine ⟨hlen, ?_⟩
  match taken, hlen with
  | [], _ => exact .inl hl
  | [a], _ => exact .inr ⟨a, hl⟩

/-- Settles O57: an action shown one answer takes at most that one, and so does at most one operation. -/
theorem operationsAreSingle : Obligations.OperationsAreSingle := by
  intro s t h
  rcases atomicStep_next h with ⟨-, -, rfl⟩ | ⟨c, later, -, -, rfl⟩ | ⟨-, u, hu, rfl⟩
  · exact ⟨.inl rfl, [], (List.append_nil _).symm, Nat.zero_le _⟩
  · have hports := accept_decode_samePorts c { s with cmd := later }
    exact ⟨.inl hports.sinkAnswers.symm, [], by rw [hports.trace, List.append_nil], Nat.zero_le _⟩
  · obtain ⟨⟨⟨taken, ops, htaken, htrace, hlen⟩, -, -⟩, -⟩ := tick_appends hu
    obtain ⟨hone, hanswers⟩ := taken_of_take_one htaken
    exact ⟨hanswers, ops, htrace, hlen.trans (max_le (Nat.le_refl 1) hone)⟩

/-! ### The load of one pixel -/

/-- Settles O38: the step is the action at `quantizing`, and a quantization draws `Q` only for an invalid pixel. -/
theorem rowStepQuantizesPixel : Obligations.RowStepQuantizesPixel := by
  intro s pixel hr hseq hx hi hp
  refine ⟨pixelIndex_toNat hx, ?_⟩
  rw [step_eq_tick hr (by rw [hseq]; decide), tick_pixel hseq hx hi hp]
  rcases quantizeStep_cases (latchPixel (pixelIndex s.w s.y s.x) pixel s) with ⟨-, e⟩ | ⟨hv, e⟩ <;> rw [e]
  · exact ⟨quantizeValid pixel, s.draws, rfl, fun _ => ⟨rfl, rfl⟩⟩
  · exact ⟨_, _, rfl, fun hvalid => Bool.noConfusion (hvalid.symm.trans hv)⟩

end Sys2Proof.Machine
end

section
/-! PROOFS. A command's execution is its acceptance and its operations: an action is one operation, or an operation and the same
action again with one answer of the sink less. -/

namespace Sys2Proof.Machine

/-! ### Showing an action one answer -/

/-- `g` neither reads nor writes the sink's answers to come. -/
def ReadsNoAnswer (g : State → State) : Prop :=
  ∀ later t, g (moreAnswers later t) = moreAnswers later (g t)

/-- `act` with the next answer of the sink shown to it, and the later ones kept for what follows. -/
def withOneAnswer (act : State → Host.Outcome State Fault Refusal) (s : State) : Host.Outcome State Fault Refusal :=
  onNext (moreAnswers (s.sinkAnswers.drop 1)) (act (oneAnswer s))

theorem atomicStep_running {s : State} (hi : s.seq ≠ .idle) : atomicStep s = withOneAnswer tick s :=
  if_neg hi

/-- Where the sink has given no answer yet, none is held back. -/
theorem withOneAnswer_of_none {s : State} (h : s.sinkAnswers = []) (act : State → Host.Outcome State Fault Refusal) :
    withOneAnswer act s = act s := by
  have hone : oneAnswer s = s := by
    rw [oneAnswer, h, List.take_nil, ← h]
  have hmore : ∀ t, moreAnswers [] t = t := fun t => by rw [moreAnswers, List.append_nil]
  rw [withOneAnswer, hone, h, List.drop_nil]
  cases act s with
  | next t => exact congrArg Host.Outcome.next (hmore t)
  | fault _ => rfl
  | refused _ => rfl

theorem moreAnswers_oneAnswer {s : State} {a : SinkAnswer} {later : List SinkAnswer} (ha : s.sinkAnswers = a :: later) :
    moreAnswers later (oneAnswer s) = s := by
  rw [moreAnswers, oneAnswer_sinkAnswers, ha]
  show { s with sinkAnswers := a :: later } = s
  rw [← ha]

/-- OPEN takes one answer (R65). -/
theorem stepOpen_withOneAnswer (s : State) : withOneAnswer stepOpen s = stepOpen s := by
  cases ha : s.sinkAnswers with
  | nil => exact withOneAnswer_of_none ha stepOpen
  | cons a later =>
    unfold withOneAnswer stepOpen
    rw [oneAnswer_sinkAnswers, ha]
    cases a with
    | ok => rfl
    | fail landed => rfl

/-- An emission looks at the next answer alone, if it has one byte left at most or that answer refuses it (R204). -/
theorem emit_oneAnswer {bytes : List Byte} {s : State} {a : SinkAnswer} {later : List SinkAnswer}
    (ha : s.sinkAnswers = a :: later) (hone : a = .ok → bytes.length ≤ 1) :
    emit bytes s = (emit bytes (oneAnswer s)).map (moreAnswers later) := by
  match bytes, a with
  | [], _ => exact congrArg Emitted.done (moreAnswers_oneAnswer ha).symm
  | b :: bytes, .fail landed =>
    unfold emit
    rw [oneAnswer_sinkAnswers, ha]
    rfl
  | [b], .ok =>
    unfold emit
    rw [oneAnswer_sinkAnswers, ha]
    rfl
  | _ :: _ :: _, .ok => exact absurd (hone rfl) (by simp)

theorem emitRecord_withOneAnswer {bytes : List Byte} {save : Nat → State → State} {next : State → State} {s : State}
    {a : SinkAnswer} {later : List SinkAnswer} (ha : s.sinkAnswers = a :: later) (hone : a = .ok → bytes.length ≤ 1)
    (hsave : ∀ left, ReadsNoAnswer (save left)) (hnext : ReadsNoAnswer next) :
    withOneAnswer (emitRecord bytes save next) s = emitRecord bytes save next s := by
  unfold withOneAnswer emitRecord
  rw [oneAnswer_handle, emit_oneAnswer ha hone, ha, List.drop_one, List.tail_cons]
  cases s.handle with
  | false => rfl
  | true =>
    cases emit bytes (oneAnswer s) with
    | done t => exact congrArg Host.Outcome.next (hnext later t).symm
    | waiting left t => exact congrArg Host.Outcome.next (hsave left later t).symm
    | failed left t => exact congrArg (fun u => Host.Outcome.next (raise .writeFailure u)) (hsave left later t).symm

/-! ### Records one byte at a time -/

/-- `act` in `s` is an emission of `bytes`, whatever the answers to come; while it lasts only counters move, and neither they
nor what follows the last byte depend on the answers. -/
def Emits (act : State → Host.Outcome State Fault Refusal) (bytes : List Byte) (s : State) : Prop :=
  ∃ (save : Nat → State → State) (next : State → State),
    (∀ answers, act (answering answers s) = emitRecord bytes save next (answering answers s))
    ∧ (∀ left, countersOnly (save left)) ∧ (∀ left, ReadsNoAnswer (save left)) ∧ ReadsNoAnswer next

theorem headerRecord_emits (line : List Byte) (start : Nat) {next : State → State} (hnext : ReadsNoAnswer next) (s : State) :
    Emits (headerRecord line start next) (line.drop (s.hp.toNat - start)) s :=
  ⟨_, _, fun _ => rfl, fun _ => countersOnly_setHp _, fun _ _ _ => rfl,
    fun later t => hnext later (setHp (start + line.length) t)⟩

/-- A record inside its place emits the bytes it has left. -/
theorem exec_record_emits {i : Instr} {s : State} (hwf : i.wellFormed = true) (hplace : recordPlace i s)
    (ho : s.op ≠ Config.opEncsl) : Emits (exec i) (recordRest i s) s := by
  cases i with
  | hdrline1 => exact headerRecord_emits Config.headerLine1 0 (next := goTo .header2) (fun _ _ => rfl) s
  | hdrline2 => exact headerRecord_emits Config.headerLine2 11 (next := goTo .header3) (fun _ _ => rfl) s
  | hdrline3 => exact headerRecord_emits Config.headerLine3 42 (next := goTo .header4) (fun _ _ => rfl) s
  | hdrline4 => exact headerRecord_emits Config.headerLine4 65 (next := goTo .resolution) (fun _ _ => rfl) s
  | resline h w => exact headerRecord_emits (reslineBytes h w) 101 (next := enterRows) (fun _ _ => rfl) s
  | mark _ =>
    exact ⟨_, _, fun answers => emitScanlineRecord_write (s := answering answers s) ho, fun _ => countersOnly_setMp _,
      fun _ _ _ => rfl, fun _ _ => rfl⟩
  | lit data =>
    simp only [Instr.wellFormed, Bool.and_eq_true, decide_eq_true_eq] at hwf
    exact ⟨_, _, fun answers => (if_pos hwf).trans (emitScanlineRecord_write (s := answering answers s) ho),
      countersOnly_setK _, fun _ _ _ => rfl, fun later => advance_behind (f := (· ++ later)) (r := id) data.length⟩
  | quant _ _ _ => exact hplace.elim
  | encsl _ _ => exact hplace.elim
  | write _ _ _ => exact hplace.elim
  | reservedCommand _ => exact hplace.elim
  | run _ _ => exact hplace.elim
  | rsp _ _ => exact hplace.elim

/-- What tells which record is next, and its operands, is as before. -/
structure SameRecord (s u : State) : Prop where
  seq : u.seq = s.seq
  h : u.h = s.h
  w : u.w = s.w
  chunkData : chunkData u = chunkData s

theorem recordRest_answering (i : Instr) (answers : List SinkAnswer) (s : State) :
    recordRest i (answering answers s) = recordRest i s := by
  cases i <;> rfl

theorem recordPlace_answering (i : Instr) (answers : List SinkAnswer) (s : State) :
    recordPlace i (answering answers s) = recordPlace i s := by
  cases i <;> rfl

/-- After one byte that is not its last, the same record comes to the same end with that byte's answer taken (R36). -/
theorem exec_record_after_byte {i : Instr} {s : State} {later : List SinkAnswer} (hwf : i.wellFormed = true)
    (hop : s.op = Config.opWrite) (hopen : s.handle = true) (hplace : recordPlace i s)
    (hemits : Emits (exec i) (recordRest i s) s) (ha : s.sinkAnswers = .ok :: later)
    (hlen : 1 < (recordRest i s).length) :
    ∃ u, withOneAnswer (exec i) s = .next u ∧ exec i u = exec i s ∧ SameRecord s u ∧ u.sinkAnswers = later := by
  obtain ⟨save, next, hexec, hcounters, -, -⟩ := hemits
  have hok : answersOk (oneAnswer s) 1 [] := by
    rw [answersOk, oneAnswer_sinkAnswers, ha]
    rfl
  have hwait := (hexec (s.sinkAnswers.take 1)).trans (emitRecord_waiting (s := oneAnswer s) hopen hlen hok)
  obtain ⟨hp, mp, k, hv⟩ := hcounters ((recordRest i s).length - 1) (wrote ((recordRest i s).take 1) [] (oneAnswer s))
  rw [hv] at hwait
  have hresumed := resumedRecordIsSameRecord i (oneAnswer s) _ 1 later hwf hop hopen
    ((recordPlace_answering i _ s).mpr hplace) ((congrArg List.length (recordRest_answering i _ s)).symm ▸ hlen) hok hwait
  rw [show { oneAnswer s with sinkAnswers := (oneAnswer s).sinkAnswers ++ later } = s from moreAnswers_oneAnswer ha]
    at hresumed
  refine ⟨_, congrArg (onNext _) hwait, ?_, ⟨rfl, rfl, rfl, rfl⟩, ?_⟩
  · rw [ha]
    exact hresumed
  · rw [moreAnswers_sinkAnswers, ha]
    rfl

/-- A record shown one answer comes to its end, or leaves the same record to come to the same end with an answer less. -/
theorem exec_record_withOneAnswer {i : Instr} {s : State} (hwf : i.wellFormed = true) (hop : s.op = Config.opWrite)
    (hopen : s.handle = true) (hplace : recordPlace i s) :
    withOneAnswer (exec i) s = exec i s
    ∨ ∃ u, withOneAnswer (exec i) s = .next u ∧ exec i u = exec i s ∧ SameRecord s u
        ∧ u.sinkAnswers.length < s.sinkAnswers.length := by
  have hemits := exec_record_emits hwf hplace (by rw [hop]; decide : s.op ≠ Config.opEncsl)
  cases ha : s.sinkAnswers with
  | nil => exact .inl (withOneAnswer_of_none ha (exec i))
  | cons a later =>
    by_cases hlast : a = .ok → (recordRest i s).length ≤ 1
    · obtain ⟨save, next, hexec, -, hsave, hnext⟩ := hemits
      left
      calc withOneAnswer (exec i) s
        _ = withOneAnswer (emitRecord (recordRest i s) save next) s := congrArg _ (hexec (s.sinkAnswers.take 1))
        _ = emitRecord (recordRest i s) save next s := emitRecord_withOneAnswer ha hlast hsave hnext
        _ = exec i s := (hexec s.sinkAnswers).symm
    · obtain ⟨rfl, hlen⟩ : a = .ok ∧ 1 < (recordRest i s).length := by simpa using hlast
      obtain ⟨u, hu, hend, hsame, hanswers⟩ := exec_record_after_byte hwf hop hopen hplace hemits ha hlen
      exact .inr ⟨u, hu, hend, hsame, by rw [hanswers]; exact Nat.lt_succ_self _⟩

/-! ### Actions -/

/-- An action that is an operation of the sink with an answer, and is not OPEN, is a record of a WRITE with an open sink. -/
theorem tick_record {s : State} (hpos : positionOk s) (hsilent : ¬ silent s) (hopening : s.seq ≠ .opening) :
    s.op = Config.opWrite ∧ s.handle = true
      ∧ ∃ i, i.wellFormed = true ∧ recordPlace i s ∧ ∀ u, SameRecord s u → tick u = exec i u := by
  unfold positionOk at hpos
  unfold silent at hsilent
  cases hseq : s.seq <;> rw [hseq] at hpos hsilent hopening <;> dsimp only at hpos hsilent
  case header1 =>
    obtain ⟨⟨hop, -, -, hopen⟩, -, -, hhigh⟩ := hpos
    exact ⟨hop, hopen, .hdrline1, rfl, hhigh, fun u hu => by rw [tick, hu.seq, hseq]; rfl⟩
  case header2 =>
    obtain ⟨⟨hop, -, -, hopen⟩, -, hhp⟩ := hpos
    exact ⟨hop, hopen, .hdrline2, rfl, hhp, fun u hu => by rw [tick, hu.seq, hseq]; rfl⟩
  case header3 =>
    obtain ⟨⟨hop, -, -, hopen⟩, -, hhp⟩ := hpos
    exact ⟨hop, hopen, .hdrline3, rfl, hhp, fun u hu => by rw [tick, hu.seq, hseq]; rfl⟩
  case header4 =>
    obtain ⟨⟨hop, -, -, hopen⟩, -, hhp⟩ := hpos
    exact ⟨hop, hopen, .hdrline4, rfl, hhp, fun u hu => by rw [tick, hu.seq, hseq]; rfl⟩
  case resolution =>
    obtain ⟨⟨hop, -, -, hopen⟩, -, hhp⟩ := hpos
    exact ⟨hop, hopen, .resline s.h s.w, rfl, hhp, fun u hu => by rw [tick, hu.seq, hseq, ← hu.h, ← hu.w]; rfl⟩
  case marking =>
    obtain ⟨⟨hop, -, -, hopen⟩, -⟩ := inScanline_write hpos hsilent
    exact ⟨hop, hopen, .mark s.w, rfl, trivial, fun u hu => by rw [tick, hu.seq, hseq, ← hu.w]; rfl⟩
  case chunking =>
    obtain ⟨⟨hop, -, -, hopen⟩, -⟩ := inScanline_write hpos.1 hsilent
    obtain ⟨data, hd, hlow, hhigh⟩ := atChunk_chunkData hpos
    obtain ⟨-, -, -, hk⟩ := hpos
    refine ⟨hop, hopen, .lit data, ?_, hk.trans (length_of_readPlane _ hd).ge, fun u hu => ?_⟩
    · simp only [Instr.wellFormed, hlow, hhigh, decide_true, Bool.and_self]
    · rw [tick, hu.seq, hseq]
      dsimp only
      rw [hu.chunkData, hd]
      rfl
  case opening => exact absurd rfl hopening
  all_goals exact absurd trivial hsilent

/-- An action is one operation, or one that takes an answer and leaves the same action to come to the same end. -/
theorem atomicStep_of_tick {s t : State} (hpos : positionOk s) (hi : s.seq ≠ .idle) (h : tick s = .next t) :
    atomicStep s = .next t
    ∨ ∃ u, atomicStep s = .next u ∧ tick u = .next t ∧ u.seq ≠ .idle
        ∧ u.sinkAnswers.length < s.sinkAnswers.length := by
  by_cases hsilent : silent s
  · exact .inl (atomicStep_silent hsilent hi h)
  rw [atomicStep_running hi]
  by_cases hopening : s.seq = .opening
  · have hopen : ∀ u, u.seq = s.seq → tick u = stepOpen u := fun u hu => by rw [tick, hu, hopening]
    left
    rw [withOneAnswer, hopen (oneAnswer s) rfl, ← h, hopen s rfl]
    exact stepOpen_withOneAnswer s
  · obtain ⟨hop, hopen, i, hwf, hplace, hexec⟩ := tick_record hpos hsilent hopening
    rw [hexec s ⟨rfl, rfl, rfl, rfl⟩] at h
    rw [withOneAnswer, hexec (oneAnswer s) ⟨rfl, rfl, rfl, rfl⟩, ← withOneAnswer, ← h]
    rcases exec_record_withOneAnswer hwf hop hopen hplace with hall | ⟨u, hu, hend, hsame, hless⟩
    · exact .inl hall
    · exact .inr ⟨u, hu, (hexec u hsame).trans hend, hsame.seq.trans_ne hi, hless⟩

theorem atomicStep_keeps_inv {s t : State} (hs : Inv s) (hi : s.seq ≠ .idle) (h : atomicStep s = .next t) : Inv t := by
  rw [atomicStep_running hi] at h
  obtain ⟨u, hu, rfl⟩ := onNext_next h
  have hone : Inv (oneAnswer s) := (inv_behind (List.take 1) id s).mpr hs
  exact (inv_behind (· ++ s.sinkAnswers.drop 1) id u).mpr (tick_keeps_inv hone hu)

/-- An action is its operations: by induction on the answers to come, of which each operation but the last takes one. -/
theorem tick_is_operations (n : Nat) : ∀ {s t : State}, s.sinkAnswers.length = n → Inv s → s.seq ≠ .idle →
    tick s = .next t → ∃ k, times atomicStep k s = .next t := by
  induction n using Nat.strong_induction_on with
  | _ n ih =>
    intro s t hn hs hi h
    rcases atomicStep_of_tick hs.2 hi h with hone | ⟨u, hu, hrest, hui, hless⟩
    · exact ⟨1, times_one hone⟩
    · obtain ⟨k, hk⟩ := ih _ (hn ▸ hless) rfl (atomicStep_keeps_inv hs hi hu) hui hrest
      exact ⟨1 + k, times_add 1 k (times_one hu) hk⟩

/-! ### Commands -/

/-- From `s` with the invariant operations lead to `t`. -/
def ByOperations (s t : State) : Prop :=
  Inv s → Inv t ∧ ∃ k, times atomicStep k s = .next t

theorem tick_byOperations {s t : State} (h : tick s = .next t) : ByOperations s t := by
  intro hs
  refine ⟨tick_keeps_inv hs h, ?_⟩
  by_cases hi : s.seq = .idle
  · rw [tick, hi] at h
    exact ⟨0, h⟩
  · exact tick_is_operations _ rfl hs hi h

theorem byOperations_trans {s t u : State} (h1 : ByOperations s t) (h2 : ByOperations t u) : ByOperations s u := by
  intro hs
  obtain ⟨ht, m, hm⟩ := h1 hs
  obtain ⟨hu, n, hn⟩ := h2 ht
  exact ⟨hu, m + n, times_add m n hm hn⟩

/-- Settles O56: the first operation accepts the descriptor, and each action of the command's run is operations. -/
theorem commandIsItsOperations : Obligations.CommandIsItsOperations := by
  intro s t c later hs hseq hcmd h
  obtain ⟨k, hk⟩ := exec_command (onCommandPort_decode c)
  rw [hk] at h
  have hrun : ByOperations (accept (decode c) { s with cmd := later }) t :=
    runCommand_induction (P := ByOperations) (fun _ hu => ⟨hu, 0, rfl⟩) byOperations_trans tick_byOperations _ h
  obtain ⟨-, n, hn⟩ := hrun (accept_keeps_inv c later hs hseq)
  have haccept : atomicStep s = .next (accept (decode c) { s with cmd := later }) := by
    rw [atomicStep, if_pos hseq, hcmd]
  exact ⟨n, by rw [times, haccept]; exact hn⟩

end Sys2Proof.Machine
end

section
/-! PROOFS. The encodings: a command's fields and its bytes determine each other, and every record and response reads back
from its own bytes (R94 to R112). -/

namespace Sys2Proof

/-! ### Fields and their bytes -/

theorem beNat_eq_ofDigits (c : List Byte) : beNat c = Nat.ofDigits 256 (c.reverse.map BitVec.toNat) := by
  rw [beNat, Nat.ofDigits_eq_foldr, List.foldr_map, List.foldr_reverse]
  simp only [Nat.cast_id, Nat.add_comm]

theorem digits_lt (c : List Byte) : ∀ d ∈ c.reverse.map BitVec.toNat, d < 256 := by
  intro d hd
  obtain ⟨b, -, rfl⟩ := List.mem_map.mp hd
  exact b.isLt

theorem beNat_lt (c : List Byte) : beNat c < 256 ^ c.length := by
  have h := Nat.ofDigits_lt_base_pow_length (by decide : 1 < 256) (digits_lt c)
  rwa [← beNat_eq_ofDigits, List.length_map, List.length_reverse] at h

/-- Byte sequences of one length that spell one number are the same. -/
theorem beNat_inj {c d : List Byte} (hlen : c.length = d.length) (h : beNat c = beNat d) : c = d := by
  rw [beNat_eq_ofDigits, beNat_eq_ofDigits] at h
  have hrev := Nat.ofDigits_inj_of_len_eq (by decide : 1 < 256) (by simpa using hlen) (digits_lt c) (digits_lt d) h
  exact List.reverse_inj.mp (List.map_injective_iff.mpr (fun _ _ => BitVec.eq_of_toNat_eq) hrev)

/-- A writer of big-endian fields spells again the bytes that a field of its width was read from. -/
theorem bytes_ofNat_beNat {w : Nat} {bytes : BitVec w → List Byte} {c : List Byte}
    (hlen : ∀ v, (bytes v).length = c.length) (hval : ∀ v, beNat (bytes v) = v.toNat) (hw : 256 ^ c.length = 2 ^ w) :
    bytes (BitVec.ofNat w (beNat c)) = c := by
  refine beNat_inj (hlen _) ?_
  rw [hval, BitVec.toNat_ofNat, Nat.mod_eq_of_lt (hw ▸ beNat_lt c)]

theorem halfBytes_ofNat_beNat {c : List Byte} (h : c.length = 2) : halfBytes (BitVec.ofNat 16 (beNat c)) = c :=
  bytes_ofNat_beNat (fun _ => h.symm) beNat_halfBytes (by rw [h]; rfl)

theorem wordBytes_ofNat_beNat {c : List Byte} (h : c.length = 4) : wordBytes (BitVec.ofNat 32 (beNat c)) = c :=
  bytes_ofNat_beNat (fun _ => h.symm) beNat_wordBytes (by rw [h]; rfl)

theorem f64Bytes_ofNat_beNat {c : List Byte} (h : c.length = 8) : f64Bytes (BitVec.ofNat 64 (beNat c)) = c :=
  bytes_ofNat_beNat (fun _ => h.symm) beNat_f64Bytes (by rw [h]; rfl)

/-! ### R98's conditions -/

theorem isQuant_iff {c : List Byte} : isQuant c = true ↔ c.head? = some 0x01#8 ∧ c.length = 25 := by
  rw [isQuant, Bool.and_eq_true, beq_iff_eq, beq_iff_eq]
  rfl

theorem isWrite_iff {c : List Byte} : isWrite c = true ↔ c.head? = some 0x03#8 ∧ c.length = 9 := by
  rw [isWrite, Bool.and_eq_true, beq_iff_eq, beq_iff_eq]

theorem isEncsl_iff {c : List Byte} : isEncsl c = true ↔
    ∃ hi lo rest, c = 0x02#8 :: hi :: lo :: rest ∧ c.length = 3 + 4 * (256 * hi.toNat + lo.toNat) := by
  constructor
  · intro h
    simp only [isEncsl, Bool.and_eq_true, beq_iff_eq, decide_eq_true_eq] at h
    obtain ⟨⟨hhead, hlen⟩, hwidth⟩ := h
    match c, hlen with
    | b :: hi :: lo :: rest, _ =>
      obtain rfl : b = 0x02#8 := Option.some.inj hhead
      exact ⟨hi, lo, rest, rfl, hwidth⟩
  · rintro ⟨hi, lo, rest, rfl, hlen⟩
    simpa [isEncsl, widthField] using hlen

/-! ### Commands: decode after encode -/

theorem decode_of_isQuant {c : List Byte} (h : isQuant c = true) : decode c = .quant (BitVec.ofNat 64 (fieldAt c 1 8))
    (BitVec.ofNat 64 (fieldAt c 9 8)) (BitVec.ofNat 64 (fieldAt c 17 8)) := if_pos h

/-- The three opcode bytes differ, so each of R98's conditions alone names its command. -/
theorem decode_of_isEncsl {c : List Byte} (h : isEncsl c = true) :
    decode c = .encsl (BitVec.ofNat 16 (widthField c)) (quadsOf (c.drop 3)) := by
  have hq : ¬ isQuant c = true := fun hq => by
    obtain ⟨_, _, _, rfl, -⟩ := isEncsl_iff.mp h
    exact absurd (isQuant_iff.mp hq).1 (by simp)
  rw [decode, if_neg hq, if_pos h]

theorem decode_of_isWrite {c : List Byte} (h : isWrite c = true) : decode c = .write (BitVec.ofNat 16 (fieldAt c 1 2))
    (BitVec.ofNat 16 (fieldAt c 3 2)) (BitVec.ofNat 32 (fieldAt c 5 4)) := by
  have hhead := (isWrite_iff.mp h).1
  have hq : ¬ isQuant c = true := fun hq => by
    rw [(isQuant_iff.mp hq).1] at hhead
    exact absurd hhead (by decide)
  have he : ¬ isEncsl c = true := fun he => by
    obtain ⟨_, _, _, rfl, -⟩ := isEncsl_iff.mp he
    exact absurd hhead (by simp)
  rw [decode, if_neg hq, if_neg he, if_pos h]

theorem decode_quant (red green blue : F64) : decode (encode (.quant red green blue)) = .quant red green blue := by
  have hfield : ∀ v : F64, BitVec.ofNat 64 (beNat (f64Bytes v)) = v := fun v => by
    rw [beNat_f64Bytes, BitVec.ofNat_toNat, BitVec.setWidth_eq]
  rw [decode_of_isQuant rfl]
  change Instr.quant (BitVec.ofNat 64 (beNat (f64Bytes red))) (BitVec.ofNat 64 (beNat (f64Bytes green)))
    (BitVec.ofNat 64 (beNat (f64Bytes blue))) = _
  rw [hfield, hfield, hfield]

theorem decode_encsl {w : Half} {row : List Quad} (h : row.length = w.toNat) :
    decode (encode (.encsl w row)) = .encsl w row := by
  have hwidth : widthField (encode (.encsl w row)) = w.toNat := widthField_encsl w _
  have hlen : (encode (.encsl w row)).length = 3 + 4 * w.toNat := by
    rw [encode, List.length_cons, List.length_append, length_halfBytes, length_flatMap_quadBytes, h]
    omega
  have he : isEncsl (encode (.encsl w row)) = true := by
    rw [isEncsl, hwidth, hlen]
    simp [encode]
  rw [decode_of_isEncsl he, hwidth, BitVec.ofNat_toNat, BitVec.setWidth_eq]
  exact congrArg (Instr.encsl w) (quadsOf_flatMap row)

theorem decode_write (w h : Half) (pathtok : Word) : decode (encode (.write w h pathtok)) = .write w h pathtok := by
  have hhalf : ∀ v : Half, BitVec.ofNat 16 (beNat (halfBytes v)) = v := fun v => by
    rw [beNat_halfBytes, BitVec.ofNat_toNat, BitVec.setWidth_eq]
  have hword : ∀ v : Word, BitVec.ofNat 32 (beNat (wordBytes v)) = v := fun v => by
    rw [beNat_wordBytes, BitVec.ofNat_toNat, BitVec.setWidth_eq]
  rw [decode_of_isWrite rfl]
  change Instr.write (BitVec.ofNat 16 (beNat (halfBytes w))) (BitVec.ofNat 16 (beNat (halfBytes h)))
    (BitVec.ofNat 32 (beNat (wordBytes pathtok))) = _
  rw [hhalf, hhalf, hword]

theorem decode_eq_reserved_iff {c : List Byte} :
    decode c = .reservedCommand c ↔ ¬ isQuant c = true ∧ ¬ isEncsl c = true ∧ ¬ isWrite c = true := by
  constructor
  · intro h
    refine ⟨fun hq => ?_, fun he => ?_, fun hw => ?_⟩
    · exact Instr.noConfusion ((decode_of_isQuant hq).symm.trans h)
    · exact Instr.noConfusion ((decode_of_isEncsl he).symm.trans h)
    · exact Instr.noConfusion ((decode_of_isWrite hw).symm.trans h)
  · rintro ⟨hq, he, hw⟩
    rw [decode, if_neg hq, if_neg he, if_neg hw]

/-- R98's case split: one of the three commands, or the reserved one. -/
theorem decode_cases (c : List Byte) :
    isQuant c = true ∨ isEncsl c = true ∨ isWrite c = true ∨ decode c = .reservedCommand c := by
  by_cases hq : isQuant c = true
  · exact .inl hq
  by_cases he : isEncsl c = true
  · exact .inr (.inl he)
  by_cases hw : isWrite c = true
  · exact .inr (.inr (.inl hw))
  · exact .inr (.inr (.inr (decode_eq_reserved_iff.mpr ⟨hq, he, hw⟩)))

/-! ### Commands: encode after decode -/

/-- Two fields and what follows them make up the sequence they were cut from. -/
theorem take_append_take_append_drop (m n : Nat) (c : List Byte) :
    c.take m ++ (c.drop m).take n ++ c.drop (m + n) = c := by
  rw [← List.take_add, List.take_append_drop]

theorem encode_decode (c : List Byte) : encode (decode c) = c := by
  rcases decode_cases c with hq | he | hw | hr
  · obtain ⟨hhead, hlen⟩ := isQuant_iff.mp hq
    obtain ⟨rest, rfl⟩ := List.head?_eq_some_iff.mp hhead
    rw [List.length_cons] at hlen
    have hlast : (rest.drop 16).take 8 = rest.drop 16 := List.take_of_length_le (by rw [List.length_drop]; omega)
    rw [decode_of_isQuant hq, encode]
    simp only [fieldAt, List.drop_succ_cons, List.drop_zero]
    rw [f64Bytes_ofNat_beNat (by simp; omega), f64Bytes_ofNat_beNat (by simp; omega),
      f64Bytes_ofNat_beNat (by simp; omega), hlast]
    exact congrArg (0x01#8 :: ·) (take_append_take_append_drop 8 8 rest)
  · obtain ⟨hi, lo, rest, rfl, hlen⟩ := isEncsl_iff.mp he
    have hwidth : widthField (0x02#8 :: hi :: lo :: rest) = beNat [hi, lo] := by simp [widthField, beNat]
    rw [decode_of_isEncsl he, encode, hwidth, halfBytes_ofNat_beNat rfl]
    simp only [List.length_cons] at hlen
    exact congrArg (0x02#8 :: hi :: lo :: ·) (flatMap_quadsOf (256 * hi.toNat + lo.toNat) rest (by omega))
  · obtain ⟨hhead, hlen⟩ := isWrite_iff.mp hw
    obtain ⟨rest, rfl⟩ := List.head?_eq_some_iff.mp hhead
    rw [List.length_cons] at hlen
    have hlast : (rest.drop 4).take 4 = rest.drop 4 := List.take_of_length_le (by rw [List.length_drop]; omega)
    rw [decode_of_isWrite hw, encode]
    simp only [fieldAt, List.drop_succ_cons, List.drop_zero]
    rw [halfBytes_ofNat_beNat (by simp; omega), halfBytes_ofNat_beNat (by simp; omega),
      wordBytes_ofNat_beNat (by simp; omega), hlast]
    exact congrArg (0x03#8 :: ·) (take_append_take_append_drop 2 2 rest)
  · rw [hr, encode]

theorem wellFormed_decode (c : List Byte) : (decode c).wellFormed = true := by
  rcases decode_cases c with hq | he | hw | hr
  · rw [decode_of_isQuant hq]
    rfl
  · have hd := decode_of_isEncsl he
    rw [hd, Instr.wellFormed, Machine.length_row_of_decode hd, beq_self_eq_true]
  · rw [decode_of_isWrite hw]
    rfl
  · obtain ⟨hq, he, hw⟩ := decode_eq_reserved_iff.mp hr
    rw [hr]
    simp [Instr.wellFormed, hq, he, hw]

/-! ### Records and responses: decode after encode -/

theorem decodeRecord_mark (w : Half) : decodeRecord (encode (.mark w)) = .ok (.mark w) := by
  have hfixed : fixedLine (markerBytes w) = none := fixedLine_counted (.inr (.inl (by decide)))
  exact (decodeRecord_of_framed hfixed).trans (decodeFramed_marker w)

/-- Records that begin with a length byte, and responses, are read by that byte. -/
theorem decodeRecord_counted {b : Byte} {rest : List Byte} (hfixed : b.toNat = rest.length ∨ b.toNat ≤ 4 ∨ 128 ≤ b.toNat)
    (hmark : b ≠ 0x02#8 ∨ rest.length ≠ 3) : decodeRecord (b :: rest) = decodeCounted b rest := by
  rw [decodeRecord_of_framed (fixedLine_counted hfixed), decodeFramed_of_length hmark]

theorem decodeRecord_lit {data : List Byte} (h1 : 1 ≤ data.length) (h127 : data.length ≤ Config.chunkMax) :
    decodeRecord (encode (.lit data)) = .ok (.lit data) := by
  have hlen : (BitVec.ofNat 8 data.length).toNat = data.length := by
    rw [BitVec.toNat_ofNat]
    exact Nat.mod_eq_of_lt (by rw [Config.chunkMax] at h127; omega)
  have hne : ∀ b : Byte, b.toNat ≠ data.length → BitVec.ofNat 8 data.length ≠ b := fun b hb he =>
    hb (he ▸ hlen)
  have hmark : BitVec.ofNat 8 data.length ≠ 0x02#8 ∨ data.length ≠ 3 := by
    by_cases h3 : data.length = 3
    · exact .inl (hne _ (by rw [h3]; decide))
    · exact .inr h3
  rw [encode, chunkBytes, decodeRecord_counted (.inl hlen) hmark, decodeCounted, if_neg (hne _ (by simp; omega)),
    if_pos (hlen.symm ▸ h127), if_pos hlen.symm]

theorem decodeRecord_run (n : BitVec 7) (v : Byte) : decodeRecord (encode (.run n v)) = .ok (.run n v) := by
  have hn := n.isLt
  have hb : (BitVec.ofNat 8 (128 + n.toNat)).toNat = 128 + n.toNat := by
    rw [BitVec.toNat_ofNat]
    omega
  have hne : BitVec.ofNat 8 (128 + n.toNat) ≠ 0x00#8 := fun he => by
    rw [he] at hb
    simp at hb
    omega
  rw [encode, decodeRecord_counted (.inr (.inr (by omega))) (.inr (by simp)), decodeCounted, if_neg hne,
    if_neg (by rw [hb, Config.chunkMax]; omega), runRecord, hb, Nat.add_sub_cancel_left, BitVec.ofNat_toNat,
    BitVec.setWidth_eq]

/-- A response's status byte is below every length byte of a longer record; only `OK` has a payload (R97). -/
theorem decodeRecord_rsp {status : Status} {payload : List Byte} (h : status = .ok ∨ payload = []) :
    decodeRecord (encode (.rsp status payload)) = .ok (.rsp status payload) := by
  have hcode : status.code.toNat ≤ 4 := by cases status <;> decide
  cases status with
  | ok => exact decodeRecord_counted (.inr (.inl hcode)) (.inl (by decide))
  | pathUnwritable | writeFailure | degenerateInput | illegalCommand =>
    obtain rfl : payload = [] := h.resolve_left (by decide)
    exact decodeRecord_counted (.inr (.inl hcode)) (.inr (by decide))

theorem readBack_command {i : Instr} (hport : onCommandPort i = true) (h : decode (encode i) = i) :
    readBack i = some i := by
  rw [readBack, if_pos hport, h]

theorem readBack_record {i : Instr} (hport : onCommandPort i = false) (h : decodeRecord (encode i) = .ok i) :
    readBack i = some i := by
  rw [readBack, if_neg (by rw [hport]; decide), h]

/-- Settles O1: each command is read by the condition of R98 that its opcode byte and length meet, each record by its fixed
bytes, its length byte or its status byte. -/
theorem decodeEncodeAgree : Obligations.DecodeEncodeAgree := by
  intro i hwf
  cases i with
  | quant red green blue => exact readBack_command rfl (decode_quant red green blue)
  | encsl w row => exact readBack_command rfl (decode_encsl (by simpa [Instr.wellFormed] using hwf))
  | write w h pathtok => exact readBack_command rfl (decode_write w h pathtok)
  | reservedCommand c =>
    simp only [Instr.wellFormed, Bool.and_eq_true, Bool.not_eq_true'] at hwf
    obtain ⟨⟨hq, he⟩, hw⟩ := hwf
    have hdecode : decode c = .reservedCommand c := decode_eq_reserved_iff.mpr (by simp [hq, he, hw])
    exact readBack_command rfl hdecode
  | hdrline1 => exact readBack_record rfl (decodeRecord_of_fixed fixedLine_line1)
  | hdrline2 => exact readBack_record rfl (decodeRecord_of_fixed fixedLine_line2)
  | hdrline3 => exact readBack_record rfl (decodeRecord_of_fixed fixedLine_line3)
  | hdrline4 => exact readBack_record rfl (decodeRecord_of_fixed fixedLine_line4)
  | resline h w => exact readBack_record rfl (decodeRecord_of_fixed (fixedLine_resline h w))
  | mark w => exact readBack_record rfl (decodeRecord_mark w)
  | lit data =>
    simp only [Instr.wellFormed, Bool.and_eq_true, decide_eq_true_eq] at hwf
    exact readBack_record rfl (decodeRecord_lit hwf.1 hwf.2)
  | run n v => exact readBack_record rfl (decodeRecord_run n v)
  | rsp status payload => exact readBack_record rfl (decodeRecord_rsp (by simpa [Instr.wellFormed] using hwf))

/-- Settles O2: whichever of R98's conditions holds, the decoded fields spell the descriptor again. -/
theorem descriptorsHaveOneMeaning : Obligations.DescriptorsHaveOneMeaning :=
  fun c => ⟨encode_decode c, wellFormed_decode c, Machine.onCommandPort_decode c⟩

/-- Settles O3: what decodes to a command is that command's bytes, and those bytes decode to it; the rest is R98's "else". -/
theorem decodeFollowsOpcodeAndLength : Obligations.DecodeFollowsOpcodeAndLength := by
  intro c
  have hencode : ∀ {i}, decode c = i → c = encode i := fun h => by rw [← h, encode_decode]
  refine ⟨fun red green blue => ⟨hencode, ?_⟩, fun w row => ⟨fun h => ⟨Machine.length_row_of_decode h, hencode h⟩, ?_⟩,
    fun w h pathtok => ⟨hencode, ?_⟩, ?_⟩
  · rintro rfl
    exact decode_quant red green blue
  · rintro ⟨hlen, rfl⟩
    exact decode_encsl hlen
  · rintro rfl
    exact decode_write w h pathtok
  · rw [decode_eq_reserved_iff, isQuant_iff, isEncsl_iff, isWrite_iff]

/-- Settles O4: the five sequences are the encodings of the instructions they stand for. -/
theorem wordsDecodeAsWritten : Obligations.WordsDecodeAsWritten :=
  ⟨decode_encsl (w := 1#16) (row := [⟨0x80#8, 0x40#8, 0x00#8, 0x81#8⟩]) rfl, decode_write 300#16 10#16 42#32,
    decode_eq_reserved_iff.mpr (by decide), decodeRecord_mark 300#16,
    decodeRecord_lit (data := [0x80#8, 0xC0#8, 0x33#8]) (by decide) (by decide)⟩

end Sys2Proof
end

section
/-! PROOFS. The encoder's records as they are emitted, the length of what the encoder puts out, and ENCSL's response (R108 to
R118, R160 to R170). -/

namespace Sys2Proof.Machine

/-! ### The chunks of a plane -/

theorem planeChunks_nil (fuel : Nat) : planeChunks fuel [] = [] := by
  cases fuel <;> rfl

theorem planeChunks_succ {plane : List Byte} (h : plane ≠ []) (fuel : Nat) : planeChunks (fuel + 1) plane
    = plane.take Config.chunkMax :: planeChunks fuel (plane.drop Config.chunkMax) := by
  rw [planeChunks, if_neg (by simpa using h)]

/-- Enough fuel for a plane is enough, less one, for what its first chunk leaves. -/
theorem length_drop_chunk_le {fuel : Nat} {plane : List Byte} (h : plane.length ≤ fuel + 1) :
    (plane.drop Config.chunkMax).length ≤ fuel := by
  rw [List.length_drop, Config.chunkMax]
  omega

theorem flatten_planeChunks (fuel : Nat) : ∀ plane : List Byte, plane.length ≤ fuel →
    (planeChunks fuel plane).flatten = plane := by
  induction fuel with
  | zero => intro plane h; rw [List.eq_nil_of_length_eq_zero (Nat.le_zero.mp h)]; rfl
  | succ fuel ih =>
    intro plane h
    by_cases hne : plane = []
    · rw [hne, planeChunks_nil, List.flatten_nil]
    · rw [planeChunks_succ hne, List.flatten_cons, ih _ (length_drop_chunk_le h), List.take_append_drop]

theorem length_planeChunks (fuel : Nat) : ∀ plane : List Byte, plane.length ≤ fuel →
    (planeChunks fuel plane).length = (plane.length + 126) / 127 := by
  induction fuel with
  | zero => intro plane h; rw [List.eq_nil_of_length_eq_zero (Nat.le_zero.mp h)]; rfl
  | succ fuel ih =>
    intro plane h
    by_cases hne : plane = []
    · rw [hne, planeChunks_nil]; rfl
    · have hpos := List.length_pos_iff.mpr hne
      rw [planeChunks_succ hne, List.length_cons, ih _ (length_drop_chunk_le h), List.length_drop, Config.chunkMax]
      omega

/-- No length byte is 0 or above 127 (R113). -/
theorem length_mem_planeChunks (fuel : Nat) : ∀ plane : List Byte, ∀ data ∈ planeChunks fuel plane,
    1 ≤ data.length ∧ data.length ≤ 127 := by
  induction fuel with
  | zero => intro plane data hd; cases hd
  | succ fuel ih =>
    intro plane data hd
    by_cases hne : plane = []
    · rw [hne, planeChunks_nil] at hd; cases hd
    · have hpos := List.length_pos_iff.mpr hne
      rw [planeChunks_succ hne, List.mem_cons] at hd
      rcases hd with rfl | hd
      · rw [List.length_take, Config.chunkMax]; omega
      · exact ih _ data hd

/-- A chunk that another one follows is full (R163). -/
theorem length_mem_dropLast_planeChunks (fuel : Nat) : ∀ plane : List Byte, ∀ data ∈ (planeChunks fuel plane).dropLast,
    data.length = 127 := by
  induction fuel with
  | zero => intro plane data hd; cases hd
  | succ fuel ih =>
    intro plane data hd
    by_cases hne : plane = []
    · rw [hne, planeChunks_nil] at hd; cases hd
    · rw [planeChunks_succ hne] at hd
      by_cases hrest : planeChunks fuel (plane.drop Config.chunkMax) = []
      · rw [hrest] at hd; cases hd
      · rw [List.dropLast_cons_of_ne_nil hrest, List.mem_cons] at hd
        rcases hd with rfl | hd
        · have hmore : plane.drop Config.chunkMax ≠ [] := fun h0 => hrest (by rw [h0, planeChunks_nil])
          have hpos := List.length_pos_iff.mpr hmore
          rw [List.length_drop, Config.chunkMax] at hpos
          rw [List.length_take, Config.chunkMax]
          omega
        · exact ih _ data hd

/-- Settles O20: the chunks are those that R163 to R165 cut from the plane. -/
theorem planeRecordIsLiteralChunks : Obligations.PlaneRecordIsLiteralChunks := fun plane =>
  ⟨planeChunks plane.length plane, rfl, flatten_planeChunks _ plane (Nat.le_refl _),
    length_planeChunks _ plane (Nat.le_refl _), length_mem_planeChunks _ plane, length_mem_dropLast_planeChunks _ plane⟩

/-! ### The length of a file -/

/-- Settles O37: every row of every quantization has the length that R117 gives a scanline. -/
theorem fileLengthIsExact : Obligations.FileLengthIsExact := by
  intro w h img rows hq
  have hrow : ∀ y ∈ rowOrder h.toNat,
      (encodeScanline w (rows y)).length = 4 + 4 * ((w.toNat + 126) / 127 + w.toNat) := by
    intro y hy
    rw [rowOrder, List.mem_reverse, List.mem_range] at hy
    exact length_encodeScanline w (rows y) (hq y hy).1
  rw [fileOf, List.length_append, length_headerBytes, List.length_flatMap, List.map_congr_left hrow, List.map_const',
    List.sum_replicate, rowOrder, List.length_reverse, List.length_range, smul_eq_mul]

/-! ### ENCSL -/

/-- The state in which ENCSL has only its response left: the encoded scanline is the payload (R160, R166). -/
def encoded (w : Half) (row : List Quad) (s : State) : State :=
  place w 0#16 3#2 .responding (addPayload (encodeScanline w row) (startScanline (acceptEncsl w row s)))

/-- ENCSL of a row that is not empty: the encoder's run, then the response. -/
theorem exec_encsl {w : Half} {row : List Quad} (hlen : row.length = w.toNat) (hw : w ≠ 0#16) (s : State) :
    exec (.encsl w row) s = .next (respond .ok (encodeScanline w row) (encoded w row s)) := by
  have hrow : holdsRow (slbLoad s.slb 0 row) row := fun j hj => by
    rw [get?_slbLoad, if_pos (by omega), Nat.sub_zero]
  have hscan : Runs (scanlineActions w.toNat) (startScanline (acceptEncsl w row s)) (encoded w row s) :=
    runs_scanline (s := startScanline (acceptEncsl w row s)) rfl rfl hrow hlen hw (.inl rfl)
  have hrespond : Runs 1 (encoded w row s) (respond .ok (encodeScanline w row) (encoded w row s)) :=
    Runs.one (by simp [encoded, place]) rfl rfl
  have haccept : accept (.encsl w row) s = startScanline (acceptEncsl w row s) := startEncsl_pos hw row s
  show runCommand (encslActions w.toNat) (accept (.encsl w row) s) = _
  rw [haccept]
  exact (hscan.trans hrespond).ends (respond_seq _ _ _) 0

/-- Settles O21: the response is the status byte and the encoded scanline. -/
theorem encslResponseLengthIsExact : Obligations.EncslResponseLengthIsExact := by
  intro w row s hlen hw
  refine ⟨_, responseBytes .ok (encodeScanline w row), exec_encsl hlen hw s, respond_rsp _ _ _, ?_⟩
  rw [responseBytes, if_pos rfl, List.length_cons, length_encodeScanline w row hlen]
  omega

/-! ### MARK -/

theorem markerBytes_eq (w : Half) :
    markerBytes w = [0x02#8, 0x02#8, BitVec.ofNat 8 (w.toNat / 256), BitVec.ofNat 8 (w.toNat % 256)] := by
  have hhi : w.extractLsb' 8 8 = BitVec.ofNat 8 (w.toNat / 256) := by
    apply BitVec.eq_of_toNat_eq
    rw [BitVec.extractLsb'_toNat, BitVec.toNat_ofNat, Nat.shiftRight_eq_div_pow]
  have hlo : w.extractLsb' 0 8 = BitVec.ofNat 8 (w.toNat % 256) := by
    apply BitVec.eq_of_toNat_eq
    rw [BitVec.extractLsb'_toNat, BitVec.toNat_ofNat, Nat.shiftRight_zero]
    omega
  rw [markerBytes, halfBytes, hhi, hlo]
  rfl

/-- Settles O22: the rest of the marker is one encoder record, and the first plane follows it. -/
theorem markEmitsMarker : Obligations.MarkEmitsMarker := by
  intro w s later
  rw [← markerBytes_eq]
  refine ⟨fun hop => emitScanlineRecord_encsl hop, fun hop hopen ha => ?_⟩
  have hrest : answersOk s ((markerBytes w).drop s.mp.toNat).length later := by
    rwa [List.length_drop, length_markerBytes]
  exact (emitScanlineRecord_write hop).trans (emitRecord_ok hopen hrest)

/-! ### LIT -/

/-- A literal chunk is one encoder record, after which the counters advance (R164, R165). -/
theorem exec_lit {data : List Byte} (h1 : 1 ≤ data.length) (h127 : data.length ≤ 127) (s : State) :
    exec (.lit data) s
      = emitScanlineRecord (recordRest (.lit data) s) (setK data.length) (advance data.length) s :=
  if_pos ⟨h1, h127⟩

theorem toNat_rem_sub {rem : Half} {n : Nat} (h : n ≤ rem.toNat) : (rem - BitVec.ofNat 16 n).toNat = rem.toNat - n := by
  have hrem := rem.isLt
  rw [BitVec.toNat_sub, BitVec.toNat_ofNat]
  omega

theorem rem_sub_eq_zero_iff {rem : Half} {n : Nat} (h : n ≤ rem.toNat) : rem - BitVec.ofNat 16 n = 0#16 ↔ n = rem.toNat := by
  rw [← BitVec.toNat_inj, toNat_rem_sub h]
  simp only [BitVec.toNat_ofNat]
  omega

section
variable {n : Nat} {s : State}

/-- Inside a plane (R165). -/
theorem advance_inside (h : n < s.rem.toNat) : advance n s = goTo .chunking (passChunk n s) :=
  if_neg fun h0 => absurd ((rem_sub_eq_zero_iff h.le).mp h0) h.ne

/-- Past the last chunk of a plane nothing of it remains. -/
theorem advance_end (h : n = s.rem.toNat) : advance n s = endPlane (passChunk n s) :=
  if_pos ((rem_sub_eq_zero_iff h.le).mpr h)

theorem passChunk_end (h : n = s.rem.toNat) :
    passChunk n s = { s with x := s.x + BitVec.ofNat 16 n, rem := 0#16, k := 0#7 } := by
  rw [passChunk, (rem_sub_eq_zero_iff h.le).mpr h]

/-- Past the last chunk of a plane that is not E (R34, R162). -/
theorem advance_nextPlane (h : n = s.rem.toNat) (hp : s.p ≠ 3#2) : advance n s = nextPlane (passChunk n s) := by
  rw [advance_end h, endPlane, if_neg (by simpa using hp)]

/-- Past the last chunk of plane E (R166). -/
theorem advance_endScanline (h : n = s.rem.toNat) (hp : s.p = 3#2) : advance n s
    = endScanline { s with x := s.x + BitVec.ofNat 16 n, rem := 0#16, k := 0#7 } := by
  rw [advance_end h, passChunk_end h, endPlane, if_pos hp]

/-- ENCSL has its response left. -/
theorem advance_responding (h : n = s.rem.toNat) (hp : s.p = 3#2) (hop : s.op = Config.opEncsl) : advance n s
    = { s with x := s.x + BitVec.ofNat 16 n, rem := 0#16, k := 0#7, seq := .responding } :=
  (advance_endScanline h hp).trans (if_pos hop)

/-- WRITE closes after row 0 (R210). -/
theorem advance_closing (h : n = s.rem.toNat) (hp : s.p = 3#2) (hop : s.op ≠ Config.opEncsl) (hy : s.y = 0#16) :
    advance n s
      = { s with x := s.x + BitVec.ofNat 16 n, rem := 0#16, k := 0#7, st := .rowWritten, seq := .closing } :=
  (advance_endScanline h hp).trans ((if_neg hop).trans (if_pos hy))

/-- WRITE goes on with the row below (R210). -/
theorem advance_nextRow (h : n = s.rem.toNat) (hp : s.p = 3#2) (hop : s.op ≠ Config.opEncsl) (hy : s.y ≠ 0#16) :
    advance n s
      = { s with x := 0#16, rem := 0#16, k := 0#7, st := .rowWritten, y := s.y - 1#16, seq := .quantizing } :=
  (advance_endScanline h hp).trans ((if_neg hop).trans (if_neg hy))

end

/-- Settles O23: ENCSL's chunk goes into the payload, whole, and the counters advance. -/
theorem litExtendsPayload : Obligations.LitExtendsPayload := by
  intro data s h1 h127 _ hop
  rw [exec_lit h1 h127, emitScanlineRecord_encsl hop]
  refine ⟨fun h => ?_, fun h hp => ?_, fun h hp => ?_⟩
  · exact congrArg Host.Outcome.next (advance_inside h)
  · exact congrArg Host.Outcome.next (advance_nextPlane h hp)
  · exact congrArg Host.Outcome.next (advance_responding h hp hop)

/-- Settles O24: WRITE's chunk goes to the sink, whole, and the counters advance. -/
theorem litWritesChunk : Obligations.LitWritesChunk := by
  intro data s later h1 h127 _ hop hopen ha
  rw [exec_lit h1 h127, emitScanlineRecord_write hop, emitRecord_ok hopen ha]
  refine ⟨fun h => ?_, fun h hp => ?_, fun h hp hy => ?_, fun h hp hy => ?_⟩
  · exact congrArg Host.Outcome.next (advance_inside h)
  · exact congrArg Host.Outcome.next (advance_nextPlane h hp)
  · exact congrArg Host.Outcome.next (advance_closing h hp hop hy)
  · exact congrArg Host.Outcome.next (advance_nextRow h hp hop hy)

/-! ### RUN -/

/-- Settles O25: RUN's meaning is its refusal. -/
theorem runIsRefused : Obligations.RunIsRefused := fun _ _ _ => rfl

end Sys2Proof.Machine
end

section
/-! PROOFS. The header's records, the decimal numerals they spell, and the short commands: QUANT, the reserved command, the
response (R97, R101 to R107, R130, R244). -/

namespace Sys2Proof.Machine

/-! ### Decimal numerals -/

theorem head?_dec (n : Nat) : (dec n).head? = some (decDigit n (decLength n - 1)) := by
  have hpos := decLength_pos n
  rw [dec, List.head?_map, List.head?_reverse, List.getLast?_range, if_neg (by omega), Option.map_some]

/-- The leading digit is 0 for no number but 0 (R106). -/
theorem eq_zero_of_leading_zero {n : Nat} (hn : n < 65536) (h : n / 10 ^ (decLength n - 1) % 10 = 0) : n = 0 := by
  unfold decLength at h
  split_ifs at h <;> omega

/-- Settles O27: each digit is the one of its power of ten, and there are as many as `n` needs. -/
theorem decimalNumeralsAreExact : Obligations.DecimalNumeralsAreExact := by
  intro n hn
  rw [length_dec]
  refine ⟨decLength_pos n, decLength_le n, fun b hb => ?_, parseDec_dec n hn, fun hhead => ?_⟩
  · simpa [isDigit] using dec_isDigit n b hb
  · have hdigit : (decDigit n (decLength n - 1)).toNat = 0x30 :=
      congrArg BitVec.toNat (Option.some.inj ((head?_dec n).symm.trans hhead))
    rw [decDigit_toNat] at hdigit
    obtain rfl := eq_zero_of_leading_zero hn (by omega)
    exact ⟨rfl, rfl⟩

/-! ### The header -/

/-- Settles O26: the four lines one after another are R104's dump. -/
theorem headerBlockLayout : Obligations.HeaderBlockLayout :=
  ⟨rfl, rfl, by decide, by decide⟩

/-- A line of step HEADER, up to offset `stop`, whose remaining bytes the sink accepts (R194, R204). -/
theorem headerRecord_ok {line : List Byte} {start stop : Nat} {next : State → State} {s : State}
    {later : List SinkAnswer} (hstop : start + line.length = stop) (hopen : s.handle = true) (hstart : start ≤ s.hp.toNat)
    (ha : answersOk s (stop - s.hp.toNat) later) :
    headerRecord line start next s = .next (next (setHp stop (wrote (line.drop (s.hp.toNat - start)) later s))) := by
  subst hstop
  have hlen : (line.drop (s.hp.toNat - start)).length = start + line.length - s.hp.toNat := by
    rw [List.length_drop]
    omega
  exact emitRecord_ok hopen (hlen ▸ ha)

/-- A line's end cuts the header block after that line (R104). -/
theorem take_hdrRom :
    Config.hdrRom.take 11 = Config.headerLine1
    ∧ Config.hdrRom.take 42 = Config.headerLine1 ++ Config.headerLine2
    ∧ Config.hdrRom.take 65 = Config.headerLine1 ++ Config.headerLine2 ++ Config.headerLine3
    ∧ Config.hdrRom.take 101 = Config.headerLine1 ++ Config.headerLine2 ++ Config.headerLine3 ++ Config.headerLine4 :=
  ⟨rfl, rfl, rfl, rfl⟩

/-- From a place after `before` on, what is left of both is the rest of the line. -/
theorem drop_line {before line : List Byte} {start n : Nat} (hlen : before.length = start) (h : start ≤ n) :
    (before ++ line).drop n = line.drop (n - start) := by
  rw [List.drop_append, List.drop_eq_nil_of_le (hlen.trans_le h), List.nil_append, hlen]

/-- Settles O28: each line is the part of the header block between its two offsets. -/
theorem headerLinesComplete : Obligations.HeaderLinesComplete := by
  intro s later hopen
  obtain ⟨h11, h42, h65, h101⟩ := take_hdrRom
  rw [h11, h42, h65, h101]
  refine ⟨fun _ ha => ?_, fun hlow _ ha => ?_, fun hlow _ ha => ?_, fun hlow _ ha => ?_⟩
  · exact (headerRecord_ok (stop := 11) (next := goTo .header2) rfl hopen (Nat.zero_le _) ha).trans rfl
  · rw [drop_line (start := 11) rfl hlow]
    exact (headerRecord_ok (stop := 42) (next := goTo .header3) rfl hopen hlow ha).trans rfl
  · rw [drop_line (start := 42) rfl hlow]
    exact (headerRecord_ok (stop := 65) (next := goTo .header4) rfl hopen hlow ha).trans rfl
  · rw [drop_line (start := 65) rfl hlow]
    exact (headerRecord_ok (stop := 101) (next := goTo .resolution) rfl hopen hlow ha).trans rfl

/-- Settles O29: the resolution line is a line of step HEADER, which the row loop follows. -/
theorem reslineCompletes : Obligations.ReslineCompletes := by
  intro h w s later hopen hlow _ ha
  have hend : 101 + (reslineBytes h w).length = 109 + (dec h.toNat).length + (dec w.toNat).length := by
    rw [length_reslineBytes, length_dec, length_dec]
    omega
  exact (headerRecord_ok (next := enterRows) hend hopen hlow ha).trans rfl

/-! ### Commands of one action -/

/-- Settles O5: a waiting block without a reset request accepts the next descriptor. -/
theorem stepRunsDecodedCommand : Obligations.StepRunsDecodedCommand := by
  intro s c later hr hseq hcmd
  rw [step, hr]
  dsimp only
  rw [if_pos hseq, hcmd]

/-- QUANT is one action, a quantization and its response (R130). -/
theorem exec_quant (red green blue : F64) (s : State) :
    exec (.quant red green blue) s = .next (respondQ (quantizeStep (startQuant red green blue s))) :=
  (Runs.one (s := startQuant red green blue s) (by simp [startQuant]) rfl rfl).ends (respond_seq _ _ _) 0

/-- Settles O8: for a valid pixel `Q` takes the four bytes of R130. -/
theorem quantRespondsQuantizedPixel : Obligations.QuantRespondsQuantizedPixel := by
  intro red green blue s hvalid
  have hq : quantizeStep (startQuant red green blue s)
      = setQ (quantizeValid ⟨red, green, blue⟩) (startQuant red green blue s) := if_pos hvalid
  refine ⟨_, exec_quant red green blue s, ?_⟩
  rw [hq, respondQ]
  simp [startQuant, keepsWriter, keepsOutside, responseBytes, Status.code]

/-- Settles O39: acceptance writes `OP`, and the exception has nothing to clean up. -/
theorem reservedCommandTakesIllegalCommand : Obligations.ReservedCommandTakesIllegalCommand := by
  intro c s
  have hrun : exec (.reservedCommand c) s = .next (respond .illegalCommand [] (startReserved c s)) :=
    (runs_raising (s := startReserved c s) rfl).ends (respond_seq _ _ _) 0
  rw [hrun]
  cases c with
  | nil => rfl
  | cons b rest => rfl

/-- Settles O40: the frame of a response. -/
theorem responseEndsCommand : Obligations.ResponseEndsCommand := by
  intro status payload s
  refine ⟨respond status payload s, rfl, ?_⟩
  simp [keepsWriter, keepsOutside, responseBytes]

end Sys2Proof.Machine
end

section
/-! PROOFS. The binary64 patterns: their 63 low bits order them as their values do, and place their magnitudes between powers
of two; which patterns are valid, and the quantizer's bit-level form (R141, R142, R144). -/

namespace Sys2Proof.Machine

/-! ### The fields of a pattern -/

theorem fracField_lt (f : F64) : fracField f < 2 ^ 52 := BitVec.isLt _

/-- The 63 low bits, whose unsigned order R144 speaks of. -/
def lowBits (f : F64) : Nat :=
  (f.extractLsb' 0 63).toNat

theorem lowBits_eq (f : F64) : lowBits f = 2 ^ 52 * expField f + fracField f := by
  simp only [lowBits, expField, fracField, BitVec.extractLsb'_toNat, Nat.shiftRight_eq_div_pow]
  omega

theorem lowBits_eq_zero_iff (f : F64) : lowBits f = 0 ↔ expField f = 0 ∧ fracField f = 0 := by
  have := lowBits_eq f
  omega

theorem significand_normal {f : F64} (h : expField f ≠ 0) : significand f = 2 ^ 52 + fracField f := if_neg h

theorem significand_subnormal {f : F64} (h : expField f = 0) : significand f = fracField f := if_pos h

theorem scaleExp_normal {f : F64} (h : expField f ≠ 0) : scaleExp f = expField f := if_neg h

theorem scaleExp_subnormal {f : F64} (h : expField f = 0) : scaleExp f = 1 := if_pos h

/-! ### Magnitudes -/

theorem magnitude_subnormal {f : F64} (h : expField f = 0) : magnitude f = fracField f := by
  rw [magnitude_eq, significand_subnormal h, scaleExp_subnormal h, Nat.sub_self, pow_zero, mul_one]

theorem magnitude_normal {f : F64} (h : expField f ≠ 0) :
    magnitude f = (2 ^ 52 + fracField f) * 2 ^ (expField f - 1) := by
  rw [magnitude_eq, significand_normal h, scaleExp_normal h]

/-- The hidden bit bounds a normal number from below. -/
theorem pow_le_magnitude {f : F64} (h : expField f ≠ 0) : 2 ^ (51 + expField f) ≤ magnitude f := by
  rw [magnitude_normal h, show 51 + expField f = 52 + (expField f - 1) by omega, pow_add]
  exact Nat.mul_le_mul_right _ (Nat.le_add_right _ _)

/-- The width of the fraction bounds every datum from above. -/
theorem magnitude_lt_pow (f : F64) : magnitude f < 2 ^ (52 + expField f) := by
  have hfrac := fracField_lt f
  by_cases h : expField f = 0
  · rw [magnitude_subnormal h, h]
    exact hfrac
  · rw [magnitude_normal h, show 52 + expField f = 53 + (expField f - 1) by omega, pow_add]
    exact Nat.mul_lt_mul_of_pos_right (by omega) (by positivity)

theorem magnitude_eq_zero_iff (f : F64) : magnitude f = 0 ↔ lowBits f = 0 := by
  rw [lowBits_eq_zero_iff]
  by_cases h : expField f = 0
  · simp [magnitude_subnormal h, h]
  · have : 0 < magnitude f := lt_of_lt_of_le (by positivity) (pow_le_magnitude h)
    simp [h, this.ne']

/-- A larger exponent field makes the larger value, and under one exponent field the fraction decides (R144). -/
theorem magnitude_lt_of_lowBits_lt {f g : F64} (h : lowBits f < lowBits g) : magnitude f < magnitude g := by
  have hf := fracField_lt f
  have hg := fracField_lt g
  rw [lowBits_eq, lowBits_eq] at h
  rcases Nat.lt_trichotomy (expField f) (expField g) with hexp | hexp | hexp
  · calc magnitude f < 2 ^ (52 + expField f) := magnitude_lt_pow f
      _ ≤ 2 ^ (51 + expField g) := Nat.pow_le_pow_right (by decide) (by omega)
      _ ≤ magnitude g := pow_le_magnitude (by omega)
  · have hfrac : fracField f < fracField g := by omega
    by_cases hz : expField g = 0
    · rwa [magnitude_subnormal (hexp.trans hz), magnitude_subnormal hz]
    · rw [magnitude_normal (hexp.trans_ne hz), magnitude_normal hz, hexp]
      exact Nat.mul_lt_mul_of_pos_right (by omega) (by positivity)
  · omega

theorem magnitude_eq_of_lowBits_eq {f g : F64} (h : lowBits f = lowBits g) : magnitude f = magnitude g := by
  have hf := fracField_lt f
  have hg := fracField_lt g
  rw [lowBits_eq, lowBits_eq] at h
  have hexp : expField f = expField g := by omega
  have hfrac : fracField f = fracField g := by omega
  rw [magnitude, magnitude, significand, significand, scaleExp, scaleExp, hexp, hfrac]

/-- The order of the values is the unsigned order of the 63 low bits (R144). -/
theorem lowBits_lt_iff (f g : F64) : lowBits f < lowBits g ↔ magnitude f < magnitude g := by
  refine ⟨magnitude_lt_of_lowBits_lt, fun h => ?_⟩
  rcases Nat.lt_trichotomy (lowBits f) (lowBits g) with hl | hl | hl
  · exact hl
  · exact absurd (magnitude_eq_of_lowBits_eq hl) h.ne
  · exact absurd (magnitude_lt_of_lowBits_lt hl) h.asymm

theorem lowBits_le_iff (f g : F64) : lowBits f ≤ lowBits g ↔ magnitude f ≤ magnitude g := by
  rw [← not_lt, lowBits_lt_iff, not_lt]

/-- The floor is a normal number (R131). -/
theorem expField_floorBits : expField Config.floorBits = 916 := by decide

/-! ### Valid patterns -/

/-- A pattern with the sign bit set is `-0` exactly where its low bits are 0 (R142). -/
theorem eq_minusZero_iff {f : F64} (hsign : f.getLsbD 63 = true) : f = 0x8000000000000000#64 ↔ lowBits f = 0 := by
  have hhigh : 2 ^ 63 ≤ f.toNat := by
    rwa [← BitVec.msb_eq_getLsbD_last, BitVec.msb_eq_decide, decide_eq_true_eq] at hsign
  rw [← BitVec.toNat_inj, lowBits, BitVec.extractLsb'_toNat, Nat.shiftRight_zero]
  simp only [BitVec.toNat_ofNat]
  omega

theorem validComponent_iff (f : F64) :
    validComponent f = true ↔
      f.extractLsb' 52 11 ≠ 2047#11 ∧ (f.getLsbD 63 = true → f = 0x8000000000000000#64) := by
  have hexp : expField f ≠ 2047 ↔ f.extractLsb' 52 11 ≠ 2047#11 := by
    rw [Ne, Ne, ← BitVec.toNat_inj]
    rfl
  rw [validComponent, signBit, Bool.and_eq_true, decide_eq_true_eq, hexp]
  cases hsign : f.getLsbD 63 with
  | false => simp
  | true => simp [eq_minusZero_iff hsign, magnitude_eq_zero_iff]

/-- Settles O10: the three components one by one. -/
theorem validPixelsAreFiniteAndNotNegative : Obligations.ValidPixelsAreFiniteAndNotNegative := by
  intro pixel
  simp only [List.forall_mem_cons, ← validComponent_iff]
  simp [validPixel, and_assoc]

theorem expField_le_of_valid {f : F64} (h : validComponent f = true) : expField f ≤ 2046 := by
  have hlt : expField f < 2 ^ 11 := BitVec.isLt _
  rw [validComponent, Bool.and_eq_true, decide_eq_true_eq] at h
  have hne := h.1
  omega

/-! ### The bit-level form (R144) -/

/-- The pattern with the larger low bits. -/
def larger (f g : F64) : F64 :=
  if lowBits f < lowBits g then g else f

theorem magnitude_larger (f g : F64) : magnitude (larger f g) = max (magnitude f) (magnitude g) := by
  unfold larger
  split <;> rw [lowBits_lt_iff] at * <;> omega

theorem validComponent_larger {f g : F64} (hf : validComponent f = true) (hg : validComponent g = true) :
    validComponent (larger f g) = true := by
  unfold larger
  split
  · exact hg
  · exact hf

theorem largest_eq (pixel : Pixel) : largest pixel = larger pixel.red (larger pixel.green pixel.blue) := rfl

theorem magnitude_largest (pixel : Pixel) : magnitude (largest pixel) = maxMagnitude pixel := by
  rw [largest_eq, magnitude_larger, magnitude_larger]
  rfl

theorem validComponent_largest {pixel : Pixel} (h : validPixel pixel = true) :
    validComponent (largest pixel) = true := by
  simp only [validPixel, Bool.and_eq_true] at h
  obtain ⟨⟨hred, hgreen⟩, hblue⟩ := h
  exact validComponent_larger hred (validComponent_larger hgreen hblue)

/-- The exponent field of a normal number is its frexp exponent, up to a constant (R144). -/
theorem frexpExp_magnitude {f : F64} (h : expField f ≠ 0) : frexpExp (magnitude f) = expField f + 52 := by
  have hlog : Nat.log2 (magnitude f) = 51 + expField f := by
    have hpow := pow_le_magnitude h
    have hne : magnitude f ≠ 0 := (lt_of_lt_of_le (by positivity) hpow).ne'
    rw [Nat.log2_eq_iff hne]
    exact ⟨hpow, by rw [show 51 + expField f + 1 = 52 + expField f by omega]; exact magnitude_lt_pow f⟩
  rw [frexpExp, hlog]
  omega

theorem scaleExp_pos (f : F64) : 1 ≤ scaleExp f := by
  unfold scaleExp
  split <;> omega

/-- No component is scaled further than the largest one, if that one is normal. -/
theorem scaleExp_le {c d : F64} (hle : magnitude c ≤ magnitude d) (hd : expField d ≠ 0) : scaleExp c ≤ expField d := by
  have hc := fracField_lt c
  have hd' := fracField_lt d
  rw [← lowBits_le_iff, lowBits_eq, lowBits_eq] at hle
  unfold scaleExp
  split <;> omega

/-- The bit-level mantissa byte drops the bits that R135's quotient rounds away. -/
theorem bitMantissaByte_eq {c d : F64} (hle : magnitude c ≤ magnitude d) (hd : expField d ≠ 0) :
    bitMantissaByte d c = mantissaByte (magnitude d) (magnitude c) := by
  have hpos := scaleExp_pos c
  have hscale := scaleExp_le hle hd
  have hnum : magnitude c * Config.scale = significand c * 2 ^ (scaleExp c + 7) := by
    rw [magnitude_eq, mul_assoc, show Config.scale = 2 ^ 8 from rfl, ← pow_add,
      show scaleExp c - 1 + 8 = scaleExp c + 7 by omega]
  have hden : 2 ^ (expField d + 52) = 2 ^ (45 + expField d - scaleExp c) * 2 ^ (scaleExp c + 7) := by
    rw [← pow_add, show 45 + expField d - scaleExp c + (scaleExp c + 7) = expField d + 52 by omega]
  rw [bitMantissaByte, mantissaByte, frexpExp_magnitude hd, hnum, Nat.shiftRight_eq_div_pow, Nat.shiftRight_eq_div_pow,
    hden, Nat.mul_div_mul_right _ _ (by positivity)]

theorem exponentByte_magnitude {f : F64} (h : expField f ≠ 0) :
    exponentByte (magnitude f) = BitVec.ofInt 8 ((expField f : ℤ) - 894) := by
  rw [exponentByte, frexpExp_magnitude h]
  congr 1
  push_cast [Config.bias]
  ring

/-- The floor test on bit patterns is the floor test on values (R131, R144). -/
theorem lowBits_largest_le_floor_iff (pixel : Pixel) :
    lowBits (largest pixel) ≤ lowBits Config.floorBits ↔ ¬ aboveFloor pixel := by
  rw [lowBits_le_iff, magnitude_largest, aboveFloor_iff, not_lt]

/-- Above the floor the largest component's exponent field is at least the floor's; it is normal. -/
theorem expField_largest_ge {pixel : Pixel} (h : aboveFloor pixel) : 916 ≤ expField (largest pixel) := by
  have hlow : lowBits Config.floorBits < lowBits (largest pixel) :=
    not_le.mp fun hle => (lowBits_largest_le_floor_iff pixel).mp hle h
  have hfrac := fracField_lt (largest pixel)
  rw [lowBits_eq, lowBits_eq, expField_floorBits] at hlow
  omega

theorem expField_largest_ne_zero {pixel : Pixel} (h : aboveFloor pixel) : expField (largest pixel) ≠ 0 := by
  have := expField_largest_ge h
  omega

theorem frexpExp_maxMagnitude {pixel : Pixel} (h : aboveFloor pixel) :
    frexpExp (maxMagnitude pixel) = expField (largest pixel) + 52 := by
  rw [← magnitude_largest, frexpExp_magnitude (expField_largest_ne_zero h)]

theorem quantizeBits_black {pixel : Pixel} (h : ¬ aboveFloor pixel) :
    quantizeBits pixel = ⟨0x00#8, 0x00#8, 0x00#8, 0x00#8⟩ :=
  if_pos ((lowBits_largest_le_floor_iff pixel).mpr h)

theorem quantizeBits_above {pixel : Pixel} (h : aboveFloor pixel) :
    quantizeBits pixel = ⟨bitMantissaByte (largest pixel) pixel.red, bitMantissaByte (largest pixel) pixel.green,
      bitMantissaByte (largest pixel) pixel.blue, BitVec.ofInt 8 ((expField (largest pixel) : ℤ) - 894)⟩ :=
  if_neg fun hle => (lowBits_largest_le_floor_iff pixel).mp hle h

/-- Settles O15: the floor tests agree, and above the floor the bytes do one by one. -/
theorem bitLevelFormAgrees : Obligations.BitLevelFormAgrees := by
  intro pixel _
  by_cases h : aboveFloor pixel
  · have hnormal := expField_largest_ne_zero h
    have hmax := magnitude_largest pixel
    have hred : magnitude pixel.red ≤ magnitude (largest pixel) := hmax ▸ le_max_left _ _
    have hgreen : magnitude pixel.green ≤ magnitude (largest pixel) :=
      hmax ▸ (le_max_left _ _).trans (le_max_right _ _)
    have hblue : magnitude pixel.blue ≤ magnitude (largest pixel) :=
      hmax ▸ (le_max_right _ _).trans (le_max_right _ _)
    rw [quantizeBits_above h, quantizeValid_above h, ← hmax, bitMantissaByte_eq hred hnormal,
      bitMantissaByte_eq hgreen hnormal, bitMantissaByte_eq hblue hnormal, exponentByte_magnitude hnormal]
  · rw [quantizeBits_black h, quantizeValid_black h]

end Sys2Proof.Machine
end

section
/-! PROOFS. The quantizer in exact rational arithmetic: its formula, the frexp exponent, scaling, and what a consumer reads
back (R114, R130 to R145); QUANT of an invalid pixel (R141). -/

namespace Sys2Proof.Machine

/-! ### The frexp exponent (R133, R139) -/

/-- Above the floor the maximum is positive. -/
theorem maxMagnitude_ne_zero {pixel : Pixel} (h : aboveFloor pixel) : maxMagnitude pixel ≠ 0 := by
  rw [aboveFloor_iff] at h
  omega

theorem isFrexpExp_pixelMax {pixel : Pixel} (h : aboveFloor pixel) :
    isFrexpExp (pixelMax pixel) ((frexpExp (maxMagnitude pixel) : ℤ) - 1074) := by
  rw [pixelMax_eq]
  exact isFrexpExp_frexpExp (maxMagnitude_ne_zero h)

theorem eq_frexpExp {pixel : Pixel} {e : ℤ} (h : aboveFloor pixel) (he : isFrexpExp (pixelMax pixel) e) :
    e = (frexpExp (maxMagnitude pixel) : ℤ) - 1074 :=
  isFrexpExp_unique he (isFrexpExp_pixelMax h)

/-- The floor keeps the exponent from falling below -106 (R139). -/
theorem frexpExp_ge {pixel : Pixel} (h : aboveFloor pixel) : 968 ≤ frexpExp (maxMagnitude pixel) := by
  rw [frexpExp_maxMagnitude h]
  exact Nat.add_le_add_right (expField_largest_ge h) 52

/-- The exponent field keeps it from rising above 1024 (R139). -/
theorem frexpExp_le {pixel : Pixel} (hvalid : validPixel pixel = true) (h : aboveFloor pixel) :
    frexpExp (maxMagnitude pixel) ≤ 2098 := by
  rw [frexpExp_maxMagnitude h]
  exact Nat.add_le_add_right (expField_le_of_valid (validComponent_largest hvalid)) 52

/-- Settles O13: the exponent is that of the integer maximum. -/
theorem frexpExponentIsUniqueAndBounded : Obligations.FrexpExponentIsUniqueAndBounded := by
  intro pixel hvalid h
  have hge := frexpExp_ge h
  have hle := frexpExp_le hvalid h
  exact ⟨_, isFrexpExp_pixelMax h, by omega, by omega, fun e' he' => eq_frexpExp h he'⟩

/-- The half-open interval of `isFrexpExp`, with a whole power at its lower end. -/
theorem isFrexpExp_iff (d : ℚ) (e : ℤ) : isFrexpExp d e ↔ 2 ^ (e - 1) ≤ d ∧ d < 2 ^ e := by
  rw [isFrexpExp, zpow_sub_one₀ (by norm_num), mul_comm, one_div]

/-! ### The formula (R130, R134 to R137) -/

/-- The exponent byte wraps (R137). -/
theorem exponentByte_toNat (d : Nat) : ((exponentByte d).toNat : ℤ) = ((frexpExp d : ℤ) - 1074 + 128) % 256 := by
  rw [exponentByte, BitVec.toNat_ofInt]
  exact Int.toNat_of_nonneg (Int.emod_nonneg _ (by decide))

/-- R130 above the floor, whether the pixel is valid or not. -/
theorem quantizeValid_exact {pixel : Pixel} {e : ℤ} (h : aboveFloor pixel) (he : isFrexpExp (pixelMax pixel) e) :
    ((quantizeValid pixel).r.toNat : ℤ) = ⌊val pixel.red * 2 ^ (8 - e)⌋
    ∧ ((quantizeValid pixel).g.toNat : ℤ) = ⌊val pixel.green * 2 ^ (8 - e)⌋
    ∧ ((quantizeValid pixel).b.toNat : ℤ) = ⌊val pixel.blue * 2 ^ (8 - e)⌋
    ∧ ((quantizeValid pixel).e.toNat : ℤ) = (e + 128) % 256 := by
  rw [quantizeValid_above h, eq_frexpExp h he]
  exact ⟨mantissaByte_floor (le_max_left _ _), mantissaByte_floor ((le_max_left _ _).trans (le_max_right _ _)),
    mantissaByte_floor ((le_max_right _ _).trans (le_max_right _ _)), exponentByte_toNat _⟩

/-- Settles O11: validity is not needed. -/
theorem quantizeIsExactFormula : Obligations.QuantizeIsExactFormula := fun _ _ _ h he => quantizeValid_exact h he

/-! ### Black and non-black outputs (R131, R136) -/

/-- The byte of the largest component keeps its leading bit (R136). -/
theorem leading_mantissaByte {d : Nat} (h : d ≠ 0) : 128 ≤ (mantissaByte d d).toNat := by
  have hd := (frexpExp_bounds h).1
  have hexp : frexpExp d = (frexpExp d - 1) + 1 := rfl
  rw [mantissaByte_toNat le_rfl, Nat.le_div_iff_mul_le (by positivity), hexp, pow_succ]
  omega

theorem quantizeValid_leading {pixel : Pixel} (h : aboveFloor pixel) :
    128 ≤ (quantizeValid pixel).r.toNat ∨ 128 ≤ (quantizeValid pixel).g.toNat
      ∨ 128 ≤ (quantizeValid pixel).b.toNat := by
  have hlead := leading_mantissaByte (maxMagnitude_ne_zero h)
  have hmax : maxMagnitude pixel = magnitude pixel.red ∨ maxMagnitude pixel = magnitude pixel.green
      ∨ maxMagnitude pixel = magnitude pixel.blue := by
    unfold maxMagnitude
    omega
  rw [quantizeValid_above h]
  rcases hmax with e | e | e
  · exact .inl (by rwa [← e])
  · exact .inr (.inl (by rwa [← e]))
  · exact .inr (.inr (by rwa [← e]))

/-- Settles O14: the largest component's byte. -/
theorem nonBlackHasLeadingMantissa : Obligations.NonBlackHasLeadingMantissa := fun _ _ h => quantizeValid_leading h

/-- Settles O12: black at or below the floor; above it a mantissa byte is at least 128. -/
theorem floorTestGivesBlack : Obligations.FloorTestGivesBlack := by
  refine fun pixel _ => ⟨fun hblack h => ?_, quantizeValid_black⟩
  have hlead := quantizeValid_leading h
  rw [hblack] at hlead
  exact absurd hlead (by decide)

/-! ### Scaling by a power of two (R145) -/

theorem pixelMax_scale {a b : Pixel} {n : ℤ} (hred : val b.red = val a.red * 2 ^ n)
    (hgreen : val b.green = val a.green * 2 ^ n) (hblue : val b.blue = val a.blue * 2 ^ n) :
    pixelMax b = pixelMax a * 2 ^ n := by
  have hpos : (0 : ℚ) ≤ 2 ^ n := by positivity
  rw [pixelMax, pixelMax, hred, hgreen, hblue, max_mul_of_nonneg _ _ hpos, max_mul_of_nonneg _ _ hpos]

theorem isFrexpExp_scale {d : ℚ} {e : ℤ} (h : isFrexpExp d e) (n : ℤ) : isFrexpExp (d * 2 ^ n) (e + n) := by
  have hpos : (0 : ℚ) < 2 ^ n := by positivity
  rw [isFrexpExp, zpow_add₀ (by norm_num), ← mul_assoc]
  exact ⟨mul_le_mul_of_nonneg_right h.1 hpos.le, mul_lt_mul_of_pos_right h.2 hpos⟩

/-- Scaled component and scaled exponent leave R135's product. -/
theorem scaled_product (c : ℚ) (e n : ℤ) : c * 2 ^ n * 2 ^ (8 - (e + n)) = c * 2 ^ (8 - e) := by
  rw [mul_assoc, ← zpow_add₀ (by norm_num), show n + (8 - (e + n)) = 8 - e by ring]

theorem byte_eq_of_intCast {x y : Byte} {z : ℤ} (hx : (x.toNat : ℤ) = z) (hy : (y.toNat : ℤ) = z) : x = y :=
  BitVec.eq_of_toNat_eq (Int.ofNat_inj.mp (hx.trans hy.symm))

/-- Settles O16: the exponent moves by `n`, and R135's products are the same. -/
theorem scalingByPowersOfTwo : Obligations.ScalingByPowersOfTwo := by
  intro a b n _ _ ha hb hred hgreen hblue
  have hea := isFrexpExp_pixelMax ha
  obtain ⟨ar, ag, ab, ae⟩ := quantizeValid_exact ha hea
  have heb := isFrexpExp_scale hea n
  rw [← pixelMax_scale hred hgreen hblue] at heb
  obtain ⟨br, bg, bb, be⟩ := quantizeValid_exact hb heb
  rw [hred, scaled_product] at br
  rw [hgreen, scaled_product] at bg
  rw [hblue, scaled_product] at bb
  exact ⟨byte_eq_of_intCast br ar, byte_eq_of_intCast bg ag, byte_eq_of_intCast bb ab, by rw [be, ae]; omega⟩

/-! ### What a consumer reads back (R114, R139, R143) -/

/-- What R135's floor drops, where the exponent byte did not wrap (R143). -/
theorem sub_decoded {c : ℚ} {e : ℤ} {m E : Byte} (hm : (m.toNat : ℤ) = ⌊c * 2 ^ (8 - e)⌋)
    (hE : (E.toNat : ℤ) = e + 128) (hne : E ≠ 0x00#8) :
    c - decoded m E = Int.fract (c * 2 ^ (8 - e)) * 2 ^ (e - 8) := by
  have hfloor : (m.toNat : ℚ) = (⌊c * 2 ^ (8 - e)⌋ : ℚ) := by exact_mod_cast hm
  have hunit : (2 : ℚ) ^ e = 256 * 2 ^ (e - 8) := by
    rw [show (256 : ℚ) = 2 ^ (8 : ℤ) by norm_num, ← zpow_add₀ (by norm_num), add_sub_cancel]
  have hc : c = c * 2 ^ (8 - e) * 2 ^ (e - 8) := by
    rw [mul_assoc, ← zpow_add₀ (by norm_num), sub_add_sub_cancel, sub_self, zpow_zero, mul_one]
  rw [decoded_of_ne hne, hE, add_sub_cancel_right, hfloor, hunit, Int.fract, sub_mul, ← hc]
  ring

theorem decoded_error {c d : ℚ} {e : ℤ} {m E : Byte} (hm : (m.toNat : ℤ) = ⌊c * 2 ^ (8 - e)⌋)
    (hE : (E.toNat : ℤ) = e + 128) (hne : E ≠ 0x00#8) (hd : isFrexpExp d e) :
    0 ≤ c - decoded m E ∧ c - decoded m E < 2 ^ ((E.toNat : ℤ) - 136) ∧ c - decoded m E < d / 128 := by
  have hpos : (0 : ℚ) < 2 ^ (e - 8) := by positivity
  have hlast : c - decoded m E < 2 ^ (e - 8) := by
    rw [sub_decoded hm hE hne]
    exact mul_lt_of_lt_one_left hpos (Int.fract_lt_one _)
  have hunit : (2 : ℚ) ^ (e - 8) ≤ d / 128 := by
    rw [le_div_iff₀ (by norm_num), show (128 : ℚ) = 2 ^ (7 : ℤ) by norm_num, ← zpow_add₀ (by norm_num),
      show e - 8 + 7 = e - 1 by ring]
    exact ((isFrexpExp_iff d e).mp hd).1
  refine ⟨?_, ?_, hlast.trans_le hunit⟩
  · rw [sub_decoded hm hE hne]
    exact mul_nonneg (Int.fract_nonneg _) hpos.le
  · rwa [hE, show e + 128 - 136 = e - 8 by ring]

/-- An upper bound of `d` bounds its exponent (R133). -/
theorem isFrexpExp_le_of_lt {d : ℚ} {e n : ℤ} (he : isFrexpExp d e) (h : d < 2 ^ n) : e ≤ n := by
  have hlt : (2 : ℚ) ^ (e - 1) < 2 ^ n := ((isFrexpExp_iff d e).mp he).1.trans_lt h
  have := (zpow_lt_zpow_iff_right₀ (by norm_num)).mp hlt
  omega

/-- Settles O17: below 2^127 the exponent byte is `e + 128`, from 22 to 255. -/
theorem reconstructionErrorIsBounded : Obligations.ReconstructionErrorIsBounded := by
  intro pixel _ h hlt
  have he := isFrexpExp_pixelMax h
  have hge := frexpExp_ge h
  have hle := isFrexpExp_le_of_lt (n := 127) he hlt
  obtain ⟨hr, hg, hb, hE⟩ := quantizeValid_exact h he
  rw [Int.emod_eq_of_lt (by omega) (by omega)] at hE
  have hne : (quantizeValid pixel).e ≠ 0x00#8 := fun hzero => by
    rw [hzero, BitVec.toNat_ofNat] at hE
    omega
  simp only [List.forall_mem_cons]
  exact ⟨decoded_error hr hE hne he, decoded_error hg hE hne he, decoded_error hb hE hne he, by simp⟩

/-- Over the floor the exponent byte is 0 only at and above the wrap (R137, R139). -/
theorem pow_le_pixelMax_of_exponent_zero {pixel : Pixel} (h : aboveFloor pixel)
    (hzero : (quantizeValid pixel).e = 0x00#8) : 2 ^ 127 ≤ pixelMax pixel := by
  have he := isFrexpExp_pixelMax h
  have hge := frexpExp_ge h
  obtain ⟨-, -, -, hE⟩ := quantizeValid_exact h he
  rw [hzero, BitVec.toNat_ofNat] at hE
  by_contra hlt
  have hle := isFrexpExp_le_of_lt (n := 127) he (not_le.mp hlt)
  omega

/-- The floor lies far below 1 (R131). -/
theorem val_floorBits_lt_one : val Config.floorBits < 1 := by
  have hexp : 52 + expField Config.floorBits ≤ 1074 := by rw [expField_floorBits]; decide
  have hpow : (2 : ℚ) ^ (52 + expField Config.floorBits) ≤ 2 ^ 1074 := pow_le_pow_right₀ (by norm_num) hexp
  have hlt : (magnitude Config.floorBits : ℚ) < 2 ^ (52 + expField Config.floorBits) :=
    mod_cast magnitude_lt_pow Config.floorBits
  rw [val, div_lt_one unit_pos]
  exact hlt.trans_le hpow

/-- From 2^127 on the pixel is above the floor. -/
theorem aboveFloor_of_pow_le {pixel : Pixel} (h : 2 ^ 127 ≤ pixelMax pixel) : aboveFloor pixel :=
  (val_floorBits_lt_one.trans (by norm_num)).trans_le h

theorem exponent_zero_of_wrap {pixel : Pixel} (hlow : 2 ^ 127 ≤ pixelMax pixel) (hhigh : pixelMax pixel < 2 ^ 128) :
    (quantizeValid pixel).e = 0x00#8 := by
  have he : isFrexpExp (pixelMax pixel) 128 := (isFrexpExp_iff _ _).mpr ⟨hlow, hhigh⟩
  obtain ⟨-, -, -, hE⟩ := quantizeValid_exact (aboveFloor_of_pow_le hlow) he
  exact byte_eq_of_intCast hE rfl

/-- Settles O52: `e` = 128 wraps to 0, and `E` = 0 reads as black. -/
theorem wrappedExponentReadsAsBlack : Obligations.WrappedExponentReadsAsBlack := by
  refine fun pixel _ => ⟨fun hlow hhigh => ?_, fun h => ?_, fun hzero => ?_⟩
  · have hzero := exponent_zero_of_wrap hlow hhigh
    exact ⟨hzero, quantizeValid_leading (aboveFloor_of_pow_le hlow), decodedPixel_of_zero hzero⟩
  · exact decodedPixel_of_zero (congrArg Quad.e (quantizeValid_black h))
  · exact or_iff_not_imp_left.mpr fun h => pow_le_pixelMax_of_exponent_zero (not_not.mp h) hzero

/-! ### QUANT of an invalid pixel (R141) -/

/-- Settles O9: `Q` takes four drawn bytes, and nothing else differs from a valid pixel's QUANT. -/
theorem quantOfInvalidPixelResponds : Obligations.QuantOfInvalidPixelResponds := by
  intro red green blue s hinvalid
  have hq : quantizeStep (startQuant red green blue s) = drawQ (startQuant red green blue s) :=
    if_neg (ne_true_of_eq_false hinvalid)
  refine ⟨_, Config.drawnQuad s.draws, exec_quant red green blue s, ?_⟩
  rw [hq, respondQ]
  simp [startQuant, keepsWriter, keepsOutside, responseBytes, Status.code]

end Sys2Proof.Machine
end

section
/-! PROOFS. ENCSL from acceptance to response: the encoded scanline of a row, and the exception for width 0 (R97, R160, R171). -/

namespace Sys2Proof.Machine

/-- The encoder's run touches `OP`, `W`, the scanline buffer, its own counters and the payload, and nothing of the writer. -/
theorem keepsWriter_encoded (w : Half) (row : List Quad) (s : State) : keepsWriter s (encoded w row s) := by
  simp [keepsWriter, keepsOutside, encoded, place]

theorem keepsWriter_respond {s t : State} (h : keepsWriter s t) (status : Status) (payload : List Byte) :
    keepsWriter s (respond status payload t) := by
  simpa [keepsWriter, keepsOutside] using h

/-- Settles O18: the run forms the encoded scanline (R160), and the response carries it. -/
theorem encslReturnsEncodedScanline : Obligations.EncslReturnsEncodedScanline := by
  intro w row s hlen hw
  refine ⟨_, exec_encsl hlen hw s, respond_rsp _ _ _, respond_trace _ _ _, respond_op _ _ _, respond_w _ _ _,
    respond_err _ _ _, respond_seq _ _ _, ?_⟩
  exact keepsWriter_respond (keepsWriter_encoded w row s) _ _

/-- Settles O19: acceptance of width 0 raises `DegenerateInput` (R171), whose response is the only action. -/
theorem encslOfWidthZeroIsDegenerate : Obligations.EncslOfWidthZeroIsDegenerate := by
  intro s
  have hraise : accept (.encsl 0#16 []) s = raise .degenerateInput (acceptEncsl 0#16 [] s) := startEncsl_zero [] s
  show runCommand (encslActions 0) (accept (.encsl 0#16 []) s) = _
  rw [hraise]
  exact (runs_raising (s := raise .degenerateInput (acceptEncsl 0#16 [] s)) rfl).ends (respond_seq _ _ _) 1

end Sys2Proof.Machine
end

section
/-! PROOFS. WRITE as a whole: its exceptions before the header, the file it leaves, what of the file it leaves when a write
fails, and the values `ST` passes through (R190 to R216, R249, R251). -/

namespace Sys2Proof.Machine

/-! ### Before the header -/

theorem Runs.ends_of_le {n k : Nat} {s t : State} (h : Runs n s t) (ht : t.seq = .idle) (hnk : n ≤ k) :
    runCommand k s = .next t := by
  rw [← Nat.add_sub_of_le hnk]
  exact h.ends ht _

theorem exec_write (w h : Half) (pathtok : Word) (s : State) :
    exec (.write w h pathtok) s = runCommand (writeActions w.toNat h.toNat) (startWrite w h pathtok s) := rfl

theorem two_le_writeActions (w h : Nat) : 2 ≤ writeActions w h := Nat.le_add_left _ _

/-- Settles O32: VALIDATE raises the exception, whose response is the only action (R191). -/
theorem writeOfNoPixelsIsDegenerate : Obligations.WriteOfNoPixelsIsDegenerate := by
  intro w h pathtok s hz
  rw [exec_write, startWrite_none hz]
  exact (runs_raising (s := raise .degenerateInput (acceptWrite w h pathtok s)) rfl).ends_of_le (respond_seq _ _ _)
    (Nat.le_of_succ_le (two_le_writeActions _ _))

theorem runs_openRefused {s : State} {landed : Bool} {later : List SinkAnswer} (hseq : s.seq = .opening)
    (ha : s.sinkAnswers = .fail landed :: later) : Runs 1 s (raise .pathUnwritable (openRefused later s)) :=
  Runs.one (by simp [hseq]) (by simp [blocked, hseq, ha]) (by simp only [tick, hseq, stepOpen, ha])

/-- Settles O33: OPEN takes the refusal, and the exception has nothing to clean up (R193, R250). -/
theorem refusedOpenIsPathUnwritable : Obligations.RefusedOpenIsPathUnwritable := by
  intro w h pathtok s landed later hw hh ha
  have hopen := runs_openRefused (s := goTo .opening (acceptWrite w h pathtok s)) rfl ha
  rw [exec_write, startWrite_pos hw hh,
    (hopen.trans (runs_raising rfl)).ends_of_le (respond_seq _ _ _) (two_le_writeActions _ _)]
  have htrace : s.trace ++ [.sinkOpen pathtok false, .respond [0x01#8]]
      = s.trace ++ [.sinkOpen pathtok false] ++ [.respond [0x01#8]] := by simp
  rw [htrace]
  rfl

/-- Where the sink opens, WRITE goes on from the header's first byte, with the answers after the first (R192). -/
theorem exec_write_opened {w h : Half} (pathtok : Word) {answers : List SinkAnswer} {s : State} (hw : w ≠ 0#16)
    (hh : h ≠ 0#16) (ha : s.sinkAnswers = .ok :: answers) :
    exec (.write w h pathtok) s = runCommand (5 + h.toNat * (w.toNat + 1 + scanlineActions w.toNat) + 2)
      (answering answers (opened w h pathtok [] s)) := by
  have hfuel : writeActions w.toNat h.toNat = 1 + (5 + h.toNat * (w.toNat + 1 + scanlineActions w.toNat) + 2) := by
    rw [writeActions]; omega
  rw [exec_write, startWrite_pos hw hh, hfuel, runs_open ha]
  rfl

/-! ### The file of an image -/

/-- The quantized rows of the file of a valid image are a quantization of the image. -/
theorem quantizesImage_quantizedRow (img : Memory Pixel) (w h : Half) : quantizesImage img w h (quantizedRow img w) := by
  refine fun y _ => ⟨by simp [quantizedRow, imageRow], fun x pixel hx hp _ => ?_⟩
  simp [quantizedRow, imageRow, hx, hp]

theorem pixelIndex_lt {w h y x : Nat} (hy : y < h) (hx : x < w) : y * w + x < w * h :=
  calc y * w + x < (y + 1) * w := by rw [Nat.succ_mul]; omega
    _ ≤ w * h := by rw [Nat.mul_comm w]; exact Nat.mul_le_mul_right w hy

/-- A valid image has one quantization (R214). -/
theorem quantizesImage_unique {img : Memory Pixel} {w h : Half} {rows rows' : Nat → List Quad} (hc : imageComplete img w h)
    (hv : imageValid img w h) (hq : quantizesImage img w h rows) (hq' : quantizesImage img w h rows') {y : Nat}
    (hy : y < h.toNat) : rows y = rows' y := by
  obtain ⟨hlen, hquant⟩ := hq y hy
  obtain ⟨hlen', hquant'⟩ := hq' y hy
  refine List.ext_getElem? fun x => ?_
  by_cases hx : x < w.toNat
  · have hlt := pixelIndex_lt hy hx
    obtain ⟨pixel, hp⟩ := Option.isSome_iff_exists.mp (hc _ hlt)
    rw [hquant x pixel hx hp (hv _ pixel hlt hp), hquant' x pixel hx hp (hv _ pixel hlt hp)]
  · rw [List.getElem?_eq_none (by omega), List.getElem?_eq_none (by omega)]

theorem mem_rowOrder {n y : Nat} : y ∈ rowOrder n ↔ y < n := by
  rw [rowOrder, List.mem_reverse, List.mem_range]

theorem fileOf_eq_fileBytes {img : Memory Pixel} {w h : Half} {rows : Nat → List Quad} (hc : imageComplete img w h)
    (hv : imageValid img w h) (hq : quantizesImage img w h rows) : fileOf rows w h = fileBytes img w h := by
  rw [fileBytes, fileOf, fileOf, List.flatMap_congr]
  intro y hy
  rw [quantizesImage_unique hc hv hq (quantizesImage_quantizedRow img w h) (mem_rowOrder.mp hy)]

/-! ### The state in which the header starts -/

section
variable (w h : Half) (pathtok : Word) (answers : List SinkAnswer) (s : State)

@[simp] theorem opened_op : (opened w h pathtok answers s).op = 0x03#8 := rfl
@[simp] theorem opened_w : (opened w h pathtok answers s).w = w := rfl
@[simp] theorem opened_h : (opened w h pathtok answers s).h = h := rfl
@[simp] theorem opened_pathtok : (opened w h pathtok answers s).pathtok = pathtok := rfl
@[simp] theorem opened_rsp : (opened w h pathtok answers s).rsp = s.rsp := rfl
@[simp] theorem opened_trace : (opened w h pathtok answers s).trace = s.trace ++ [.sinkOpen pathtok true] := rfl
@[simp] theorem opened_img : (opened w h pathtok answers s).img = s.img := rfl
@[simp] theorem opened_imgAnswers : (opened w h pathtok answers s).imgAnswers = s.imgAnswers := rfl
@[simp] theorem opened_cmd : (opened w h pathtok answers s).cmd = s.cmd := rfl
@[simp] theorem opened_resetReq : (opened w h pathtok answers s).resetReq = s.resetReq := rfl

end

/-! ### A sink that accepts everything -/

theorem inJob_answering {w h : Half} {img : Memory Pixel} {d : Nat} {answers : List SinkAnswer} {u : State}
    (hj : InJob w h img d (answering answers u)) : InJob w h img d u :=
  hj.of_keeps (keeps_answering u.sinkAnswers _) rfl

/-- Settles O34: the header and the rows are one stretch, which puts the file out, and CLOSE and the response follow. -/
theorem writeProducesFile : Obligations.WriteProducesFile := by
  intro w h pathtok s later hw hh hc hi ha
  obtain ⟨rows, hq, hseg⟩ := segment_write hw hh hc s.draws
  obtain ⟨u, hruns, hwent, hlater, d, hj, -, hy, hseq⟩ := (hseg (opened w h pathtok [] s) (opened_job hi) rfl rfl).1 later
  obtain ⟨hkeeps, hstream, hothers, htrace⟩ := hwent
  have hclose := runs_close (inJob_answering hj) hseq hkeeps.payload
  have hopen : s.sinkAnswers = .ok :: (List.replicate (fileOf rows w h).length .ok ++ later) := by
    rw [fileLengthIsExact w h s.img rows hq, ← List.cons_append, ← List.replicate_succ, Nat.add_comm _ 1]
    exact ha
  have hexec := (exec_write_opened pathtok hw hh hopen).trans ((hruns.trans hclose).ends (respond_seq _ _ _) 0)
  rw [opened_pathtok] at hstream hothers
  refine ⟨_, rows, hq, hexec, ?_, fun other ho => ?_, ?_, ?_⟩
  · simpa [stream_opened] using hstream
  · simpa [stream_opened_other w h [] s ho] using hothers other ho
  · simp [htrace, responseBytes, Status.code]
  · obtain ⟨hop, hkw, hkh, hpathtok, himg, himgAnswers, hcmd, hresetReq, hrsp, -, -⟩ := hkeeps
    have hy0 : u.y = 0#16 := hy
    simp [keepsOutside, responseBytes, Status.code, hop, hkw, hkh, hpathtok, himg, himgAnswers, hcmd, hresetReq, hrsp, hy0,
      hlater]

/-- Settles O35: the quantization whose file is written is the one that `fileBytes` has. -/
theorem writeOfValidImageIsItsFile : Obligations.WriteOfValidImageIsItsFile := by
  intro w h pathtok s later hw hh hc hv hi ha
  rw [fileBytes, fileLengthIsExact w h s.img _ (quantizesImage_quantizedRow s.img w h)] at ha
  obtain ⟨t, rows, hq, hexec, hstream, -, -, hrsp, herr, hst, hhandle, hseq, -⟩ :=
    writeProducesFile w h pathtok s later hw hh hc hi ha
  exact ⟨t, hexec, hstream.trans (fileOf_eq_fileBytes hc hv hq), hrsp, herr, hst, hhandle, hseq⟩

/-! ### A sink that refuses a byte -/

/-- Settles O36: the header and the rows are one stretch, which the refused byte ends (R249, R251). -/
theorem failedWriteKeepsPrefix : Obligations.FailedWriteKeepsPrefix := by
  intro w h pathtok s n landed later hw hh hc hi ha hn
  obtain ⟨rows, hq, hseg⟩ := segment_write hw hh hc s.draws
  rw [← fileLengthIsExact w h s.img rows hq] at hn
  obtain ⟨t, hfail, hrun⟩ := (hseg (opened w h pathtok [] s) (opened_job hi) rfl rfl).2 n landed later hn
  have hbyte : (fileOf rows w h)[n]? = some (fileOf rows w h)[n] := List.getElem?_eq_getElem hn
  have hstream := hfail.stream
  have htrace := hfail.trace
  rw [hbyte] at hstream htrace
  refine ⟨t, rows, (fileOf rows w h)[n], hq, fun hv => fileOf_eq_fileBytes hc hv hq, hbyte,
    (exec_write_opened pathtok hw hh ha).trans (hrun 0), ?_, fun other ho => ?_, htrace, hfail.rsp, hfail.err, hfail.st,
    hfail.handle, hfail.seq, hfail.op, hfail.w, hfail.h, hfail.pathtok, hfail.sinkAnswers, hfail.outside⟩
  · rwa [opened_pathtok, stream_opened, List.nil_append] at hstream
  · exact (hfail.others other ho).trans (stream_opened_other w h [] s ho)

/-- The FAIL path's first action is the close (R249). -/
theorem tick_failing {s : State} (h : s.seq = .failing) : tick s = .next (goTo (.raising .writeFailure) (closeSink s)) := by
  simp only [tick, h]
  rfl

/-- What a refused byte and the counters of its record leave of the block: the writes are in the trace, and nothing has been
closed or answered (R204). -/
theorem refused_frame {f : State → State} (hf : countersOnly f) (bytes : List Byte) (b : Byte) (landed : Bool)
    (answers later : List SinkAnswer) (s : State) :
    (f (rejected b landed later (wrote bytes answers s))).trace
        = s.trace ++ acceptedWrites bytes ++ [.memWrite b false]
      ∧ (f (rejected b landed later (wrote bytes answers s))).handle = s.handle
      ∧ (f (rejected b landed later (wrote bytes answers s))).st = s.st
      ∧ (f (rejected b landed later (wrote bytes answers s))).rsp = s.rsp
      ∧ (f (rejected b landed later (wrote bytes answers s))).err = s.err := by
  obtain ⟨hp, mp, k, e⟩ := hf (rejected b landed later (wrote bytes answers s))
  rw [e]
  exact ⟨rfl, rfl, rfl, rfl, rfl⟩

/-- Settles O31: the record is one emission, and the refused byte puts the FAIL path next. -/
theorem refusedByteClosesSink : Obligations.RefusedByteClosesSink := by
  intro i s n hn landed later hwf hop hopen ha
  have hne : recordRest i s ≠ [] := List.ne_nil_of_length_pos (Nat.zero_lt_of_lt hn)
  obtain ⟨save, next, hexec, hsave⟩ := exec_record hwf hne (by rw [hop]; decide)
  have hsave' := hsave ((recordRest i s).length - n)
  have hrefused := hexec.trans (emitRecord_fail hopen hn ha)
  have hfail := failedAt_record (landed := landed) (later := later) s hn hsave'
  obtain ⟨htrace, hhandle, hst, hrsp, herr⟩ := refused_frame hsave' ((recordRest i s).take n) (recordRest i s)[n] landed
    (.fail landed :: later) later s
  generalize save _ (rejected _ _ _ _) = r at *
  have hstream := hfail.stream
  rw [List.getElem?_eq_getElem hn] at hstream
  exact ⟨raise .writeFailure r, goTo (.raising .writeFailure) (closeSink (raise .writeFailure r)),
    writeFailed (raise .writeFailure r), hrefused, tick_failing rfl, rfl, htrace, hhandle.trans hopen, hst, hrsp, herr, rfl,
    rfl, rfl, hrsp, herr, respond_trace _ _ _, hstream, hfail.others, hfail.rsp, hfail.err, hfail.st, hfail.handle, hfail.seq,
    hfail.sinkAnswers, hfail.op, hfail.w, hfail.h, hfail.pathtok, hfail.outside⟩

/-! ### The writer's state (R213) -/

theorem PortsOnly.st {s u : State} (h : PortsOnly s u) : u.st = s.st := by
  obtain ⟨_, _, _, _, rfl, -⟩ := h
  rfl

theorem PortsOnly.op {s u : State} (h : PortsOnly s u) : u.op = s.op := by
  obtain ⟨_, _, _, _, rfl, -⟩ := h
  rfl

theorem stepOpen_st {s t : State} (h : stepOpen s = .next t) : t.st = s.st ∨ t.st = .opened := by
  rcases stepOpen_next h with ⟨-, rfl⟩ | ⟨later, -, rfl⟩ | ⟨_, later, -, rfl⟩
  · exact .inl rfl
  · exact .inr rfl
  · exact .inl rfl

theorem stepQuantize_st {s t : State} (h : stepQuantize s = .next t) : t.st = s.st := by
  rcases stepQuantize_next h with ⟨-, -, rfl⟩ | ⟨-, -, pixel, -, rfl⟩ | ⟨-, rfl⟩
  · rfl
  · obtain ⟨quad, draws, e⟩ := quantizeStep_writes (latchPixel (pixelIndex s.w s.y s.x) pixel s)
    rw [e]
    rfl
  · rfl

theorem execMark_st {w : Half} {s t : State} (h : execMark w s = .next t) : t.st = s.st :=
  emitScanlineRecord_keeps (P := fun u => u.st = s.st) h (fun _ => PortsOnly.st) (fun _ _ => id) (fun _ => id) (fun _ => id)

/-- A line of step HEADER moves `ST` only by what follows its last byte (R196). -/
theorem headerRecord_st {line : List Byte} {start : Nat} {next : State → State} {s t : State}
    (h : headerRecord line start next s = .next t) : t.st = s.st ∨ ∃ u, u.st = s.st ∧ t = next u := by
  obtain ⟨u, hu, rfl | ⟨left, -, -, rfl | rfl⟩⟩ := headerRecord_outcome h
  · exact .inr ⟨setHp _ u, hu.st, rfl⟩
  · exact .inl hu.st
  · exact .inl hu.st

/-- A chunk moves `ST` only at the end of a row of a WRITE (R210). -/
theorem advance_st (n : Nat) (s : State) :
    (advance n s).st = s.st ∨ (s.op ≠ Config.opEncsl ∧ (advance n s).st = .rowWritten) := by
  rcases advance_cases n s with ⟨-, e⟩ | ⟨-, -, e⟩ | ⟨-, -, -, e⟩ | ⟨-, -, ho, -, e⟩ | ⟨-, -, ho, -, e⟩ <;> rw [e]
  · exact .inl rfl
  · exact .inl rfl
  · exact .inl rfl
  · exact .inr ⟨ho, rfl⟩
  · exact .inr ⟨ho, rfl⟩

theorem execLit_st {data : List Byte} {s t : State} (h : execLit data s = .next t) :
    t.st = s.st ∨ (s.op ≠ Config.opEncsl ∧ t.st = .rowWritten) := by
  have hadvance : ∀ u, PortsOnly s u → (advance data.length u).st = s.st
      ∨ (s.op ≠ Config.opEncsl ∧ (advance data.length u).st = .rowWritten) := fun u hu => by
    rw [← hu.st, ← hu.op]
    exact advance_st data.length u
  rcases emitScanlineRecord_outcome (execLit_next h).2 with ⟨-, u, hu, rfl⟩ | ⟨-, u, hu, rfl | ⟨left, -, -, rfl | rfl⟩⟩
  · exact hadvance u hu
  · exact hadvance u hu
  · exact .inl hu.st
  · exact .inl hu.st

/-- Settles O51: an action's position and the invariant's clause for it give the edge. -/
theorem writerStateTransitions : Obligations.WriterStateTransitions := by
  intro s t hs h
  obtain ⟨-, hpos⟩ := hs
  rcases tick_next h with ⟨-, rfl⟩ | ⟨hseq, ho⟩ | ⟨_, line, start, next, hline, -, hh⟩ | ⟨hseq, hq⟩ | ⟨hseq, hm⟩
    | ⟨hseq, data, hd, hl⟩ | ⟨hseq, hc⟩ | ⟨hseq, rfl⟩ | ⟨hseq, rfl⟩ | ⟨hseq, rfl⟩ | ⟨exception, hseq, rfl⟩
  · exact .inl rfl
  · rw [positionOk, hseq] at hpos
    obtain ⟨-, -, -, ⟨-, hst⟩, -⟩ := hpos
    exact (stepOpen_st ho).imp_right fun ht => .inl ⟨hst, hseq, ht⟩
  · rcases headerRecord_st hh with ht | ⟨u, hu, rfl⟩
    · exact .inl ht
    rcases hline with ⟨-, -, -, rfl⟩ | ⟨-, -, -, rfl⟩ | ⟨-, -, -, rfl⟩ | ⟨-, -, -, rfl⟩ | ⟨hseq, -, -, rfl⟩
    · exact .inl hu
    · exact .inl hu
    · exact .inl hu
    · exact .inl hu
    · rw [positionOk, hseq] at hpos
      obtain ⟨-, hst, -⟩ := hpos
      exact .inr (.inr (.inl ⟨hst, hseq, rfl⟩))
  · exact .inl (stepQuantize_st hq)
  · exact .inl (execMark_st hm)
  · obtain ⟨hscan, -⟩ := (positionOk_chunking hseq).mp hpos
    refine (execLit_st hl).imp_right fun ⟨hop, ht⟩ => ?_
    obtain ⟨-, hst, -⟩ := inScanline_write hscan hop
    exact .inr (.inr (.inl ⟨hst, hseq, ht⟩))
  · rw [positionOk, hseq] at hpos
    obtain ⟨-, hst⟩ := hpos
    obtain ⟨-, rfl⟩ := stepClose_next hc
    exact .inr (.inr (.inr (.inr (.inl ⟨hst, hseq, rfl⟩))))
  · exact .inl (respond_st _ _ s)
  · obtain ⟨quad, draws, e⟩ := quantizeStep_writes s
    rw [e]
    exact .inl (respond_st _ _ _)
  · rw [positionOk, hseq] at hpos
    obtain ⟨-, hst⟩ := hpos
    exact .inr (.inr (.inr (.inr (.inr ⟨hst, hseq, rfl⟩))))
  · exact .inl (respond_st _ _ s)

end Sys2Proof.Machine
end

section
/-! PROOFS. A wait changes nothing (R262): the place that a record saves before its first new byte is the one it stands at. -/

namespace Sys2Proof.Machine

/-! ### Saving the place a record stands at -/

theorem setHp_toNat_self (s : State) : setHp s.hp.toNat s = s := by
  rw [setHp, BitVec.ofNat_toNat, BitVec.setWidth_eq]

theorem setMp_toNat_self (s : State) : setMp s.mp.toNat s = s := by
  rw [setMp, BitVec.ofNat_toNat, BitVec.setWidth_eq]

/-- `K` is 0 while the length byte is left, and else counts the data bytes left (R36). -/
theorem setK_length_chunkRest_self {data : List Byte} {s : State} (hk : s.k.toNat ≤ data.length) :
    setK data.length (chunkRest data s.k).length s = s := by
  have hcount : BitVec.ofNat 7 (if (chunkRest data s.k).length ≤ data.length then (chunkRest data s.k).length else 0)
      = s.k := by
    by_cases hk0 : s.k = 0#7
    · rw [chunkRest, if_pos hk0, length_chunkBytes, if_neg (by omega), hk0]
    · rw [chunkRest, if_neg hk0, List.length_drop, Nat.sub_sub_self hk, if_pos hk, BitVec.ofNat_toNat,
        BitVec.setWidth_eq]
  rw [setK, hcount]

/-- A chunk in progress has a byte still to emit (R36). -/
theorem length_chunkRest_pos {data : List Byte} {k : BitVec 7} (hk : k.toNat ≤ data.length) :
    0 < (chunkRest data k).length := by
  by_cases hk0 : k = 0#7
  · rw [chunkRest, if_pos hk0, length_chunkBytes]
    exact Nat.succ_pos _
  · have hpos : k.toNat ≠ 0 := fun h0 => hk0 (BitVec.eq_of_toNat_eq h0)
    rw [chunkRest, if_neg hk0, List.length_drop, Nat.sub_sub_self hk]
    exact Nat.pos_of_ne_zero hpos

/-! ### Records the sink does not answer -/

/-- Without an answer a record only saves its place. -/
theorem emitRecord_unanswered {bytes : List Byte} {save : Nat → State → State} {next : State → State} {s : State}
    (hopen : s.handle = true) (ha : s.sinkAnswers = []) (hleft : 0 < bytes.length) (hsave : save bytes.length s = s) :
    emitRecord bytes save next s = .next s := by
  have hwrote : wrote [] [] s = s := by rw [wrote_nil, ← ha]
  rw [emitRecord_waiting hopen hleft ha, List.take_zero, hwrote, Nat.sub_zero, hsave]

theorem headerRecord_unanswered {line : List Byte} {start : Nat} {next : State → State} {s : State}
    (h : inHeader s start (start + line.length)) (ha : s.sinkAnswers = []) : headerRecord line start next s = .next s := by
  obtain ⟨⟨-, -, -, hopen⟩, -, hlow, hhigh⟩ := h
  refine emitRecord_unanswered hopen ha ?_ ?_ <;> rw [List.length_drop]
  · omega
  · rw [show start + line.length - (line.length - (s.hp.toNat - start)) = s.hp.toNat by omega]
    exact setHp_toNat_self s

theorem execMark_unanswered {w : Half} {s : State} (h : inScanline s) (ho : s.op ≠ Config.opEncsl)
    (ha : s.sinkAnswers = []) : execMark w s = .next s := by
  obtain ⟨⟨-, -, -, hopen⟩, -⟩ := inScanline_write h ho
  have hmp := s.mp.isLt
  rw [execMark, emitScanlineRecord_write ho]
  refine emitRecord_unanswered hopen ha ?_ ?_ <;> rw [List.length_drop, length_markerBytes]
  · omega
  · rw [Nat.sub_sub_self (by omega)]
    exact setMp_toNat_self s

/-- The chunk at `X` (R164), of which `K` counts no more bytes than it has. -/
theorem execLit_unanswered {data : List Byte} {s : State} (h : AtChunk s) (hd : chunkData s = .ok data)
    (ho : s.op ≠ Config.opEncsl) (ha : s.sinkAnswers = []) : execLit data s = .next s := by
  obtain ⟨data', hd', hlen⟩ := atChunk_chunkData h
  obtain rfl : data' = data := Except.ok.inj (hd'.symm.trans hd)
  obtain ⟨hscan, -, -, hk⟩ := h
  obtain ⟨⟨-, -, -, hopen⟩, -⟩ := inScanline_write hscan ho
  rw [← length_of_readPlane _ hd] at hk
  rw [execLit, if_pos hlen, emitScanlineRecord_write ho]
  exact emitRecord_unanswered hopen ha (length_chunkRest_pos hk) (setK_length_chunkRest_self hk)

/-! ### Actions that wait -/

theorem stepOpen_unanswered {s : State} (ha : s.sinkAnswers = []) : stepOpen s = .next s := by
  rw [stepOpen, ha]

theorem stepQuantize_unanswered {s : State} (hx : s.x.toNat < s.w.toNat) (hi : s.imgAnswers = false) :
    stepQuantize s = .next s := by
  rw [stepQuantize, if_pos hx, hi]
  rfl

theorem seq_ne_idle_of_blocked {s : State} (hb : blocked s = true) : s.seq ≠ .idle := by
  intro hseq
  rw [blocked, hseq] at hb
  cases hb

/-- An action that waits for the sink or for the image memory changes nothing (R262, U7b). -/
theorem tick_of_blocked {s : State} (hpos : positionOk s) (hb : blocked s = true) : tick s = .next s := by
  unfold positionOk at hpos
  unfold blocked at hb
  unfold tick
  cases hseq : s.seq <;> rw [hseq] at hpos hb <;> dsimp only at hpos hb ⊢
  case opening => exact stepOpen_unanswered (List.isEmpty_iff.mp hb)
  case header1 => exact headerRecord_unanswered hpos (List.isEmpty_iff.mp hb)
  case header2 => exact headerRecord_unanswered hpos (List.isEmpty_iff.mp hb)
  case header3 => exact headerRecord_unanswered hpos (List.isEmpty_iff.mp hb)
  case header4 => exact headerRecord_unanswered hpos (List.isEmpty_iff.mp hb)
  case resolution => exact headerRecord_unanswered hpos (List.isEmpty_iff.mp hb)
  case quantizing =>
    simp only [Bool.and_eq_true, decide_eq_true_eq, Bool.not_eq_true'] at hb
    obtain ⟨hx, hi⟩ := hb
    exact stepQuantize_unanswered hx hi
  case marking =>
    simp only [Bool.and_eq_true, bne_iff_ne, List.isEmpty_iff] at hb
    obtain ⟨ho, ha⟩ := hb
    exact execMark_unanswered hpos ho ha
  case chunking =>
    simp only [Bool.and_eq_true, bne_iff_ne, List.isEmpty_iff] at hb
    obtain ⟨ho, ha⟩ := hb
    obtain ⟨data, hd, -⟩ := atChunk_chunkData hpos
    rw [hd]
    exact execLit_unanswered hpos hd ho ha
  all_goals cases hb

/-- Without a descriptor a waiting block goes on waiting (R262). -/
theorem step_idle_unsent {s : State} (hr : s.resetReq = none) (hseq : s.seq = .idle) (hc : s.cmd = []) :
    step s = .next s := by
  rw [step, hr]
  dsimp only
  rw [if_pos hseq, hc]

/-- Settles O7: at rest the step waits for a descriptor, and in mid-command it is one action, which waits. -/
theorem waitingChangesNothing : Obligations.WaitingChangesNothing := by
  intro s hr
  refine ⟨step_idle_unsent hr, fun hs hb => ?_⟩
  obtain ⟨-, hpos⟩ := hs
  rw [step_eq_tick hr (seq_ne_idle_of_blocked hb)]
  exact tick_of_blocked hpos hb

end Sys2Proof.Machine
end

section
/-! PROOFS. Resets: a requested reset arrives after the operations before it, which are the same as without the request, and leaves
the external state as they left it (R280, R281). -/

namespace Sys2Proof.Machine

/-! ### A step with a reset requested -/

theorem step_reset {s : State} (hr : s.resetReq = some 0) : step s = .next (resetBlock s) := by
  rw [step, hr]

theorem step_before_reset {s : State} {n : Nat} (hr : s.resetReq = some (n + 1)) :
    step s = onNext (resetIn n) (atomicStep s) := by
  rw [step, hr]

/-- An operation before a reset is the one that the block does without the request. -/
theorem step_resetIn_succ (n : Nat) {s u : State} (h : atomicStep s = .next u) :
    step (resetIn (n + 1) s) = .next (resetIn n u) := by
  have hop : atomicStep (resetIn (n + 1) s) = .next (resetIn (n + 1) u) := by
    rw [show resetIn (n + 1) s = behind id (fun _ => some (n + 1)) s from rfl, atomicStep_behind, h]
    rfl
  rw [step_before_reset (resetIn_resetReq (n + 1) s), hop]
  rfl

/-- With the reset requested after `n` operations, `n` steps do these operations and one more step resets what they left. -/
theorem times_step_resetIn (n : Nat) : ∀ {s t : State}, times atomicStep n s = .next t →
    times step (n + 1) (resetIn n s) = .next (resetBlock t) := by
  induction n with
  | zero =>
    intro s t h
    cases h
    exact times_one (step_reset (resetIn_resetReq 0 s))
  | succ n ih =>
    intro s t h
    rw [times] at h ⊢
    split at h
    · next u hu =>
      rw [step_resetIn_succ n hu]
      exact ih h
    · cases h
    · cases h

/-! ### An acceptance abandoned -/

theorem atomicStep_accepts {s : State} {c : List Byte} {later : List (List Byte)} (hseq : s.seq = .idle)
    (hcmd : s.cmd = c :: later) : atomicStep s = .next (accept (decode c) { s with cmd := later }) := by
  rw [atomicStep, if_pos hseq, hcmd]

/-- All that an acceptance writes is block state, which a reset undoes (R92, R280). -/
theorem resetBlock_accept (c : List Byte) (s : State) : resetBlock (accept (decode c) s) = resetBlock s := by
  rcases accept_cases (onCommandPort_decode c) s with ⟨_, _, _, -, e⟩ | ⟨_, -, e⟩ | ⟨_, _, -, -, e⟩
    | ⟨_, _, _, -, -, e⟩ | ⟨_, _, _, -, -, -, e⟩ | ⟨_, -, e⟩ <;> rw [e] <;> rfl

theorem accept_decode_cmd (c : List Byte) (s : State) : (accept (decode c) s).cmd = s.cmd := by
  have hcmd : (resetBlock (accept (decode c) s)).cmd = (resetBlock s).cmd := by rw [resetBlock_accept]
  exact hcmd

/-! ### The statements -/

/-- Settles O55: the steps before the reset are the operations, by induction on their number. -/
theorem resetFallsAfterAnyOperation : Obligations.ResetFallsAfterAnyOperation := fun _ _ n h => times_step_resetIn n h

/-- Settles O43: the step is the reset of the block, which writes block state only. -/
theorem resetAbandonsCommand : Obligations.ResetAbandonsCommand := by
  intro s hr
  refine ⟨resetBlock s, step_reset hr, ?_⟩
  simp [resetBlock, State.reset]

/-- Settles O53: the step is the operation, and the count goes down where the operation does not stop. -/
theorem stepBeforeReset : Obligations.StepBeforeReset := by
  intro s n hr
  rw [step_before_reset hr]
  cases atomicStep s with
  | next t => rfl
  | fault f => rfl
  | refused r => rfl

/-- Settles O54: the first step accepts the descriptor, the second resets the running command. -/
theorem resetFallsBetweenAcceptanceAndResponse : Obligations.ResetFallsBetweenAcceptanceAndResponse := by
  intro s c later hseq hcmd hr
  refine ⟨resetIn 0 (accept (decode c) { s with cmd := later }), resetBlock { s with cmd := later }, ?_,
    accept_running (onCommandPort_decode c) _, accept_decode_cmd c _, ?_, rfl⟩
  · rw [step_before_reset hr, atomicStep_accepts hseq hcmd]
    rfl
  · rw [step_reset (resetIn_resetReq 0 _)]
    exact congrArg Host.Outcome.next (resetBlock_accept c { s with cmd := later })

end Sys2Proof.Machine
end
